-- ==== Sys2Proof/Config.lean ====
section
/-! DEFINITION. What an implementation of the block fixes: PKT_CAP and LEN_W (00_scope.md R11, R12) and the
constant MAX_FRAMES (R13). The spec makes every result a function of the packet, so the model has no free value. -/

namespace Sys2Proof

/-- The open parameters of R11 and R12. The machine carries them in its state as a constant that no step
changes (log entry 1). -/
structure Config where
  /-- PKT_CAP, how many bytes the packet buffer IN_BUF holds (R11). -/
  pktCap : Nat
  /-- LEN_W, the width in bits of every offset, length and count register (R12). -/
  lenW : Nat
  deriving DecidableEq, Repr

/-- The premises the spec puts on the parameters: PKT_CAP >= 1 (R11) and 2^LEN_W > PKT_CAP (R12). -/
def Config.wf (c : Config) : Bool :=
  decide (1 ≤ c.pktCap) && decide (c.pktCap < 2 ^ c.lenW)

/-- The parameters `State.reset` takes.
DESIGN CHOICE, unsafe for a statement that rests on the numbers (log entry 1): the spec leaves both open. -/
def Config.chosen : Config := { pktCap := 4096, lenW := 16 }

/-- MAX_FRAMES, the number of slots of the frame descriptor table (R13). -/
abbrev maxFrames : Nat := 48

end Sys2Proof
end

