-- ==== Sys2Proof/Word.lean ====
section
/-! DEFINITION. The one bit-vector type of the model: a byte (00_scope.md R16). Every offset, length and
count is an exact natural number (R12, R16). -/

namespace Sys2Proof

/-- One byte, a natural in 0..255 (R16), bit 0 least significant (R15, R86). -/
abbrev Byte := BitVec 8

end Sys2Proof
end

