-- ==== Sys2Proof/Syntax.lean ====
section
/-! DEFINITION. The instructions, one constructor per row of spec/opcode_table.json, and what they are encoded
in: packet fields (30_encoding.md R111-R116), Host access tuples (R126) and register names (10_state.md R36). -/

namespace Sys2Proof

/-- The four packet formats of R130: what a byte of the packet is decoded as, given the layout (R111). -/
inductive Field where
  /-- The TOC byte, byte 0 of every packet (R112). -/
  | toc
  /-- The frame-count header, byte 1 of a code-3 packet (R113). -/
  | fch
  /-- A frame-length field of one or two bytes (R114). -/
  | flen
  /-- A padding indicator byte (R116). -/
  | padind
  deriving DecidableEq, Repr

/-- Every format of R130: a packet field, a value written to CTRL, or a Host access. -/
inductive Format where
  | field (f : Field)
  | ctrl
  | host
  deriving DecidableEq, Repr

/-- A Host access as the tuple (space, dir, index, data) of R126. -/
structure Access where
  /-- 0 the register index space, 1 IN_BUF. -/
  space : BitVec 1
  /-- 1 a write, 0 a read. -/
  dir : BitVec 1
  /-- The register index or the IN_BUF address. -/
  index : Nat
  /-- The value written, absent for a read. -/
  data : Option Nat
  deriving DecidableEq, Repr

/-- The registers of the map R36, by name. -/
inductive Reg where
  | ctrl | status | inLen | errKind | errAvail | toc | fch | hdrBytes | padOff | padLen | padInd
  | frameOff (i : Fin 48)
  | frameLen (i : Fin 48)
  | frameSil (i : Fin 48)
  deriving DecidableEq, Repr

/-- The instructions. The first fifteen are fields of a packet (R2), the last eight are Host accesses and
commands (R126, R127). A flag is `true` for 1. -/
inductive Instr where
  /-- TOC0 (R212): code 0, one frame. -/
  | toc0 (config : BitVec 5) (stereo : Bool)
  /-- TOC1 (R213): code 1, two equal frames. -/
  | toc1 (config : BitVec 5) (stereo : Bool)
  /-- TOC2 (R216): code 2, two frames, the first length explicit. -/
  | toc2 (config : BitVec 5) (stereo : Bool)
  /-- TOC3 (R218): code 3, a frame-count header follows. -/
  | toc3 (config : BitVec 5) (stereo : Bool)
  /-- FCH_ILLEGAL (R174), row 0x00/0x3F: count 0. -/
  | fchIllegal0 (padf vbr : Bool)
  /-- FCH_ILLEGAL (R174), row 0x31/0x3F: count 49. -/
  | fchIllegal49 (padf vbr : Bool)
  /-- FCH_ILLEGAL (R174), row 0x32/0x3E: count 50 + x. -/
  | fchIllegal50 (padf vbr : Bool) (x : BitVec 1)
  /-- FCH_ILLEGAL (R174), row 0x34/0x3C: count 52 + x. -/
  | fchIllegal52 (padf vbr : Bool) (x : BitVec 2)
  /-- FCH_ILLEGAL (R174), row 0x38/0x38: count 56 + x. -/
  | fchIllegal56 (padf vbr : Bool) (x : BitVec 3)
  /-- FCH_CBR (R223): code 3, M in 1..48, equal frames. -/
  | fchCbr (padf : Bool) (m : BitVec 6)
  /-- FCH_VBR (R224): code 3, M in 1..48, explicit lengths. -/
  | fchVbr (padf : Bool) (m : BitVec 6)
  /-- FLEN2 (R152): two-byte frame length, A the low bits of the first byte, B the second byte. -/
  | flen2 (a : BitVec 2) (b : Byte)
  /-- FLEN1 (R151): one-byte frame length 0..251. -/
  | flen1 (l : Byte)
  /-- PAD_CONT (R191): the indicator byte 255. -/
  | padCont
  /-- PAD_TERM (R192): a terminal indicator 0..254. -/
  | padTerm (t : Byte)
  /-- WB a, v (R261). -/
  | wb (a : Nat) (v : Byte)
  /-- RB a (R262). -/
  | rb (a : Nat)
  /-- WR IN_LEN, n (R263). -/
  | wrInLen (n : Nat)
  /-- RR r (R264). -/
  | rr (r : BitVec 8)
  /-- CMD_NOP, WR CTRL 0x00 (R266). -/
  | cmdNop
  /-- CMD_PARSE, WR CTRL 0x01 (R267). -/
  | cmdParse
  /-- CMD_CLEAR, WR CTRL 0x02 (R268). -/
  | cmdClear
  /-- CMD_RESERVED, WR CTRL of any other value (R269). -/
  | cmdReserved (v : Byte)
  deriving DecidableEq, Repr

/-- What an instruction is encoded as: the bytes of a packet field, or a Host access. -/
inductive Encoded where
  | packet (f : Field) (bytes : List Byte)
  | access (a : Access)
  deriving DecidableEq, Repr

end Sys2Proof
end

