-- ==== Sys2Proof/WellFormed.lean ====
section
/-! DEFINITION. Which terms of `Instr` an encoding of the spec stands for: the value ranges that a field's
width does not already give (30_encoding.md R113, R114, R116, R121, R127). -/

namespace Sys2Proof

/-- A legal frame count, 1..48 (R113, R121). -/
def legalCount (m : BitVec 6) : Bool :=
  decide (1 ≤ m.toNat) && decide (m.toNat ≤ 48)

/-- An instruction some encoding stands for. -/
def Instr.wf : Instr → Bool
  | .toc0 _ _ => true
  | .toc1 _ _ => true
  | .toc2 _ _ => true
  | .toc3 _ _ => true
  | .fchIllegal0 _ _ => true
  | .fchIllegal49 _ _ => true
  | .fchIllegal50 _ _ _ => true
  | .fchIllegal52 _ _ _ => true
  | .fchIllegal56 _ _ _ => true
  | .fchCbr _ m => legalCount m
  | .fchVbr _ m => legalCount m
  | .flen2 _ _ => true
  | .flen1 l => decide (l.toNat ≤ 251)
  | .padCont => true
  | .padTerm t => decide (t.toNat ≤ 254)
  | .wb _ _ => true
  | .rb _ => true
  | .wrInLen _ => true
  | .rr _ => true
  | .cmdNop => true
  | .cmdParse => true
  | .cmdClear => true
  | .cmdReserved v => decide (3 ≤ v.toNat)

end Sys2Proof
end

