-- ==== Sys2Proof/Decode.lean ====
section
/-! DEFINITION. Decoding and encoding (30_encoding.md R112-R130, 10_state.md R36): the bit fields, the register
map, the decoder of packet fields, of CTRL values and of Host accesses, and the encoder. Every decoder is total
and rejects by name. -/

namespace Sys2Proof

/-! ### Bit fields (R112, R113, R117) -/

/-- TOC[7:3], the configuration value (R112). -/
def tocConfig (b : Byte) : BitVec 5 := b.extractLsb' 3 5

/-- TOC[2], the channel flag (R112). -/
def tocStereo (b : Byte) : Bool := b.getLsbD 2

/-- TOC[1:0], the frame-count code (R112). -/
def tocCode (b : Byte) : BitVec 2 := b.extractLsb' 0 2

/-- The TOC byte with these fields, pattern CCCCCSFF (R112). -/
def tocByte (config : BitVec 5) (stereo : Bool) (code : BitVec 2) : Byte :=
  config ++ BitVec.ofBool stereo ++ code

/-- FCH[5:0], the frame count M (R113). -/
def fchCount (b : Byte) : BitVec 6 := b.extractLsb' 0 6

/-- FCH[6], the VBR flag (R113). -/
def fchVbrFlag (b : Byte) : Bool := b.getLsbD 6

/-- FCH[7], the padding flag (R113). -/
def fchPadFlag (b : Byte) : Bool := b.getLsbD 7

/-- The frame-count header with these fields, pattern PVMMMMMM (R113). -/
def fchByte (padf vbr : Bool) (m : BitVec 6) : Byte :=
  BitVec.ofBool padf ++ BitVec.ofBool vbr ++ m

/-- The first byte of a FLEN2 pair, pattern 111111AA (R114). -/
def flen2First (a : BitVec 2) : Byte := 0x3F#6 ++ a

/-- A frame-length field is two bytes long exactly when its first byte is 252..255 (R118). -/
def flenIsLong (b0 : Byte) : Bool := b0 &&& 0xFC#8 == 0xFC#8

/-! ### The register map (R36) -/

/-- The register an index names; `none` for a reserved index (R51). -/
def Reg.ofIndex (r : BitVec 8) : Option Reg :=
  let n := r.toNat
  if n = 0x00 then some .ctrl
  else if n = 0x01 then some .status
  else if n = 0x02 then some .inLen
  else if n = 0x03 then some .errKind
  else if n = 0x04 then some .errAvail
  else if n = 0x05 then some .toc
  else if n = 0x06 then some .fch
  else if n = 0x07 then some .hdrBytes
  else if n = 0x08 then some .padOff
  else if n = 0x09 then some .padLen
  else if n = 0x0A then some .padInd
  else if h : 0x40 ≤ n ∧ n < 0x70 then some (.frameOff ⟨n - 0x40, by omega⟩)
  else if h : 0x80 ≤ n ∧ n < 0xB0 then some (.frameLen ⟨n - 0x80, by omega⟩)
  else if h : 0xC0 ≤ n ∧ n < 0xF0 then some (.frameSil ⟨n - 0xC0, by omega⟩)
  else none

/-- The index of a register (R36). -/
def Reg.index : Reg → Nat
  | .ctrl => 0x00
  | .status => 0x01
  | .inLen => 0x02
  | .errKind => 0x03
  | .errAvail => 0x04
  | .toc => 0x05
  | .fch => 0x06
  | .hdrBytes => 0x07
  | .padOff => 0x08
  | .padLen => 0x09
  | .padInd => 0x0A
  | .frameOff i => 0x40 + i.val
  | .frameLen i => 0x80 + i.val
  | .frameSil i => 0xC0 + i.val

/-! ### Decoding -/

/-- Why bits are no instruction. A refusal is safe: the machine stops where the spec gives no meaning. -/
inductive DecodeError where
  /-- A packet field with no byte, or a FLEN2 without its second byte. -/
  | truncated (f : Field)
  /-- Bytes left over after one packet field. -/
  | trailingBytes (f : Field)
  /-- A register write to a reserved index (R51, R265). -/
  | reservedIndex (r : Nat)
  /-- A register write to a read-only register (R52, R265). -/
  | readOnlyRegister (r : Reg)
  /-- A tuple that names a register index above 0xFF (log entry 11). -/
  | indexOutsideSpace (r : Nat)
  /-- A write tuple without data (log entry 11). -/
  | missingData
  /-- A read tuple with data (log entry 11). -/
  | unexpectedData
  /-- Data wider than the 8-bit place it is written to (log entry 11). -/
  | dataTooWide (v : Nat)
  deriving DecidableEq, Repr

/-- The TOC byte: the code selects one of exactly four forms, and no byte is illegal (R119, R122, R170). -/
def decodeToc (b : Byte) : Instr :=
  match tocCode b with
  | 0#2 => .toc0 (tocConfig b) (tocStereo b)
  | 1#2 => .toc1 (tocConfig b) (tocStereo b)
  | 2#2 => .toc2 (tocConfig b) (tocStereo b)
  | 3#2 => .toc3 (tocConfig b) (tocStereo b)

/-- The frame-count header, the illegal counts by the mask and match pairs of R121 before CBR and VBR (R130). -/
def decodeFch (b : Byte) : Instr :=
  if b &&& 0x3F#8 = 0x00#8 then .fchIllegal0 (fchPadFlag b) (fchVbrFlag b)
  else if b &&& 0x3F#8 = 0x31#8 then .fchIllegal49 (fchPadFlag b) (fchVbrFlag b)
  else if b &&& 0x3E#8 = 0x32#8 then .fchIllegal50 (fchPadFlag b) (fchVbrFlag b) (b.extractLsb' 0 1)
  else if b &&& 0x3C#8 = 0x34#8 then .fchIllegal52 (fchPadFlag b) (fchVbrFlag b) (b.extractLsb' 0 2)
  else if b &&& 0x38#8 = 0x38#8 then .fchIllegal56 (fchPadFlag b) (fchVbrFlag b) (b.extractLsb' 0 3)
  else if fchVbrFlag b then .fchVbr (fchPadFlag b) (fchCount b)
  else .fchCbr (fchPadFlag b) (fchCount b)

/-- A padding indicator byte, PAD_CONT before PAD_TERM (R116, R130). -/
def decodePadind (b : Byte) : Instr :=
  if b = 0xFF#8 then .padCont else .padTerm b

/-- One packet field at the head of a byte list, with the rest of the list (R118). -/
def decodeField (f : Field) (bytes : List Byte) : Except DecodeError (Instr × List Byte) :=
  match f, bytes with
  | .toc, b :: rest => .ok (decodeToc b, rest)
  | .fch, b :: rest => .ok (decodeFch b, rest)
  | .padind, b :: rest => .ok (decodePadind b, rest)
  | .flen, b0 :: rest =>
    if flenIsLong b0 then
      match rest with
      | b1 :: rest' => .ok (.flen2 (b0.extractLsb' 0 2) b1, rest')
      | [] => .error (.truncated .flen)
    else .ok (.flen1 b0, rest)
  | g, [] => .error (.truncated g)

/-- A value written to CTRL: a command, or reserved (R127, R269). -/
def decodeCtrl (v : Byte) : Instr :=
  if v = 0x00#8 then .cmdNop
  else if v = 0x01#8 then .cmdParse
  else if v = 0x02#8 then .cmdClear
  else .cmdReserved v

/-- A register write (R126, R127, R265): a command, IN_LEN, or rejected by name. -/
def decodeRegWrite (index v : Nat) : Except DecodeError Instr :=
  match Reg.ofIndex (BitVec.ofNat 8 index) with
  | none => .error (.reservedIndex index)
  | some .ctrl => if v < 256 then .ok (decodeCtrl (BitVec.ofNat 8 v)) else .error (.dataTooWide v)
  | some .inLen => .ok (.wrInLen v)
  | some r => .error (.readOnlyRegister r)

/-- A Host access to IN_BUF: WB or RB (R126). -/
def decodeBufAccess (a : Access) : Except DecodeError Instr :=
  match a.dir, a.data with
  | 1#1, some v => if v < 256 then .ok (.wb a.index (BitVec.ofNat 8 v)) else .error (.dataTooWide v)
  | 1#1, none => .error .missingData
  | 0#1, none => .ok (.rb a.index)
  | 0#1, some _ => .error .unexpectedData

/-- A Host access to a register: WR or RR (R126). -/
def decodeRegAccess (a : Access) : Except DecodeError Instr :=
  if 256 ≤ a.index then .error (.indexOutsideSpace a.index)
  else
    match a.dir, a.data with
    | 1#1, some v => decodeRegWrite a.index v
    | 1#1, none => .error .missingData
    | 0#1, none => .ok (.rr (BitVec.ofNat 8 a.index))
    | 0#1, some _ => .error .unexpectedData

/-- A Host access (R126). -/
def decodeAccess (a : Access) : Except DecodeError Instr :=
  match a.space with
  | 1#1 => decodeBufAccess a
  | 0#1 => decodeRegAccess a

/-- The instruction an encoded form stands for: a packet field must be used up whole. -/
def decode : Encoded → Except DecodeError Instr
  | .packet f bytes =>
    match decodeField f bytes with
    | .ok (i, []) => .ok i
    | .ok (_, _ :: _) => .error (.trailingBytes f)
    | .error e => .error e
  | .access a => decodeAccess a

/-! ### Encoding -/

/-- The access `WR r, v` of R126. -/
def regWrite (r : Reg) (v : Nat) : Access := { space := 0#1, dir := 1#1, index := r.index, data := some v }

/-- The access `RR r` of R126. -/
def regRead (index : Nat) : Access := { space := 0#1, dir := 0#1, index := index, data := none }

/-- The access `WB a, v` of R126. -/
def byteWrite (a : Nat) (v : Byte) : Access :=
  { space := 1#1, dir := 1#1, index := a, data := some v.toNat }

/-- The access `RB a` of R126. -/
def byteRead (a : Nat) : Access := { space := 1#1, dir := 0#1, index := a, data := none }

/-- The words of an instruction (R112-R116, R121, R126, R127). -/
def encode : Instr → Encoded
  | .toc0 c s => .packet .toc [tocByte c s 0#2]
  | .toc1 c s => .packet .toc [tocByte c s 1#2]
  | .toc2 c s => .packet .toc [tocByte c s 2#2]
  | .toc3 c s => .packet .toc [tocByte c s 3#2]
  | .fchIllegal0 p v => .packet .fch [fchByte p v 0#6]
  | .fchIllegal49 p v => .packet .fch [fchByte p v 49#6]
  | .fchIllegal50 p v x => .packet .fch [fchByte p v (25#5 ++ x)]
  | .fchIllegal52 p v x => .packet .fch [fchByte p v (13#4 ++ x)]
  | .fchIllegal56 p v x => .packet .fch [fchByte p v (7#3 ++ x)]
  | .fchCbr p m => .packet .fch [fchByte p false m]
  | .fchVbr p m => .packet .fch [fchByte p true m]
  | .flen2 a b => .packet .flen [flen2First a, b]
  | .flen1 l => .packet .flen [l]
  | .padCont => .packet .padind [0xFF#8]
  | .padTerm t => .packet .padind [t]
  | .wb a v => .access (byteWrite a v)
  | .rb a => .access (byteRead a)
  | .wrInLen n => .access (regWrite .inLen n)
  | .rr r => .access (regRead r.toNat)
  | .cmdNop => .access (regWrite .ctrl 0x00)
  | .cmdParse => .access (regWrite .ctrl 0x01)
  | .cmdClear => .access (regWrite .ctrl 0x02)
  | .cmdReserved v => .access (regWrite .ctrl v.toNat)

/-! ### The opcode table (R130) -/

/-- One byte row of spec/opcode_table.json: a byte matches when `byte &&& mask = value`. -/
structure OpRow where
  mnemonic : String
  format : Format
  value : Byte
  mask : Byte
  order : Nat
  deriving DecidableEq, Repr

/-- The rows of spec/opcode_table.json that have a byte pattern, in the table's order. The four HOST rows are
tuples and stand in `decodeAccess`. -/
def opRows : List OpRow :=
  [ ⟨"TOC0", .field .toc, 0x00, 0x03, 0⟩, ⟨"TOC1", .field .toc, 0x01, 0x03, 0⟩,
    ⟨"TOC2", .field .toc, 0x02, 0x03, 0⟩, ⟨"TOC3", .field .toc, 0x03, 0x03, 0⟩,
    ⟨"FCH_ILLEGAL", .field .fch, 0x00, 0x3F, 0⟩, ⟨"FCH_ILLEGAL", .field .fch, 0x31, 0x3F, 0⟩,
    ⟨"FCH_ILLEGAL", .field .fch, 0x32, 0x3E, 0⟩, ⟨"FCH_ILLEGAL", .field .fch, 0x34, 0x3C, 0⟩,
    ⟨"FCH_ILLEGAL", .field .fch, 0x38, 0x38, 0⟩,
    ⟨"FCH_CBR", .field .fch, 0x00, 0x40, 1⟩, ⟨"FCH_VBR", .field .fch, 0x40, 0x40, 1⟩,
    ⟨"FLEN2", .field .flen, 0xFC, 0xFC, 0⟩, ⟨"FLEN1", .field .flen, 0x00, 0x00, 1⟩,
    ⟨"PAD_CONT", .field .padind, 0xFF, 0xFF, 0⟩, ⟨"PAD_TERM", .field .padind, 0x00, 0x00, 1⟩,
    ⟨"CMD_NOP", .ctrl, 0x00, 0xFF, 0⟩, ⟨"CMD_PARSE", .ctrl, 0x01, 0xFF, 0⟩,
    ⟨"CMD_CLEAR", .ctrl, 0x02, 0xFF, 0⟩, ⟨"CMD_RESERVED", .ctrl, 0x00, 0x00, 1⟩ ]

/-- Does a byte match a row (R130)? -/
def OpRow.hits (r : OpRow) (b : Byte) : Bool := b &&& r.mask == r.value

/-- The row a byte is read by in a format: the smallest decode_order first (R130). -/
def rowFor (f : Format) (b : Byte) : Option OpRow :=
  let mine := opRows.filter fun r => r.format == f && r.hits b
  (mine.find? (·.order == 0)).or (mine.find? (·.order == 1))

/-- The instruction's mnemonic as spec/opcode_table.json spells it. -/
def Instr.mnemonic : Instr → String
  | .toc0 _ _ => "TOC0"
  | .toc1 _ _ => "TOC1"
  | .toc2 _ _ => "TOC2"
  | .toc3 _ _ => "TOC3"
  | .fchIllegal0 _ _ => "FCH_ILLEGAL"
  | .fchIllegal49 _ _ => "FCH_ILLEGAL"
  | .fchIllegal50 _ _ _ => "FCH_ILLEGAL"
  | .fchIllegal52 _ _ _ => "FCH_ILLEGAL"
  | .fchIllegal56 _ _ _ => "FCH_ILLEGAL"
  | .fchCbr _ _ => "FCH_CBR"
  | .fchVbr _ _ => "FCH_VBR"
  | .flen2 _ _ => "FLEN2"
  | .flen1 _ => "FLEN1"
  | .padCont => "PAD_CONT"
  | .padTerm _ => "PAD_TERM"
  | .wb _ _ => "WB"
  | .rb _ => "RB"
  | .wrInLen _ => "WR_IN_LEN"
  | .rr _ => "RR"
  | .cmdNop => "CMD_NOP"
  | .cmdParse => "CMD_PARSE"
  | .cmdClear => "CMD_CLEAR"
  | .cmdReserved _ => "CMD_RESERVED"

/-! ### One word out of its packet -/

/-- How many bits a row fixes. -/
def OpRow.fixedBits (r : OpRow) : Nat := ((List.range 8).filter fun i => r.mask.getLsbD i).length

/-- The format a byte is read in when no layout says which: that of the matching row with the most fixed bits,
which is decode_order inside one format (log entry 13, DESIGN CHOICE: R130 gives no format to a bare byte). -/
def looseFormat (b : Byte) : Format :=
  ((opRows.filter fun r => r.hits b).foldl
    (fun best r => if best.1 < r.fixedBits + 1 then (r.fixedBits + 1, r.format) else best)
    (0, Format.field .toc)).2

/-- Byte `k` of a word, byte 0 the least significant. -/
def wordByte (w k : Nat) : Byte := BitVec.ofNat 8 (w / 256 ^ k)

/-- The packet bytes of a word read in a format: two for a long frame length, else one. -/
def wordBytes (f : Field) (w : Nat) : List Byte :=
  if f == .flen && flenIsLong (wordByte w 0) then [wordByte w 0, wordByte w 1] else [wordByte w 0]

/-- The instruction the decoder reads from a word of the opcode table, byte 0 first (log entry 13). -/
def decodeTableWord (nbits w : Nat) : Option Instr :=
  if nbits = 0 ∨ 16 < nbits ∨ 2 ^ nbits ≤ w then none
  else
    match looseFormat (wordByte w 0) with
    | .field f =>
      if 256 ^ (wordBytes f w).length ≤ w then none
      else
        match decodeField f (wordBytes f w) with
        | .ok (i, []) => some i
        | _ => none
    | .ctrl => if 256 ≤ w then none else some (decodeCtrl (wordByte w 0))
    | .host => none

end Sys2Proof
end

