-- ==== Sys2Proof/Machine/State.lean ====
section
/-! DEFINITION. The state of one block and of its environment, the reasons a step stops, and the state after reset
(10_state.md R30-R55, 70_reset_and_hazards.md R320). `none` is the spec's NOVALUE (R17, R31, log entry 3). -/

namespace Sys2Proof.Machine

/-- STATE of R38. -/
inductive BlockState where
  /-- 0, no parse result held. -/
  | idle
  /-- 1, a PARSE is accepted and the Parser step has not yet been taken. -/
  | busy
  /-- 2, the last parse succeeded. -/
  | ok
  /-- 3, the last parse failed. -/
  | err
  deriving DecidableEq, Repr

/-- What ERR_KIND holds (R40, R290). -/
inductive ErrKind where
  | none
  | packetTooShort
  | invalidPacket
  | invalidFrameLength
  deriving DecidableEq, Repr

/-- A raised parse error with the information it records (R17, R290, R295). -/
inductive ParseError where
  | packetTooShort (avail : Nat)
  | invalidPacket
  | invalidFrameLength
  deriving DecidableEq, Repr

/-- One frame as a range of IN_BUF (R14). -/
structure Frame where
  off : Nat
  len : Nat
  deriving DecidableEq, Repr

/-- The padding range and its indicator byte count (R45-R47). -/
structure Pad where
  off : Nat
  len : Nat
  ind : Nat
  deriving DecidableEq, Repr

/-- A Parsed Packet: what a successful parse writes to the result registers (R19, R211, R230). -/
structure Parsed where
  toc : Byte
  fch : Byte
  hdr : Nat
  frames : List Frame
  pad : Option Pad
  deriving DecidableEq, Repr

/-- The Parser's working values (R33, R34). They exist only inside the Parser step (R30). -/
structure Work where
  /-- The format of the packet field at the cursor, which the layout fixes (R111, R130). -/
  field : Field
  /-- `cur`, the parse cursor (R33). -/
  cur : Nat
  /-- The TOC byte once read. -/
  toc : Byte
  /-- The value for the FCH register once known (R43). -/
  fch : Byte
  /-- k, the padding-chain byte counter (R190). -/
  padBytes : Nat
  /-- P, the running padding-data length (R190). -/
  padSum : Nat
  /-- The explicit frame lengths decoded so far, in frame order (R34). -/
  lens : List Nat
  deriving DecidableEq, Repr

/-- What the environment does next (R9, R10, R320). -/
inductive Event where
  /-- The Host performs an access. -/
  | access (a : Access)
  /-- The schedule gives the Parser a turn. -/
  | parser
  /-- The platform applies reset. -/
  | reset
  deriving DecidableEq, Repr

/-- IN_BUF as (address, byte) pairs with addresses strictly rising. An unlisted address holds NOVALUE (R31). -/
abbrev Memory := List Host.Cell

/-- A file of 48 slots (R13, R48-R50). -/
abbrev Slots (α : Type) := Vector (Option α) maxFrames

/-- A slot file in which every slot holds NOVALUE. -/
def noSlots (α : Type) : Slots α := Vector.replicate maxFrames none

/-- The machine. Every field's rule and reset value stand in INVENTORY.md. -/
structure State where
  /-- The parameters PKT_CAP and LEN_W (R11, R12), constant (log entry 1). -/
  config : Config
  /-- IN_BUF (R80). -/
  inBuf : Memory
  /-- STATUS[1:0] (R38). -/
  status : BlockState
  /-- IN_LEN (R39). -/
  inLen : Option Nat
  /-- ERR_KIND (R40). -/
  errKind : Option ErrKind
  /-- ERR_AVAIL (R41). -/
  errAvail : Option Nat
  /-- TOC (R42). -/
  toc : Option Byte
  /-- FCH (R43). -/
  fch : Option Byte
  /-- HDR_BYTES (R44). -/
  hdrBytes : Option Nat
  /-- PAD_OFF (R45). -/
  padOff : Option Nat
  /-- PAD_LEN (R46). -/
  padLen : Option Nat
  /-- PAD_IND (R47). -/
  padInd : Option Nat
  /-- FRAME_OFF[i] (R48). -/
  frameOff : Slots Nat
  /-- FRAME_LEN[i] (R49). -/
  frameLen : Slots Nat
  /-- FRAME_SIL[i] (R50). -/
  frameSil : Slots Byte
  /-- The Parser's working values; `none` between steps (R30). -/
  work : Option Work
  /-- The schedule, next event first (R9, R91, log entry 5). The model's own field. -/
  pending : List Event
  /-- What the Host's last read returned (R262, R264, log entry 7). The model's own field. -/
  hostData : Option Nat
  deriving DecidableEq, Repr

/-- A location the Host can read. -/
inductive Loc where
  | reg (r : Reg)
  | byte (a : Nat)
  deriving DecidableEq, Repr

/-- Why the machine stops with a model fault (R18, R301). A faulted run proves nothing about the block. -/
inductive Fault where
  /-- ReadNoValue: RR or RB of a location holding NOVALUE. The spec states this stop and forbids a value in its place
  (R31, R262, R264, R301; 92_eei_decisions.md D19, 93_implementation_defined.md M1). Safe: no value is supplied. -/
  | readNoValue (l : Loc)
  /-- UnwrittenByte (R31, R210): the Parser read a byte the Host never wrote. Safe: no value is supplied. -/
  | unwrittenByte (a : Nat)
  /-- The Parser's turn in a BUSY block without IN_LEN. No run reaches it (R267). Safe (log entry 14). -/
  | busyWithoutLength
  /-- The Parser read more fields than the packet has bytes. It cannot occur (R197, R239). Safe (log entry 14). -/
  | parserOverrun
  deriving DecidableEq, Repr

/-- Why a step is refused (R18, R260). A refusal is safe: the machine stops, and no state changes. -/
inductive Refusal where
  /-- The instruction has no meaning in this model yet. -/
  | notModelled (mnemonic : String)
  /-- The access is no instruction: a read-only or reserved register is written (R51, R52, R265), or the tuple is
  malformed. Raised by `step`. -/
  | undecodable (e : DecodeError)
  /-- WB or RB at an address at or above PKT_CAP (R261, R262, M7). -/
  | addressOutOfRange (a : Nat)
  /-- WR IN_LEN above PKT_CAP (R263, M7). -/
  | lengthOutOfRange (n : Nat)
  /-- WB, WR IN_LEN, PARSE or CLEAR while BUSY (R261, R263, R267, R268, M3). -/
  | blockBusy
  /-- PARSE before any IN_LEN write since reset (R267, M8). -/
  | lengthNeverWritten
  /-- RR of a reserved index (R51, R264, M4). -/
  | reservedIndex (r : BitVec 8)
  /-- A reserved CTRL value (R269, M6). -/
  | reservedCommand (v : Byte)
  /-- A packet field executed where the layout has no such field (R111, R130, log entry 10). `step` never does so. -/
  | formOutOfPlace
  deriving DecidableEq, Repr

/-- The state after reset for given parameters (R55, R320). -/
def State.resetWith (c : Config) : State :=
  { config := c
    inBuf := []
    status := .idle
    inLen := none
    errKind := none
    errAvail := none
    toc := none
    fch := none
    hdrBytes := none
    padOff := none
    padLen := none
    padInd := none
    frameOff := noSlots Nat
    frameLen := noSlots Nat
    frameSil := noSlots Byte
    work := none
    pending := []
    hostData := none }

/-- The machine right after reset (R55), with the parameters of `Config.chosen` (log entry 1). -/
def State.reset : State := State.resetWith Config.chosen

end Sys2Proof.Machine
end

