-- ==== Sys2Proof/Machine/Flags.lean ====
section
/-! DEFINITION. The flags of 10_state.md R53 as the values their registers read as: STATE (R38), the error code
(R40, R290), the is-silence flag (R50, R228). The channel, VBR and padding flags are bits of TOC and FCH
(Sys2Proof/Decode.lean). -/

namespace Sys2Proof.Machine

/-- What STATUS reads as: STATE in bits 1:0, bits 7:2 zero (R38). -/
def statusByte : BlockState → Byte
  | .idle => 0x00#8
  | .busy => 0x01#8
  | .ok => 0x02#8
  | .err => 0x03#8

/-- What ERR_KIND reads as: the code in bits 1:0, bits 7:2 zero (R40, R290). -/
def errKindByte : ErrKind → Byte
  | .none => 0x00#8
  | .packetTooShort => 0x01#8
  | .invalidPacket => 0x02#8
  | .invalidFrameLength => 0x03#8

/-- The kind of a raised error (R290). -/
def ParseError.kind : ParseError → ErrKind
  | .packetTooShort _ => .packetTooShort
  | .invalidPacket => .invalidPacket
  | .invalidFrameLength => .invalidFrameLength

/-- What ERR_AVAIL records of a raised error: a value only for PacketTooShort (R41, R295). -/
def ParseError.avail : ParseError → Option Nat
  | .packetTooShort a => some a
  | .invalidPacket => none
  | .invalidFrameLength => none

/-- The silence-frame detector: bit 0 is 1 exactly when the length is 0 (R50, R228). -/
def silByte (len : Nat) : Byte := if len = 0 then 0x01#8 else 0x00#8

end Sys2Proof.Machine
end

