-- ==== Sys2Proof/Machine/Ops.lean ====
section
/-! DEFINITION. The named operations over memory and registers: reading and writing IN_BUF (20_memory.md R80, R88),
clearing the results (44_host_commands.md R261, R267, R268), the result writes of a parse (43_assembler.md R230),
ERROR ENTRY (R231, 60_exceptions.md R299) as one operation, and reset (70_reset_and_hazards.md R320). There is no
return from an error to model beside it: R300 restores nothing. -/

namespace Sys2Proof.Machine

/-! ### IN_BUF -/

/-- The byte at an address, `none` when it holds NOVALUE (R31). -/
def memRead : Memory → Nat → Option Byte
  | [], _ => none
  | (b, v) :: rest, a => if b = a then some v else memRead rest a

/-- Write one byte, keeping the addresses strictly rising. -/
def memWrite : Memory → Nat → Byte → Memory
  | [], a, v => [(a, v)]
  | (b, w) :: rest, a, v =>
    if a < b then (a, v) :: (b, w) :: rest
    else if a = b then (a, v) :: rest
    else (b, w) :: memWrite rest a v

/-- Every address of a memory is at or above a bound and they strictly rise. -/
def memRises : Nat → Memory → Bool
  | _, [] => true
  | lo, (a, _) :: rest => decide (lo ≤ a) && memRises (a + 1) rest

/-- The canonical form: addresses strictly rise. No entry can equal what an unlisted address holds, since that is
no value. -/
def memWf (m : Memory) : Bool := memRises 0 m

/-- Every listed address lies in the packet buffer (R80). -/
def memBelow (cap : Nat) (m : Memory) : Bool := m.all fun c => decide (c.1 < cap)

/-- Write bytes at consecutive addresses. -/
def memWriteAll : Memory → Nat → List Byte → Memory
  | m, _, [] => m
  | m, a, v :: rest => memWriteAll (memWrite m a v) (a + 1) rest

/-! ### Registers -/

/-- Every result and error register holds NOVALUE, as in states IDLE and BUSY (R54). -/
def clearResults (s : State) : State :=
  { s with
    errKind := none, errAvail := none, toc := none, fch := none, hdrBytes := none
    padOff := none, padLen := none, padInd := none
    frameOff := noSlots Nat, frameLen := noSlots Nat, frameSil := noSlots Byte }

/-- What a write to IN_BUF or IN_LEN does besides: from OK or ERR the block returns to IDLE with its results
cleared (R88, R261, R263). -/
def packetChanged (s : State) : State :=
  match s.status with
  | .ok => { clearResults s with status := .idle }
  | .err => { clearResults s with status := .idle }
  | .idle => s
  | .busy => s

/-- The slot file a frame list fills: slot i for i < M, NOVALUE above (R230). -/
def slotsOf {α : Type} (frames : List Frame) (f : Frame → α) : Slots α :=
  Vector.ofFn fun i => (frames[i.val]?).map f

/-- The result writes of a successful parse, with STATE <- OK (R210, R230). -/
def recordOk (p : Parsed) (s : State) : State :=
  { s with
    status := .ok, work := none
    toc := some p.toc, fch := some p.fch, hdrBytes := some p.hdr
    frameOff := slotsOf p.frames Frame.off
    frameLen := slotsOf p.frames Frame.len
    frameSil := slotsOf p.frames fun f => silByte f.len
    padOff := p.pad.map Pad.off, padLen := p.pad.map Pad.len, padInd := p.pad.map Pad.ind
    errKind := some .none, errAvail := none }

/-- Error entry: ERR_KIND and ERR_AVAIL recorded, every result register NOVALUE, STATE <- ERR (R231, R299). -/
def recordError (e : ParseError) (s : State) : State :=
  { clearResults s with
    status := .err, work := none, errKind := some e.kind, errAvail := e.avail }

/-- Reset: every piece of the block's state takes its reset value, and a parse in progress is abandoned (R55, R320).
The parameters, the events still to come and what the Host has read are no state of the block (log entry 8). -/
def applyReset (s : State) : State :=
  { State.resetWith s.config with pending := s.pending, hostData := s.hostData }

/-- The value a Host read returns (R262, R264). -/
def returnToHost (v : Nat) (s : State) : State := { s with hostData := some v }

/-! ### Working values of the Parser -/

/-- The working values at the start of the Parser step: the cursor at the TOC byte (R33). The bytes are
placeholders that nothing reads before they are set. -/
def Work.start : Work :=
  { field := .toc, cur := 0, toc := 0#8, fch := 0#8, padBytes := 0, padSum := 0, lens := [] }

/-- `end`, one past the last byte of the frame-data region: N - P (R34, R218). -/
def Work.dataEnd (n : Nat) (w : Work) : Nat := n - w.padSum

/-- One past the last byte the field at the cursor may use: N - P for a frame-length field (R150), else N (R33). -/
def Work.bound (n : Nat) (w : Work) : Nat :=
  match w.field with
  | .flen => w.dataEnd n
  | .toc => n
  | .fch => n
  | .padind => n

/-- What PacketTooShort records when the field at the cursor has no byte (R295): N - 2 for the padding chain
(R193), 0 for the TOC byte (R211), the header (R175) and a frame length (R153). -/
def Work.missing (n : Nat) (w : Work) : Nat :=
  match w.field with
  | .padind => n - 2
  | .toc => 0
  | .fch => 0
  | .flen => 0

/-- Put a packet in IN_BUF from address 0, set IN_LEN and accept a PARSE, with the Parser's turn next: what a Host
program does by WB, WR IN_LEN and PARSE (R322), in one piece. Used by `withFetchWord` and by tests only. -/
def placePacket (bytes : List Byte) (s : State) : State :=
  { clearResults s with
    inBuf := memWriteAll s.inBuf 0 bytes, inLen := some bytes.length, status := .busy, work := none
    pending := .parser :: s.pending }

end Sys2Proof.Machine
end

