-- ==== Sys2Proof/Machine/Operands.lean ====
section
/-! DEFINITION. The operand forms: a register read by its name (44_host_commands.md R264), the bytes of the packet
field at the cursor with the checks made before each read (10_state.md R33, 40_frame_length.md R150), and the test
that a packet field stands where the layout has one (30_encoding.md R111, R130). -/

namespace Sys2Proof.Machine

/-- What a register reads as, `none` when it holds NOVALUE. CTRL reads as 0 (R37). -/
def readReg (s : State) : Reg → Option Nat
  | .ctrl => some 0
  | .status => some (statusByte s.status).toNat
  | .inLen => s.inLen
  | .errKind => s.errKind.map fun k => (errKindByte k).toNat
  | .errAvail => s.errAvail
  | .toc => s.toc.map BitVec.toNat
  | .fch => s.fch.map BitVec.toNat
  | .hdrBytes => s.hdrBytes
  | .padOff => s.padOff
  | .padLen => s.padLen
  | .padInd => s.padInd
  | .frameOff i => s.frameOff[i]
  | .frameLen i => s.frameLen[i]
  | .frameSil i => s.frameSil[i].map BitVec.toNat

/-- What reading the packet field at the cursor comes to. -/
inductive Fetched where
  /-- The field's bytes. -/
  | bytes (l : List Byte)
  /-- A check before a read failed: the parse ends with this error. -/
  | raise (e : ParseError)
  /-- The byte at this address was never written. -/
  | unwritten (a : Nat)
  deriving DecidableEq, Repr

/-- The second byte of a two-byte frame length, or InvalidFrameLength when the region ends before it (R154). -/
def fetchSecond (m : Memory) (n : Nat) (w : Work) (b0 : Byte) : Fetched :=
  if w.bound n ≤ w.cur + 1 then .raise .invalidFrameLength
  else
    match memRead m (w.cur + 1) with
    | none => .unwritten (w.cur + 1)
    | some b1 => .bytes [b0, b1]

/-- The bytes of the packet field at the cursor. Every read is preceded by its check against the field's bound
(R33, R150, R155), and only a long frame length reads a second byte (R118, R151). -/
def fetchField (m : Memory) (n : Nat) (w : Work) : Fetched :=
  if w.bound n ≤ w.cur then .raise (.packetTooShort (w.missing n))
  else
    match memRead m w.cur with
    | none => .unwritten w.cur
    | some b0 =>
      if w.field = .flen ∧ flenIsLong b0 = true then fetchSecond m n w b0 else .bytes [b0]

/-- Run a packet field's meaning on N and the working values, when the block is inside its Parser step with this
field at the cursor. Anywhere else the layout has no such field (log entry 10). -/
def inPlace (f : Field) (s : State) (k : Nat → Work → Host.Outcome State Fault Refusal) :
    Host.Outcome State Fault Refusal :=
  match s.status, s.inLen, s.work with
  | .busy, some n, some w => if w.field = f then k n w else .refused .formOutOfPlace
  | _, _, _ => .refused .formOutOfPlace

/-- Go on inside the Parser step with these working values. -/
def goOn (w : Work) (s : State) : Host.Outcome State Fault Refusal := .next { s with work := some w }

/-- End the parse with an error (R17, R231). -/
def raise (e : ParseError) (s : State) : Host.Outcome State Fault Refusal := .next (recordError e s)

end Sys2Proof.Machine
end

