-- ==== Sys2Proof/Machine/Split.lean ====
section
/-! DEFINITION. The frame boundary locator as operations the packet fields share: the equal split (43_assembler.md
R223), the layout of explicit lengths (R224-R226), and the end of a successful parse (R218, R230). Every subtraction
is one the spec's rules guard (R16, R220). -/

namespace Sys2Proof.Machine

/-- What a parse yields once its frames are known: HDR_BYTES is the cursor's final value (R33), the padding is the
last P bytes and is present exactly when FCH[7] is set (R195, R198, R218). -/
def parsedOf (n : Nat) (w : Work) (frames : List Frame) : Parsed :=
  { toc := w.toc
    fch := w.fch
    hdr := w.cur
    frames := frames
    pad := if fchPadFlag w.fch then some { off := n - w.padSum, len := w.padSum, ind := w.padBytes } else none }

/-- End the parse with these frames. -/
def finish (n : Nat) (w : Work) (frames : List Frame) (s : State) : Host.Outcome State Fault Refusal :=
  .next (recordOk (parsedOf n w frames) s)

/-- M frames of S bytes each from an offset on (R223). -/
def cbrFrames (m pos size : Nat) : List Frame :=
  (List.range m).map fun i => { off := pos + i * size, len := size }

/-- The CBR split of the frame-data region (R222, R223). -/
def cbrSplit (n : Nat) (w : Work) (s : State) : Host.Outcome State Fault Refusal :=
  let m := (fchCount w.fch).toNat
  let d := w.dataEnd n - w.cur
  if d % m ≠ 0 then raise .invalidPacket s
  else finish n w (cbrFrames m w.cur (d / m)) s

/-- Lay out frames with explicit lengths in order, the last one taking what remains. The failure carries the bytes
that remained at the first length that does not fit (R224-R226). -/
def vbrLayout : Nat → Nat → List Nat → Except Nat (List Frame)
  | off, rem, [] => .ok [{ off := off, len := rem }]
  | off, rem, l :: rest =>
    if rem < l then .error rem
    else
      match vbrLayout (off + l) (rem - l) rest with
      | .ok frames => .ok ({ off := off, len := l } :: frames)
      | .error e => .error e

/-- Lay out the frames once every explicit length is known (R224). -/
def vbrSplit (n : Nat) (w : Work) (s : State) : Host.Outcome State Fault Refusal :=
  match vbrLayout w.cur (w.dataEnd n - w.cur) w.lens with
  | .ok frames => finish n w frames s
  | .error rem => raise (.packetTooShort rem) s

/-- While fewer than M - 1 lengths are known, another frame-length field follows. Then the layout (R224, R227). -/
def vbrNext (n : Nat) (w : Work) (s : State) : Host.Outcome State Fault Refusal :=
  if w.lens.length + 1 < (fchCount w.fch).toNat then goOn { w with field := .flen } s
  else vbrSplit n w s

/-- The cursor is at the start of the frame-data region: the VBR flag selects the split (R221). -/
def splitRegion (n : Nat) (w : Work) (s : State) : Host.Outcome State Fault Refusal :=
  if fchVbrFlag w.fch then vbrNext n w s else cbrSplit n w s

/-- After a legal frame-count header: the padding chain first when the padding flag is set, else the split (R219). -/
def afterHeader (n : Nat) (w : Work) (s : State) : Host.Outcome State Fault Refusal :=
  if fchPadFlag w.fch then goOn { w with field := .padind } s else splitRegion n w s

/-- The first frame's length of a code-2 packet is known: two frames, the second taking the rest (R216, R217). -/
def code2Split (n : Nat) (w : Work) (l0 : Nat) (s : State) : Host.Outcome State Fault Refusal :=
  let r := n - w.cur
  if r < l0 then raise (.packetTooShort r) s
  else finish n w [{ off := w.cur, len := l0 }, { off := w.cur + l0, len := r - l0 }] s

end Sys2Proof.Machine
end

