-- ==== Sys2Proof/Machine/Assembler.lean ====
section
/-! DEFINITION. The Packet Assembler's four forms of the TOC byte (43_assembler.md R211-R218, 41_toc_header.md R170). That the
packet has a TOC byte at all is checked before the read, in `fetchField` (R211). -/

namespace Sys2Proof.Machine

/-- The cursor passes the TOC byte at offset 0, which the TOC register will hold unchanged (R33, R42, R110). For codes 0 to 2 the
value for the FCH register is the frame count with both flags 0 (R43). -/
def Work.passToc (w : Work) (toc : Byte) (count : BitVec 6) : Work :=
  { w with cur := 1, toc := toc, fch := fchByte false false count }

/-- TOC0: the whole remainder is one frame (R212). -/
def execToc0 (config : BitVec 5) (stereo : Bool) (s : State) : Host.Outcome State Fault Refusal :=
  inPlace .toc s fun n w =>
    finish n (w.passToc (tocByte config stereo 0#2) 1#6) [{ off := 1, len := n - 1 }] s

/-- TOC1: two equal frames. The length check comes before the parity check (R213-R215). -/
def execToc1 (config : BitVec 5) (stereo : Bool) (s : State) : Host.Outcome State Fault Refusal :=
  inPlace .toc s fun n w =>
    let r := n - 1
    if r < 2 then raise (.packetTooShort r) s
    else if r % 2 = 1 then raise .invalidPacket s
    else
      finish n (w.passToc (tocByte config stereo 1#2) 2#6)
        [{ off := 1, len := r / 2 }, { off := 1 + r / 2, len := r / 2 }] s

/-- TOC2: the frame-length field of the first frame follows (R216). -/
def execToc2 (config : BitVec 5) (stereo : Bool) (s : State) : Host.Outcome State Fault Refusal :=
  inPlace .toc s fun _ w =>
    goOn { w.passToc (tocByte config stereo 2#2) 2#6 with field := .flen } s

/-- TOC3: PacketTooShort(0) when there is no frame-count header (R175, R218), else the header follows. -/
def execToc3 (config : BitVec 5) (stereo : Bool) (s : State) : Host.Outcome State Fault Refusal :=
  inPlace .toc s fun n w =>
    if n < 2 then raise (.packetTooShort 0) s
    else goOn { w.passToc (tocByte config stereo 3#2) 0#6 with field := .fch } s

end Sys2Proof.Machine
end

