-- ==== Sys2Proof/Machine/FrameLength.lean ====
section
/-! DEFINITION. The Frame-Length Codec (40_frame_length.md): FLEN1 and FLEN2. The checks that a byte exists stand
before the read, in `fetchField` (R153, R154). -/

namespace Sys2Proof.Machine

/-- Take a decoded frame length and the bytes it consumed (R150): code 2 has its one length and splits (R216),
a code-3 VBR packet collects its M - 1 lengths (R224). -/
def takeLength (len consumed : Nat) (s : State) : Host.Outcome State Fault Refusal :=
  inPlace .flen s fun n w =>
    let w' := { w with cur := w.cur + consumed, lens := w.lens ++ [len] }
    if tocCode w.toc = 2#2 then code2Split n w' len s else vbrNext n w' s

/-- FLEN1: the length is the byte, one byte consumed (R151). -/
def execFlen1 (l : Byte) (s : State) : Host.Outcome State Fault Refusal := takeLength l.toNat 1 s

/-- The value of a FLEN2 pair, 252 + A + 4 * B, which is b0 + 4 * b1 (R115, R117, R152).
PRESUMED, unsafe: the spec marks the formula as general knowledge (GK2, log entry 12). -/
def flen2Value (a : BitVec 2) (b : Byte) : Nat := 252 + a.toNat + 4 * b.toNat

/-- FLEN2: two bytes consumed (R152). -/
def execFlen2 (a : BitVec 2) (b : Byte) (s : State) : Host.Outcome State Fault Refusal :=
  takeLength (flen2Value a b) 2 s

end Sys2Proof.Machine
end

