-- ==== Sys2Proof/Machine/Header.lean ====
section
/-! DEFINITION. The frame-count header of a code-3 packet (41_toc_header.md R173-R176): the illegal counts, and the
two forms FCH_CBR and FCH_VBR (43_assembler.md R219, R221, R223, R224). -/

namespace Sys2Proof.Machine

/-- An illegal count fails the parse with InvalidPacket, whatever the flags and the following bytes (R174). -/
def illegalCount (s : State) : Host.Outcome State Fault Refusal :=
  inPlace .fch s fun _ _ => raise .invalidPacket s

/-- FCH_ILLEGAL, count 0 (R174). -/
def execFchIllegal0 (_padf _vbr : Bool) (s : State) : Host.Outcome State Fault Refusal := illegalCount s

/-- FCH_ILLEGAL, count 49 (R174). -/
def execFchIllegal49 (_padf _vbr : Bool) (s : State) : Host.Outcome State Fault Refusal := illegalCount s

/-- FCH_ILLEGAL, counts 50 and 51 (R174). -/
def execFchIllegal50 (_padf _vbr : Bool) (_x : BitVec 1) (s : State) : Host.Outcome State Fault Refusal :=
  illegalCount s

/-- FCH_ILLEGAL, counts 52 to 55 (R174). -/
def execFchIllegal52 (_padf _vbr : Bool) (_x : BitVec 2) (s : State) : Host.Outcome State Fault Refusal :=
  illegalCount s

/-- FCH_ILLEGAL, counts 56 to 63 (R174). -/
def execFchIllegal56 (_padf _vbr : Bool) (_x : BitVec 3) (s : State) : Host.Outcome State Fault Refusal :=
  illegalCount s

/-- The cursor passes the header byte at offset 1, which the FCH register will hold unchanged (R33, R43, R89). -/
def Work.passHeader (w : Work) (fch : Byte) : Work := { w with cur := 2, fch := fch }

/-- A legal header: the padding chain when the padding flag is set, then the split (R176, R218, R219). -/
def legalHeader (fch : Byte) (s : State) : Host.Outcome State Fault Refusal :=
  inPlace .fch s fun n w => afterHeader n (w.passHeader fch) s

/-- FCH_CBR: M equal frames (R219, R223). -/
def execFchCbr (padf : Bool) (m : BitVec 6) (s : State) : Host.Outcome State Fault Refusal :=
  legalHeader (fchByte padf false m) s

/-- FCH_VBR: M frames, the first M - 1 with explicit lengths (R219, R224). -/
def execFchVbr (padf : Bool) (m : BitVec 6) (s : State) : Host.Outcome State Fault Refusal :=
  legalHeader (fchByte padf true m) s

end Sys2Proof.Machine
end

