-- ==== Sys2Proof/Machine/HostAccess.lean ====
section
/-! DEFINITION. The Host accesses and commands (44_host_commands.md R260-R269). A refused access changes no state
(R260). -/

namespace Sys2Proof.Machine

/-- WB a, v: write one byte of the packet buffer (R261). -/
def execWb (a : Nat) (v : Byte) (s : State) : Host.Outcome State Fault Refusal :=
  if s.config.pktCap ≤ a then .refused (.addressOutOfRange a)
  else if s.status = .busy then .refused .blockBusy
  else .next (packetChanged { s with inBuf := memWrite s.inBuf a v })

/-- RB a: read one byte of the packet buffer, in every state. The fault is the pseudocode's own line (R262, R31). -/
def execRb (a : Nat) (s : State) : Host.Outcome State Fault Refusal :=
  if s.config.pktCap ≤ a then .refused (.addressOutOfRange a)
  else
    match memRead s.inBuf a with
    | none => .fault (.readNoValue (.byte a))
    | some v => .next (returnToHost v.toNat s)

/-- WR IN_LEN, n: set the packet length (R263). -/
def execWrInLen (n : Nat) (s : State) : Host.Outcome State Fault Refusal :=
  if s.config.pktCap < n then .refused (.lengthOutOfRange n)
  else if s.status = .busy then .refused .blockBusy
  else .next (packetChanged { s with inLen := some n })

/-- RR r: read a register, without side effect on the block (R264, R88). The fault is the pseudocode's own line (R264,
R31). -/
def execRr (r : BitVec 8) (s : State) : Host.Outcome State Fault Refusal :=
  match Reg.ofIndex r with
  | none => .refused (.reservedIndex r)
  | some reg =>
    match readReg s reg with
    | none => .fault (.readNoValue (.reg reg))
    | some v => .next (returnToHost v s)

/-- NOP: no effect, accepted in every state (R266). -/
def execCmdNop (s : State) : Host.Outcome State Fault Refusal := .next s

/-- PARSE: start the parse of IN_BUF[0..IN_LEN-1] (R267). -/
def execCmdParse (s : State) : Host.Outcome State Fault Refusal :=
  if s.status = .busy then .refused .blockBusy
  else
    match s.inLen with
    | none => .refused .lengthNeverWritten
    | some _ => .next { clearResults s with status := .busy }

/-- CLEAR: drop the result, keeping IN_BUF and IN_LEN (R268). -/
def execCmdClear (s : State) : Host.Outcome State Fault Refusal :=
  if s.status = .busy then .refused .blockBusy
  else .next { clearResults s with status := .idle }

/-- A reserved CTRL value is refused in every state (R269). -/
def execCmdReserved (v : Byte) (_s : State) : Host.Outcome State Fault Refusal := .refused (.reservedCommand v)

end Sys2Proof.Machine
end

