-- ==== Sys2Proof/Machine/Padding.lean ====
section
/-! DEFINITION. The Padding Extractor (42_padding.md): PAD_CONT and PAD_TERM. A chain that the packet's end cuts off
is found before the read, in `fetchField` (R193). -/

namespace Sys2Proof.Machine

/-- One indicator byte consumed, adding to the running padding-data length (R190). -/
def Work.addPadding (w : Work) (p : Nat) : Work :=
  { w with cur := w.cur + 1, padBytes := w.padBytes + 1, padSum := w.padSum + p }

/-- PAD_CONT: 254 more padding bytes, and another indicator byte follows (R191). -/
def execPadCont (s : State) : Host.Outcome State Fault Refusal :=
  inPlace .padind s fun _ w => goOn (w.addPadding 254) s

/-- PAD_TERM: the chain ends. PacketTooShort(N - 2) when the chain and its padding do not fit (R192, R194), else the
frame-data region is split (R195, R219). -/
def execPadTerm (t : Byte) (s : State) : Host.Outcome State Fault Refusal :=
  inPlace .padind s fun n w =>
    let w' := w.addPadding t.toNat
    if n - 2 < w'.padBytes + w'.padSum then raise (.packetTooShort (n - 2)) s else splitRegion n w' s

end Sys2Proof.Machine
end

