-- ==== Sys2Proof/Machine/Dispatch.lean ====
section
/-! DEFINITION. One arm per instruction, each the call of its meaning. -/

namespace Sys2Proof.Machine

def exec (i : Instr) (s : State) : Host.Outcome State Fault Refusal :=
  match i with
  | .toc0 config stereo => Sys2Proof.Machine.execToc0 config stereo s
  | .toc1 config stereo => Sys2Proof.Machine.execToc1 config stereo s
  | .toc2 config stereo => Sys2Proof.Machine.execToc2 config stereo s
  | .toc3 config stereo => Sys2Proof.Machine.execToc3 config stereo s
  | .fchIllegal0 padf vbr => Sys2Proof.Machine.execFchIllegal0 padf vbr s
  | .fchIllegal49 padf vbr => Sys2Proof.Machine.execFchIllegal49 padf vbr s
  | .fchIllegal50 padf vbr x => Sys2Proof.Machine.execFchIllegal50 padf vbr x s
  | .fchIllegal52 padf vbr x => Sys2Proof.Machine.execFchIllegal52 padf vbr x s
  | .fchIllegal56 padf vbr x => Sys2Proof.Machine.execFchIllegal56 padf vbr x s
  | .fchCbr padf m => Sys2Proof.Machine.execFchCbr padf m s
  | .fchVbr padf m => Sys2Proof.Machine.execFchVbr padf m s
  | .flen2 a b => Sys2Proof.Machine.execFlen2 a b s
  | .flen1 l => Sys2Proof.Machine.execFlen1 l s
  | .padCont => Sys2Proof.Machine.execPadCont s
  | .padTerm t => Sys2Proof.Machine.execPadTerm t s
  | .wb a v => Sys2Proof.Machine.execWb a v s
  | .rb a => Sys2Proof.Machine.execRb a s
  | .wrInLen n => Sys2Proof.Machine.execWrInLen n s
  | .rr r => Sys2Proof.Machine.execRr r s
  | .cmdNop => Sys2Proof.Machine.execCmdNop s
  | .cmdParse => Sys2Proof.Machine.execCmdParse s
  | .cmdClear => Sys2Proof.Machine.execCmdClear s
  | .cmdReserved v => Sys2Proof.Machine.execCmdReserved v s

end Sys2Proof.Machine
end

