-- ==== Sys2Proof/Machine/Parser.lean ====
section
/-! DEFINITION. The Parser step (43_assembler.md R210) and the Host's step. The Parser runs the fields of the packet
one after another from the cursor (10_state.md R33), each one fetched, decoded in the format the layout gives it
(30_encoding.md R111, R130) and executed, and all of it is ONE step of the machine: the working values do not exist
between steps (R30, R88, log entry 9). -/

namespace Sys2Proof.Machine

/-- One field of the packet inside the Parser step: fetch the bytes at the cursor, decode them, execute. A failed
check before a read is error entry (R231), a byte nobody wrote is the fault UnwrittenByte (R210). -/
def parseField (s : State) : Host.Outcome State Fault Refusal :=
  match s.inLen, s.work with
  | some n, some w =>
    match fetchField s.inBuf n w with
    | .raise e => raise e s
    | .unwritten a => .fault (.unwrittenByte a)
    | .bytes l =>
      match decode (.packet w.field l) with
      | .ok i => exec i s
      | .error e => .refused (.undecodable e)
  | none, _ => .fault .busyWithoutLength
  | some _, none => .refused .formOutOfPlace

/-- Run fields until the parse has ended, at most `fuel` of them. -/
def parseFields : Nat → State → Host.Outcome State Fault Refusal
  | 0, _ => .fault .parserOverrun
  | fuel + 1, s =>
    match parseField s with
    | .next s' =>
      match s'.work with
      | none => .next s'
      | some _ => parseFields fuel s'
    | .fault r => .fault r
    | .refused r => .refused r

/-- The Parser step (R210), enabled in a BUSY block. A packet of N bytes has at most N fields, and one more turn may
find that a field is missing (R239). -/
def parserStep (s : State) : Host.Outcome State Fault Refusal :=
  match s.inLen with
  | none => .fault .busyWithoutLength
  | some n => parseFields (n + 1) { s with work := some Work.start }

/-- The Parser's turn: its step when it is enabled, else nothing (R210, log entry 6). -/
def parserTurn (s : State) : Host.Outcome State Fault Refusal :=
  if s.status = .busy then parserStep s else .next s

/-- A Host access: decode the tuple and execute (R126, R260). -/
def hostAccess (a : Access) (s : State) : Host.Outcome State Fault Refusal :=
  match decode (.access a) with
  | .ok i => exec i s
  | .error e => .refused (.undecodable e)

/-- One event of the schedule. -/
def runEvent : Event → State → Host.Outcome State Fault Refusal
  | .access a, s => hostAccess a s
  | .parser, s => parserTurn s
  | .reset, s => .next (applyReset s)

/-- One step: the next event of the schedule, taken off it. With no event left, a BUSY block takes its Parser step
(weak fairness, R10) and any other block waits (R308, R321; log entries 5 and 6). -/
def nextStep (s : State) : Host.Outcome State Fault Refusal :=
  match s.pending with
  | [] => parserTurn s
  | e :: rest => runEvent e { s with pending := rest }

/-- Place one word of the opcode table so that the next step runs it (log entry 13): a packet field behind the
shortest packet that leads to it with the Parser's turn next, a CTRL value as the Host's next access. -/
def placeWord (w : Nat) (s : State) : State :=
  match looseFormat (wordByte w 0) with
  | .field .toc => placePacket (wordBytes .toc w) s
  | .field .fch => placePacket (0x03 :: wordBytes .fch w) s
  | .field .flen => placePacket (0x02 :: wordBytes .flen w) s
  | .field .padind => placePacket (0x03 :: 0x81 :: wordBytes .padind w) s
  | .ctrl => { s with pending := .access (regWrite .ctrl (wordByte w 0).toNat) :: s.pending }
  | .host => s

end Sys2Proof.Machine
end

