-- ==== Sys2Proof/Machine/Step.lean ====
section
/-! DEFINITION. The machine's step and the host's way to place one instruction before it. Both only call operations
of Sys2Proof/Machine/Parser.lean. -/

namespace Sys2Proof.Machine

/-- One step of the machine: one Host access, one Parser step or one reset (00_scope.md R9, R10, R18). -/
def step (s : State) : Host.Outcome State Fault Refusal := nextStep s

/-- The state with one word of the opcode table placed where the next step runs it (log entry 13). -/
def State.withFetchWord (s : State) (_nbits w : Nat) : State := placeWord w s

end Sys2Proof.Machine
end

