-- ==== Sys2Proof/Machine/Program.lean ====
section
/-! DEFINITION. The Host's pseudo-instructions as the accesses they expand to (30_encoding.md R129) and the text of an
access (R128). They are programs of the Host, put in `State.pending`, and no instructions of the block. -/

namespace Sys2Proof.Machine

/-- NOP = WR CTRL, 0x00 (R129). -/
def pseudoNop : Access := regWrite .ctrl 0x00

/-- PARSE = WR CTRL, 0x01 (R129). -/
def pseudoParse : Access := regWrite .ctrl 0x01

/-- CLEAR = WR CTRL, 0x02 (R129). -/
def pseudoClear : Access := regWrite .ctrl 0x02

/-- LEN n = WR IN_LEN, n (R129). -/
def pseudoLen (n : Nat) : Access := regWrite .inLen n

/-- BYTES a, [v0, ...] = one WB per byte, at rising addresses (R129). -/
def pseudoBytes : Nat → List Byte → List Access
  | _, [] => []
  | a, v :: rest => byteWrite a v :: pseudoBytes (a + 1) rest

/-- LOADPKT [v0, ...] = BYTES 0, [v0, ...] then LEN N (R129). -/
def pseudoLoadPkt (bytes : List Byte) : List Access :=
  pseudoBytes 0 bytes ++ [pseudoLen bytes.length]

/-- The read that WAIT repeats until STATUS[1:0] is not BUSY, a loop of the Host and not one access (R129). -/
def pseudoWaitRead : Access := regRead Reg.status.index

/-- One line of the spec's text for an access, numbers in decimal (R128). -/
def accessText (a : Access) : String :=
  let operand := toString a.index
  match a.space, a.dir, a.data with
  | 1#1, 1#1, some v => "WB " ++ operand ++ ", " ++ toString v
  | 0#1, 1#1, some v => "WR " ++ operand ++ ", " ++ toString v
  | 1#1, _, _ => "RB " ++ operand
  | 0#1, _, _ => "RR " ++ operand

end Sys2Proof.Machine
end

