-- ==== Sys2Proof/Machine/Reference.lean ====
section
/-! DEFINITION. Parse(N) as ONE function, from top to bottom the pseudocode of 43_assembler.md R211-R227,
40_frame_length.md R150, 41_toc_header.md R170 and R173 and 42_padding.md R190. The machine does not call it: it is what
the Parser step is claimed to compute (statement ParserStepIsParse), so it shares no operation with the machine but the
bit fields of Sys2Proof/Decode.lean. -/

namespace Sys2Proof.Machine

/-- How Parse ends without a result: a raised error, or the fault UnwrittenByte (R210). -/
inductive ParseStop where
  | raised (e : ParseError)
  | unwritten (a : Nat)
  deriving DecidableEq, Repr

/-- MemRead(a, 1) (R17): the byte, or the fault. -/
def specRead (mem : Nat → Option Byte) (a : Nat) : Except ParseStop Byte :=
  match mem a with
  | some b => .ok b
  | none => .error (.unwritten a)

/-- FrameLen(pos, end) (R150): the length and the bytes consumed. -/
def specFrameLen (mem : Nat → Option Byte) (pos stop : Nat) : Except ParseStop (Nat × Nat) :=
  if stop ≤ pos then .error (.raised (.packetTooShort (stop - pos)))
  else do
    let b0 ← specRead mem pos
    if b0.toNat ≤ 251 then .ok (b0.toNat, 1)
    else if stop ≤ pos + 1 then .error (.raised .invalidFrameLength)
    else do
      let b1 ← specRead mem (pos + 1)
      .ok (b0.toNat + 4 * b1.toNat, 2)

/-- The loop of PadExtract (R190) with k bytes consumed and P summed. `left` bounds the passes (R197). -/
def specPadLoop (mem : Nat → Option Byte) (avail : Nat) : Nat → Nat → Nat → Except ParseStop (Nat × Nat)
  | 0, _, _ => .error (.raised (.packetTooShort avail))
  | left + 1, k, p =>
    if avail ≤ k then .error (.raised (.packetTooShort avail))
    else do
      let x ← specRead mem (2 + k)
      if x.toNat = 255 then specPadLoop mem avail left (k + 1) (p + 254)
      else .ok (k + 1, p + x.toNat)

/-- PadExtract() (R190): the indicator bytes consumed and the padding-data length. -/
def specPadExtract (mem : Nat → Option Byte) (n : Nat) : Except ParseStop (Nat × Nat) := do
  let avail := n - 2
  let (k, p) ← specPadLoop mem avail (avail + 1) 0 0
  if avail < k + p then .error (.raised (.packetTooShort avail)) else .ok (k, p)

/-- Cbr(M, pos, end) (R223): the frames. -/
def specCbr (m pos stop : Nat) : Except ParseStop (List Frame) :=
  let d := stop - pos
  if d % m ≠ 0 then .error (.raised .invalidPacket)
  else .ok ((List.range m).map fun i => { off := pos + i * (d / m), len := d / m })

/-- The first loop of Vbr (R224): decode so many lengths, with the position after them. -/
def specLengths (mem : Nat → Option Byte) (stop : Nat) : Nat → Nat → Except ParseStop (List Nat × Nat)
  | 0, pos => .ok ([], pos)
  | count + 1, pos => do
    let (l, c) ← specFrameLen mem pos stop
    let (ls, pos') ← specLengths mem stop count (pos + c)
    .ok (l :: ls, pos')

/-- The second loop of Vbr (R224-R226): lay the frames out in order, the last one inferred. -/
def specPlace : Nat → Nat → List Nat → Except ParseStop (List Frame)
  | off, rem, [] => .ok [{ off := off, len := rem }]
  | off, rem, l :: ls =>
    if rem < l then .error (.raised (.packetTooShort rem))
    else do
      let fs ← specPlace (off + l) (rem - l) ls
      .ok ({ off := off, len := l } :: fs)

/-- Vbr(M, pos, end) (R224): HDR_BYTES and the frames. -/
def specVbr (mem : Nat → Option Byte) (m pos stop : Nat) : Except ParseStop (Nat × List Frame) := do
  let (ls, hdr) ← specLengths mem stop (m - 1) pos
  let frames ← specPlace hdr (stop - hdr) ls
  .ok (hdr, frames)

/-- Code0(N) (R212). -/
def specCode0 (toc : Byte) (n : Nat) : Except ParseStop Parsed :=
  .ok { toc := toc, fch := 1#8, hdr := 1, frames := [{ off := 1, len := n - 1 }], pad := none }

/-- Code1(N) (R213). -/
def specCode1 (toc : Byte) (n : Nat) : Except ParseStop Parsed :=
  let r := n - 1
  if r < 2 then .error (.raised (.packetTooShort r))
  else if r % 2 = 1 then .error (.raised .invalidPacket)
  else
    let h := r / 2
    .ok { toc := toc, fch := 2#8, hdr := 1, frames := [{ off := 1, len := h }, { off := 1 + h, len := h }]
          pad := none }

/-- Code2(N) (R216). -/
def specCode2 (mem : Nat → Option Byte) (toc : Byte) (n : Nat) : Except ParseStop Parsed := do
  let (l0, k) ← specFrameLen mem 1 n
  let r := n - 1 - k
  if r < l0 then .error (.raised (.packetTooShort r))
  else
    .ok { toc := toc, fch := 2#8, hdr := 1 + k
          frames := [{ off := 1 + k, len := l0 }, { off := 1 + k + l0, len := r - l0 }], pad := none }

/-- The frame-data region of Code3 from `pos` to `end` (R218-R221). -/
def specRegion (mem : Nat → Option Byte) (toc fch : Byte) (pos stop : Nat) (pad : Option Pad) :
    Except ParseStop Parsed :=
  let m := (fchCount fch).toNat
  if fchVbrFlag fch then do
    let (hdr, frames) ← specVbr mem m pos stop
    .ok { toc := toc, fch := fch, hdr := hdr, frames := frames, pad := pad }
  else do
    let frames ← specCbr m pos stop
    .ok { toc := toc, fch := fch, hdr := pos, frames := frames, pad := pad }

/-- Code3(N) (R218), with FchDecode (R173) in it. -/
def specCode3 (mem : Nat → Option Byte) (toc : Byte) (n : Nat) : Except ParseStop Parsed :=
  if n < 2 then .error (.raised (.packetTooShort 0))
  else do
    let fch ← specRead mem 1
    let m := (fchCount fch).toNat
    if m = 0 ∨ 48 < m then .error (.raised .invalidPacket)
    else if fchPadFlag fch then do
      let (k, p) ← specPadExtract mem n
      specRegion mem toc fch (2 + k) (n - p) (some { off := n - p, len := p, ind := k })
    else specRegion mem toc fch 2 n none

/-- Parse(N) (R211): an exhaustive choice of four. -/
def specParse (mem : Nat → Option Byte) (n : Nat) : Except ParseStop Parsed :=
  if n = 0 then .error (.raised (.packetTooShort 0))
  else do
    let toc ← specRead mem 0
    match tocCode toc with
    | 0#2 => specCode0 toc n
    | 1#2 => specCode1 toc n
    | 2#2 => specCode2 mem toc n
    | 3#2 => specCode3 mem toc n

end Sys2Proof.Machine
end

