-- ==== Sys2Proof/Safety.lean ====
section
/-! DEFINITION. The terms the statements use: where a packet field stands, which registers hold a value in which STATE
(10_state.md R54), what a result means for the packet (43_assembler.md R229-R237), and the invariants every step is
claimed to keep. -/

namespace Sys2Proof

/-! ### Kinds of instruction -/

/-- A frame length as its instruction gives it (R151, R152). -/
def Instr.frameLength : Instr → Option Nat
  | .flen1 l => some l.toNat
  | .flen2 a b => some (252 + a.toNat + 4 * b.toNat)
  | _ => none

/-- How many bytes a frame-length field consumes (R150): 1 for FLEN1, 2 for FLEN2. -/
def Instr.lengthBytes : Instr → Nat
  | .flen1 _ => 1
  | .flen2 _ _ => 2
  | _ => 0

/-- The packet fields among the instructions: the rows TOC0 to PAD_TERM of the table. -/
def Instr.isPacketField (i : Instr) : Bool :=
  match encode i with
  | .packet _ _ => true
  | .access _ => false

end Sys2Proof

namespace Sys2Proof.Machine

/-! ### Where an instruction runs -/

/-- The block is inside its Parser step, on a packet of N bytes, with a field of this format at the cursor. -/
def AtField (f : Field) (s : State) (n : Nat) (w : Work) : Prop :=
  s.status = .busy ∧ s.inLen = some n ∧ s.work = some w ∧ w.field = f

/-! ### Registers by STATE (R54) -/

/-- ERR_KIND and ERR_AVAIL hold NOVALUE. -/
def NoErrors (s : State) : Prop := s.errKind = none ∧ s.errAvail = none

/-- Every result register holds NOVALUE. -/
def NoResults (s : State) : Prop :=
  s.toc = none ∧ s.fch = none ∧ s.hdrBytes = none ∧ s.padOff = none ∧ s.padLen = none ∧ s.padInd = none ∧
    s.frameOff = noSlots Nat ∧ s.frameLen = noSlots Nat ∧ s.frameSil = noSlots Byte

/-- The result and error registers of two states are equal. -/
def SameResults (s t : State) : Prop :=
  t.toc = s.toc ∧ t.fch = s.fch ∧ t.hdrBytes = s.hdrBytes ∧ t.padOff = s.padOff ∧ t.padLen = s.padLen ∧
    t.padInd = s.padInd ∧ t.frameOff = s.frameOff ∧ t.frameLen = s.frameLen ∧ t.frameSil = s.frameSil ∧
    t.errKind = s.errKind ∧ t.errAvail = s.errAvail

/-- Every byte of IN_BUF reads in `t` as it did in `s`. -/
def SameBytes (s t : State) : Prop := ∀ a, memRead t.inBuf a = memRead s.inBuf a

/-- What no access and no packet field touches unless its rule says so: the parameters, the schedule and what the
Host has read. -/
def SameOutside (s t : State) : Prop :=
  t.config = s.config ∧ t.pending = s.pending ∧ t.hostData = s.hostData

/-- The result registers hold this Parsed Packet, and the error registers say success (R230). -/
def HoldsResult (p : Parsed) (s : State) : Prop :=
  s.toc = some p.toc ∧ s.fch = some p.fch ∧ s.hdrBytes = some p.hdr ∧
    (∀ i : Fin 48, s.frameOff[i] = (p.frames[i.val]?).map Frame.off) ∧
    (∀ i : Fin 48, s.frameLen[i] = (p.frames[i.val]?).map Frame.len) ∧
    (∀ i : Fin 48, s.frameSil[i] = (p.frames[i.val]?).map fun f => if f.len = 0 then 1#8 else 0#8) ∧
    s.padOff = p.pad.map Pad.off ∧ s.padLen = p.pad.map Pad.len ∧ s.padInd = p.pad.map Pad.ind ∧
    s.errKind = some .none ∧ s.errAvail = none

/-- ERR_KIND and ERR_AVAIL record this error, and no result register holds a value (R231, R294). -/
def HoldsError (e : ParseError) (s : State) : Prop :=
  NoResults s ∧
    match e with
    | .packetTooShort avail => s.errKind = some .packetTooShort ∧ s.errAvail = some avail
    | .invalidPacket => s.errKind = some .invalidPacket ∧ s.errAvail = none
    | .invalidFrameLength => s.errKind = some .invalidFrameLength ∧ s.errAvail = none

/-- The end of a successful parse seen from the state before (R210, R230): OK, the result registers hold this Parsed
Packet, and nothing else changed. -/
def EndsOk (p : Parsed) (s t : State) : Prop :=
  t.status = .ok ∧ t.work = none ∧ HoldsResult p t ∧ t.inLen = s.inLen ∧ SameBytes s t ∧ SameOutside s t

/-- Error entry seen from the state before (R210, R231, R299): ERR, the error registers record this error, no result
register holds a value, and nothing else changed. -/
def EndsErr (e : ParseError) (s t : State) : Prop :=
  t.status = .err ∧ t.work = none ∧ HoldsError e t ∧ t.inLen = s.inLen ∧ SameBytes s t ∧ SameOutside s t

/-- An outcome with another packet buffer in its next state. -/
def withBuf (m : Memory) : Host.Outcome State Fault Refusal → Host.Outcome State Fault Refusal
  | .next t => .next { t with inBuf := m }
  | .fault r => .fault r
  | .refused r => .refused r

/-! ### The header bytes of a packet (R83) -/

/-- One past the last byte of `count` frame-length fields from `pos` on, in a region that ends at `stop` (R114, R150). A
field that is missing, cut off or unwritten is the last one. -/
def lengthFieldsEnd (mem : Nat → Option Byte) (stop : Nat) : Nat → Nat → Nat
  | 0, pos => pos
  | count + 1, pos =>
    if stop ≤ pos then pos
    else
      match mem pos with
      | none => pos + 1
      | some b =>
        if flenIsLong b = false then lengthFieldsEnd mem stop count (pos + 1)
        else if stop ≤ pos + 1 then pos + 1
        else
          match mem (pos + 1) with
          | none => pos + 2
          | some _ => lengthFieldsEnd mem stop count (pos + 2)

/-- One past the last header byte of a code-3 packet whose frame-data region runs from `pos` to `stop`: only a VBR packet
has length fields, M - 1 of them (R224). -/
def regionHeaderEnd (mem : Nat → Option Byte) (fch : Byte) (pos stop : Nat) : Nat :=
  if fchVbrFlag fch then lengthFieldsEnd mem stop ((fchCount fch).toNat - 1) pos else pos

/-- The same from the padding indicator at `pos` on, with P bytes of padding so far (R116, R190). A chain that the packet
cuts off or that does not fit (R193, R194) is the last of the header bytes. -/
def chainHeaderEnd (mem : Nat → Option Byte) (n : Nat) (fch : Byte) : Nat → Nat → Nat → Nat
  | 0, pos, _ => pos
  | left + 1, pos, p =>
    if n ≤ pos then pos
    else
      match mem pos with
      | none => pos + 1
      | some x =>
        if x = 0xFF#8 then chainHeaderEnd mem n fch left (pos + 1) (p + 254)
        else if n < pos + 1 + (p + x.toNat) then pos + 1
        else regionHeaderEnd mem fch (pos + 1) (n - (p + x.toNat))

/-- One past the last header byte of an N-byte packet, up to the check that fails where one does (R83): the TOC byte, the
frame-length field of code 2, and for code 3 the frame-count header, the padding indicators and the length fields of a VBR
packet. No frame-data and no padding-data byte lies below it. -/
def headerEnd (mem : Nat → Option Byte) (n : Nat) : Nat :=
  if n = 0 then 0
  else
    match mem 0 with
    | none => 1
    | some toc =>
      match tocCode toc with
      | 0#2 => 1
      | 1#2 => 1
      | 2#2 => lengthFieldsEnd mem n 1 1
      | 3#2 =>
        if n < 2 then 1
        else
          match mem 1 with
          | none => 2
          | some fch =>
            if legalCount (fchCount fch) = false then 2
            else if fchPadFlag fch then chainHeaderEnd mem n fch n 2 0
            else regionHeaderEnd mem fch 2 n

/-! ### What a result means (R229-R237) -/

/-- Frames back to back from one offset to another (R229). -/
def chained : Nat → List Frame → Nat → Prop
  | a, [], b => a = b
  | a, f :: rest, b => f.off = a ∧ chained (a + f.len) rest b

/-- P: PAD_LEN when padding is present, else 0 (R232). -/
def Parsed.padTotal (p : Parsed) : Nat := (p.pad.map Pad.len).getD 0

/-- PAD_IND when padding is present, else 0. -/
def Parsed.padIndicators (p : Parsed) : Nat := (p.pad.map Pad.ind).getD 0

/-- What holds of every Parsed Packet of an N-byte packet: FCH[5:0] frames (R43), at least 1 and at most 48 (R13, R233),
back to back from HDR_BYTES to N - P (R229), padding present exactly when FCH[7] is set (R43) and then the packet's tail
(R195, R236) with at least one indicator byte (R47). -/
def Parsed.Sound (n : Nat) (p : Parsed) : Prop :=
  p.frames.length = (fchCount p.fch).toNat ∧ 1 ≤ p.frames.length ∧ p.frames.length ≤ 48 ∧
    p.padTotal ≤ n ∧ chained p.hdr p.frames (n - p.padTotal) ∧ p.pad.isSome = fchPadFlag p.fch ∧
    ∀ q, p.pad = some q → q.off + q.len = n ∧ 1 ≤ q.ind

/-- What the frame-count code adds: the FCH register and the header bytes (R43, R44), equal frames for code 1 (R234)
and for CBR (R235). -/
def Parsed.CodeLaw (p : Parsed) : Prop :=
  match tocCode p.toc with
  | 0#2 => p.fch = 1#8 ∧ p.hdr = 1
  | 1#2 => p.fch = 2#8 ∧ p.hdr = 1 ∧ ∃ h, 1 ≤ h ∧ ∀ f ∈ p.frames, f.len = h
  | 2#2 => p.fch = 2#8 ∧ (p.hdr = 2 ∨ p.hdr = 3)
  | 3#2 =>
    if fchVbrFlag p.fch then
      2 + p.padIndicators + (p.frames.length - 1) ≤ p.hdr ∧
        p.hdr ≤ 2 + p.padIndicators + 2 * (p.frames.length - 1)
    else p.hdr = 2 + p.padIndicators ∧ ∃ l, ∀ f ∈ p.frames, f.len = l

/-! ### Invariants -/

/-- The parameters are legal (R11, R12), IN_BUF is canonical and inside the packet buffer (R80), IN_LEN is legal (R39),
and no working value stands between steps (R30). -/
def BufferInv (s : State) : Prop :=
  s.config.wf = true ∧ memWf s.inBuf = true ∧ memBelow s.config.pktCap s.inBuf = true ∧
    (∀ n, s.inLen = some n → n ≤ s.config.pktCap) ∧ s.work = none

/-- What the working values are inside the Parser step of an N-byte packet, at a field of each format (R33, R34): the
cursor in 0..N, no length collected before the first one, the padding chain begun only under the padding flag (R219), the
counts legal (R176), and a VBR packet short of at least one length (R224). -/
def WorkInv (n : Nat) (w : Work) : Prop :=
  w.cur ≤ n ∧
    match w.field with
    | .toc => w = Work.start
    | .fch => 2 ≤ n ∧ w.cur = 1 ∧ tocCode w.toc = 3#2 ∧ w.padBytes = 0 ∧ w.padSum = 0 ∧ w.lens = []
    | .padind =>
      tocCode w.toc = 3#2 ∧ legalCount (fchCount w.fch) = true ∧ fchPadFlag w.fch = true ∧ w.cur = 2 + w.padBytes ∧
        w.padSum = 254 * w.padBytes ∧ w.lens = []
    | .flen =>
      if tocCode w.toc = 2#2 then
        w.cur = 1 ∧ w.fch = 2#8 ∧ w.padBytes = 0 ∧ w.padSum = 0 ∧ w.lens = []
      else
        tocCode w.toc = 3#2 ∧ legalCount (fchCount w.fch) = true ∧ fchVbrFlag w.fch = true ∧
          w.lens.length + 2 ≤ (fchCount w.fch).toNat ∧ w.cur + w.padSum ≤ n ∧
          2 + w.padBytes + w.lens.length ≤ w.cur ∧ w.cur ≤ 2 + w.padBytes + 2 * w.lens.length ∧
          (fchPadFlag w.fch = false → w.padBytes = 0 ∧ w.padSum = 0)

/-- What the result and error registers hold in each STATE (R54): nothing in IDLE and BUSY. In OK and ERR they hold
what Parse(IN_LEN) gives on IN_BUF as it stands, since any write to either clears them (R88, R96). -/
def ResultInv (s : State) : Prop :=
  match s.status with
  | .idle => NoErrors s ∧ NoResults s
  | .busy => (∃ n, s.inLen = some n) ∧ NoErrors s ∧ NoResults s
  | .ok => ∃ n p, s.inLen = some n ∧ specParse (memRead s.inBuf) n = .ok p ∧ HoldsResult p s
  | .err => ∃ n e, s.inLen = some n ∧ specParse (memRead s.inBuf) n = .error (.raised e) ∧ HoldsError e s

/-- Every byte of the packet has been written. -/
def PacketWritten (s : State) (n : Nat) : Prop := ∀ a, a < n → memRead s.inBuf a ≠ none

/-- A safe run of the block: the two invariants of every state between steps. -/
def Safe (s : State) : Prop := BufferInv s ∧ ResultInv s

end Sys2Proof.Machine
end

