-- ==== Sys2Proof/Certificates/Slice0/Obligations.lean ====
section
/-! DEFINITION. The statements for the provers. Each docstring cites the rule of spec/ it formalises. -/

open Sys2Proof Sys2Proof.Machine

/-! ## Encoding -/

/-- Decoding an encoded well-formed instruction gives it back, for every instruction and every operand (R112-R116,
R121, R126, R127). The spec's own decisions (92_eei_decisions.md): R115 is D11, R126 is D28, R127 is D21. From general
knowledge by the spec's own word: R115. -/
def Obligations.DecodeOfEncode : Prop :=
  ∀ i : Instr, i.wf = true → decode (encode i) = .ok i

/-- Whatever decodes is the encoding of the well-formed instruction it decodes to: no two words share one. For packet
fields this is R112-R116 and R118. For Host accesses R126 and R127 give the forms, and that a malformed tuple (an
index above 0xFF, a write without data, a read with data, data above 255) decodes to nothing is the model's choice
(log entry 11). The spec's own decisions (92_eei_decisions.md): R115 is D11, R126 is D28, R127 is D21. From general
knowledge by the spec's own word: R115. -/
def Obligations.DecodeIsExact : Prop :=
  ∀ (e : Encoded) (i : Instr), decode e = .ok i → i.wf = true ∧ encode i = e

/-- Words the spec writes out decode to what it says they are: R170 (0x4B), R173 (0xC3), R152 (0xFC 0x00), R190 (10),
R191 (0xFF), R174 (0x3F), and the accesses of 95_test_vectors.md program 1. From general knowledge by the spec's own
word: R152. -/
def Obligations.SpecWordsDecode : Prop :=
  decode (.packet .toc [0x4B]) = .ok (.toc3 9 false) ∧
  decode (.packet .fch [0xC3]) = .ok (.fchVbr true 3) ∧
  decode (.packet .fch [0x3F]) = .ok (.fchIllegal56 false false 7) ∧
  decode (.packet .flen [0xFC, 0x00]) = .ok (.flen2 0 0) ∧
  decode (.packet .flen [0xFB]) = .ok (.flen1 251) ∧
  decode (.packet .padind [0xFF]) = .ok .padCont ∧
  decode (.packet .padind [10]) = .ok (.padTerm 10) ∧
  decode (.access ⟨1#1, 1#1, 0x00, some 0x08⟩) = .ok (.wb 0 8) ∧
  decode (.access ⟨0#1, 1#1, 0x02, some 0x01⟩) = .ok (.wrInLen 1) ∧
  decode (.access ⟨0#1, 1#1, 0x00, some 0x01⟩) = .ok .cmdParse ∧
  decode (.access ⟨0#1, 0#1, 0x40, none⟩) = .ok (.rr 0x40)

/-- The decoders agree with the opcode table: a byte decodes to the mnemonic of the matching row with the smallest
decode_order (R130). The spec's own decisions (92_eei_decisions.md): R130 is D28. -/
def Obligations.DecodersFollowTable : Prop :=
  ∀ b : Byte,
    (rowFor (.field .toc) b).map OpRow.mnemonic = some (decodeToc b).mnemonic ∧
    (rowFor (.field .fch) b).map OpRow.mnemonic = some (decodeFch b).mnemonic ∧
    (rowFor (.field .padind) b).map OpRow.mnemonic = some (decodePadind b).mnemonic ∧
    (rowFor .ctrl b).map OpRow.mnemonic = some (decodeCtrl b).mnemonic ∧
    (rowFor (.field .flen) b).map OpRow.mnemonic = some (if flenIsLong b then "FLEN2" else "FLEN1")

/-- The register map (R36): the index of every register as a number, that this index names the register, and that the
indices that name none are exactly the reserved ones (R51). The spec's own decisions (92_eei_decisions.md): R36 is D6,
R51 is D6. -/
def Obligations.RegisterMap : Prop :=
  (Reg.index .ctrl = 0x00 ∧ Reg.index .status = 0x01 ∧ Reg.index .inLen = 0x02 ∧ Reg.index .errKind = 0x03 ∧
    Reg.index .errAvail = 0x04 ∧ Reg.index .toc = 0x05 ∧ Reg.index .fch = 0x06 ∧ Reg.index .hdrBytes = 0x07 ∧
    Reg.index .padOff = 0x08 ∧ Reg.index .padLen = 0x09 ∧ Reg.index .padInd = 0x0A ∧
    ∀ i : Fin 48, Reg.index (.frameOff i) = 0x40 + i.val ∧ Reg.index (.frameLen i) = 0x80 + i.val ∧
      Reg.index (.frameSil i) = 0xC0 + i.val) ∧
  (∀ r : Reg, r.index < 256 ∧ Reg.ofIndex (BitVec.ofNat 8 r.index) = some r) ∧
  ∀ x : BitVec 8, Reg.ofIndex x = none ↔
    (0x0B ≤ x.toNat ∧ x.toNat ≤ 0x3F) ∨ (0x70 ≤ x.toNat ∧ x.toNat ≤ 0x7F) ∨
    (0xB0 ≤ x.toNat ∧ x.toNat ≤ 0xBF) ∨ (0xF0 ≤ x.toNat ∧ x.toNat ≤ 0xFF)

/-- Every frame length 0..1275 has exactly one frame-length field, one byte long exactly up to 251, and no field gives
a larger length (R124, R157). It rests on the FLEN2 formula, which the spec takes from general knowledge (log entry
12). Derived by the spec: R124, R157. -/
def Obligations.FrameLengthFieldUnique : Prop :=
  (∀ n, n ≤ 1275 → ∃ i : Instr, (i.wf = true ∧ i.frameLength = some n) ∧
    ∀ j : Instr, j.wf = true ∧ j.frameLength = some n → j = i) ∧
  ∀ (i : Instr) (n : Nat), i.wf = true → i.frameLength = some n →
    n ≤ 1275 ∧ (i.lengthBytes = 1 ↔ n ≤ 251) ∧ (i.lengthBytes = 1 ∨ i.lengthBytes = 2)

/-! ## The step -/

/-- A step whose next event is a Host access runs the instruction the access decodes to, with the event taken off the
schedule (R9, R91, R126). The spec's own decisions (92_eei_decisions.md): R9 is D2, R91 is D26, R126 is D28. -/
def Obligations.StepRunsDecodedAccess : Prop :=
  ∀ (s : State) (a : Access) (rest : List Event) (i : Instr),
    s.pending = .access a :: rest → decode (.access a) = .ok i → step s = exec i { s with pending := rest }

/-- Inside the Parser step, the bytes at the cursor that decode to an instruction run it (R33, R130), the loop goes on
while working values stand and ends when none do. The spec's own decisions (92_eei_decisions.md): R130 is D28. Derived
by the spec: R33. -/
def Obligations.ParserRunsDecodedField : Prop :=
  (∀ (s : State) (n : Nat) (w : Work) (l : List Byte) (i : Instr),
    s.inLen = some n → s.work = some w → fetchField s.inBuf n w = .bytes l → decode (.packet w.field l) = .ok i →
      parseField s = exec i s) ∧
  (∀ (k : Nat) (s t : State) (w : Work), parseField s = .next t → t.work = some w →
    parseFields (k + 1) s = parseFields k t) ∧
  ∀ (k : Nat) (s t : State), parseField s = .next t → t.work = none → parseFields (k + 1) s = .next t

/-- When the Parser has its turn: at its event of the schedule, and when the schedule is empty. In a BUSY block its
turn runs packet fields from the TOC byte on, as one step. In any other block it changes nothing (R10, R210, R308).
The schedule is the model's choice (log entries 5 and 6). The spec's own decisions (92_eei_decisions.md): R10 is D1,
R210 is D1, R308 is D23. -/
def Obligations.StepGivesParserItsTurn : Prop :=
  (∀ s : State, s.pending = [] → step s = parserTurn s) ∧
  (∀ (s : State) (rest : List Event), s.pending = .parser :: rest → step s = parserTurn { s with pending := rest }) ∧
  (∀ s : State, s.status ≠ .busy → parserTurn s = .next s) ∧
  ∀ (s : State) (n : Nat), s.status = .busy → s.inLen = some n →
    parserTurn s = parseFields (n + 1) { s with work := some Work.start }

/-- The Parser step, field by field, computes Parse(N) of R211 over IN_BUF and writes its result or its error, or ends
in UnwrittenByte (R210, R230, R231). Parse holds the FLEN2 formula, which the spec takes from general knowledge (R152,
log entry 12). R210 says the step is enabled exactly in a BUSY block, and that a turn in any other block changes
nothing is the model's choice (log entry 6). The spec's own decisions (92_eei_decisions.md): R210 is D1, R230 is D16,
R231 is D8. From general knowledge by the spec's own word: R152. -/
def Obligations.ParserStepIsParse : Prop :=
  (∀ s : State, s.status ≠ .busy → parserTurn s = .next s) ∧
  ∀ (s : State) (n : Nat), s.status = .busy → s.inLen = some n →
    match specParse (memRead s.inBuf) n with
    | .ok p => ∃ t, parserTurn s = .next t ∧ EndsOk p s t
    | .error (.raised e) => ∃ t, parserTurn s = .next t ∧ EndsErr e s t
    | .error (.unwritten a) => parserTurn s = .fault (.unwrittenByte a)

/-! ## Packet fields -/

/-- TOC0: one frame of the N - 1 bytes after the TOC byte (R212), silence exactly when N = 1 (R228). The spec's own
decisions (92_eei_decisions.md): R228 is D17. -/
def Obligations.Toc0OneFrame : Prop :=
  ∀ (s : State) (n : Nat) (w : Work) (c : BitVec 5) (st : Bool), AtField .toc s n w → 1 ≤ n →
    ∃ t, exec (.toc0 c st) s = .next t ∧
      EndsOk { toc := tocByte c st 0#2, fch := 1#8, hdr := 1, frames := [{ off := 1, len := n - 1 }], pad := none } s t

/-- TOC1: with R = N - 1, PacketTooShort(R) below 2, else InvalidPacket when odd, else two frames of R / 2 bytes
(R213, R214, R215). The spec's own decisions (92_eei_decisions.md): R214 is D12. -/
def Obligations.Toc1TwoEqualFrames : Prop :=
  ∀ (s : State) (n : Nat) (w : Work) (c : BitVec 5) (st : Bool), AtField .toc s n w → 1 ≤ n →
    (n - 1 < 2 → ∃ t, exec (.toc1 c st) s = .next t ∧ EndsErr (.packetTooShort (n - 1)) s t) ∧
    (2 ≤ n - 1 → (n - 1) % 2 = 1 → ∃ t, exec (.toc1 c st) s = .next t ∧ EndsErr .invalidPacket s t) ∧
    (2 ≤ n - 1 → (n - 1) % 2 = 0 → ∃ t, exec (.toc1 c st) s = .next t ∧
      EndsOk { toc := tocByte c st 1#2, fch := 2#8, hdr := 1
               frames := [{ off := 1, len := (n - 1) / 2 }, { off := 1 + (n - 1) / 2, len := (n - 1) / 2 }]
               pad := none } s t)

/-- TOC2: the cursor moves to offset 1, where the frame-length field of the first frame stands (R216, R33). Derived by
the spec: R33. -/
def Obligations.Toc2AwaitsLength : Prop :=
  ∀ (s : State) (n : Nat) (w : Work) (c : BitVec 5) (st : Bool), AtField .toc s n w →
    exec (.toc2 c st) s =
      .next { s with work := some { w with field := .flen, cur := 1, toc := tocByte c st 2#2, fch := 2#8 } }

/-- TOC3: PacketTooShort(0) when N < 2 (R175), else the cursor moves to offset 1, where the frame-count header stands
(R218, R33). What the working values hold for the FCH register before the header is read is left open (log entry 18).
The spec's own decisions (92_eei_decisions.md): R175 is D9. Derived by the spec: R33. -/
def Obligations.Toc3AwaitsHeader : Prop :=
  ∀ (s : State) (n : Nat) (w : Work) (c : BitVec 5) (st : Bool), AtField .toc s n w →
    (n < 2 → ∃ t, exec (.toc3 c st) s = .next t ∧ EndsErr (.packetTooShort 0) s t) ∧
    (2 ≤ n → ∃ f, exec (.toc3 c st) s =
      .next { s with work := some { w with field := .fch, cur := 1, toc := tocByte c st 3#2, fch := f } })

/-- FCH_ILLEGAL, all five rows: the parse fails with InvalidPacket whatever the flags (R174). -/
def Obligations.IllegalCountsFail : Prop :=
  ∀ (s : State) (n : Nat) (w : Work) (p v : Bool), AtField .fch s n w →
    (∃ t, exec (.fchIllegal0 p v) s = .next t ∧ EndsErr .invalidPacket s t) ∧
    (∃ t, exec (.fchIllegal49 p v) s = .next t ∧ EndsErr .invalidPacket s t) ∧
    (∀ x, ∃ t, exec (.fchIllegal50 p v x) s = .next t ∧ EndsErr .invalidPacket s t) ∧
    (∀ x, ∃ t, exec (.fchIllegal52 p v x) s = .next t ∧ EndsErr .invalidPacket s t) ∧
    ∀ x, ∃ t, exec (.fchIllegal56 p v x) s = .next t ∧ EndsErr .invalidPacket s t

/-- FCH_CBR: with the padding flag, the padding chain follows at offset 2 (R219). Without it, the region of D bytes
from offset 2 is split into M equal frames, or InvalidPacket when M does not divide D (R222, R223). -/
def Obligations.FchCbrEqualFrames : Prop :=
  ∀ (s : State) (n : Nat) (w : Work) (m : BitVec 6), AtField .fch s n w → w.padSum = 0 → legalCount m = true →
    (exec (.fchCbr true m) s =
      .next { s with work := some { w with field := .padind, cur := 2, fch := fchByte true false m } }) ∧
    ((n - 2) % m.toNat ≠ 0 → ∃ t, exec (.fchCbr false m) s = .next t ∧ EndsErr .invalidPacket s t) ∧
    ((n - 2) % m.toNat = 0 → ∃ t, exec (.fchCbr false m) s = .next t ∧
      EndsOk { toc := w.toc, fch := fchByte false false m, hdr := 2
               frames := (List.range m.toNat).map fun i =>
                 { off := 2 + i * ((n - 2) / m.toNat), len := (n - 2) / m.toNat }
               pad := none } s t)

/-- FCH_VBR: with the padding flag, the padding chain follows at offset 2 (R219). Without it, a packet of one frame
has no length field and its frame is the whole region (R227), and any other has a frame-length field at offset 2
(R224). The spec's own decisions (92_eei_decisions.md): R224 is D14. Derived by the spec: R227. -/
def Obligations.FchVbrNextField : Prop :=
  ∀ (s : State) (n : Nat) (w : Work) (m : BitVec 6), AtField .fch s n w → w.padSum = 0 → w.lens = [] →
    legalCount m = true →
    (exec (.fchVbr true m) s =
      .next { s with work := some { w with field := .padind, cur := 2, fch := fchByte true true m } }) ∧
    (m = 1#6 → ∃ t, exec (.fchVbr false m) s = .next t ∧
      EndsOk { toc := w.toc, fch := fchByte false true m, hdr := 2, frames := [{ off := 2, len := n - 2 }]
               pad := none } s t) ∧
    (m ≠ 1#6 → exec (.fchVbr false m) s =
      .next { s with work := some { w with field := .flen, cur := 2, fch := fchByte false true m } })

/-- FLEN1 and FLEN2 in a code-2 packet: with R bytes after the field, PacketTooShort(R) when the length exceeds R,
else two frames, the second taking the rest (R151, R152, R216, R217). From general knowledge by the spec's own word:
R152. -/
def Obligations.FrameLengthCodeTwo : Prop :=
  ∀ (s : State) (n : Nat) (w : Work) (i : Instr) (l : Nat), AtField .flen s n w → tocCode w.toc = 2#2 →
    fchPadFlag w.fch = false → i.frameLength = some l →
    (n - (w.cur + i.lengthBytes) < l → ∃ t, exec i s = .next t ∧
      EndsErr (.packetTooShort (n - (w.cur + i.lengthBytes))) s t) ∧
    (l ≤ n - (w.cur + i.lengthBytes) → ∃ t, exec i s = .next t ∧
      EndsOk { toc := w.toc, fch := w.fch, hdr := w.cur + i.lengthBytes
               frames := [{ off := w.cur + i.lengthBytes, len := l },
                 { off := w.cur + i.lengthBytes + l, len := n - (w.cur + i.lengthBytes) - l }]
               pad := none } s t)

/-- FLEN1 and FLEN2 in a VBR packet, while more lengths are to come: the length is kept, the cursor passes the field
and another frame-length field follows (R151, R152, R224, R33). The spec's own decisions (92_eei_decisions.md): R224
is D14. Derived by the spec: R33. From general knowledge by the spec's own word: R152. -/
def Obligations.FrameLengthCollected : Prop :=
  ∀ (s : State) (n : Nat) (w : Work) (i : Instr) (l : Nat), AtField .flen s n w → tocCode w.toc = 3#2 →
    i.frameLength = some l → w.lens.length + 2 < (fchCount w.fch).toNat →
    exec i s = .next { s with work := some { w with cur := w.cur + i.lengthBytes, lens := w.lens ++ [l] } }

/-- FLEN1 and FLEN2 as the last length field of a VBR packet (R151, R152). With `region` bytes of frame data: when the
explicit lengths fit, the frames have these lengths and the last one takes what remains, back to back from the cursor
(R224, R226, R229). Otherwise PacketTooShort with the bytes left at the first length that does not fit (R225). The
length of FLEN2 is the formula the spec takes from general knowledge (log entry 12). The spec's own decisions
(92_eei_decisions.md): R224 is D14. Derived by the spec: R226, R229. From general knowledge by the spec's own word:
R152. -/
def Obligations.LastFrameLengthSplits : Prop :=
  ∀ (s : State) (n : Nat) (w : Work) (i : Instr) (l hdr region : Nat) (ls : List Nat), AtField .flen s n w →
    tocCode w.toc = 3#2 → i.frameLength = some l → w.lens.length + 2 = (fchCount w.fch).toNat →
    ls = w.lens ++ [l] → hdr = w.cur + i.lengthBytes → region = n - w.padSum - hdr →
    (ls.sum ≤ region → ∃ t fs, exec i s = .next t ∧ fs.map Frame.len = ls ++ [region - ls.sum] ∧
      chained hdr fs (hdr + region) ∧
      EndsOk { toc := w.toc, fch := w.fch, hdr := hdr, frames := fs
               pad := if fchPadFlag w.fch then
                   some { off := n - w.padSum, len := w.padSum, ind := w.padBytes } else none } s t) ∧
    (region < ls.sum → ∃ t j x, exec i s = .next t ∧ ls[j]? = some x ∧ (ls.take j).sum ≤ region ∧
      region - (ls.take j).sum < x ∧ EndsErr (.packetTooShort (region - (ls.take j).sum)) s t)

/-- PAD_CONT: 254 more padding bytes, one indicator byte consumed, and another follows (R191). -/
def Obligations.PadContAddsTwoHundredFiftyFour : Prop :=
  ∀ (s : State) (n : Nat) (w : Work), AtField .padind s n w →
    exec .padCont s =
      .next { s with
        work := some { w with cur := w.cur + 1, padBytes := w.padBytes + 1, padSum := w.padSum + 254 } }

/-- PAD_TERM: with k indicator bytes and P padding bytes in all, PacketTooShort(N - 2) when k + P > N - 2 (R192,
R194). Else the region from the cursor to N - P is split: by the CBR rule (R223), whole for one VBR frame (R227), or a
frame-length field follows (R224). The spec's own decisions (92_eei_decisions.md): R224 is D14. Derived by the spec:
R227. -/
def Obligations.PadTermEndsChain : Prop :=
  ∀ (s : State) (n : Nat) (w : Work) (x : Byte) (k p pos m d : Nat), AtField .padind s n w → w.lens = [] →
    fchPadFlag w.fch = true → k = w.padBytes + 1 → p = w.padSum + x.toNat → pos = w.cur + 1 →
    m = (fchCount w.fch).toNat → 1 ≤ m → d = n - p - pos →
    (n - 2 < k + p → ∃ t, exec (.padTerm x) s = .next t ∧ EndsErr (.packetTooShort (n - 2)) s t) ∧
    (k + p ≤ n - 2 → fchVbrFlag w.fch = false → d % m ≠ 0 →
      ∃ t, exec (.padTerm x) s = .next t ∧ EndsErr .invalidPacket s t) ∧
    (k + p ≤ n - 2 → fchVbrFlag w.fch = false → d % m = 0 → ∃ t, exec (.padTerm x) s = .next t ∧
      EndsOk { toc := w.toc, fch := w.fch, hdr := pos
               frames := (List.range m).map fun i => { off := pos + i * (d / m), len := d / m }
               pad := some { off := n - p, len := p, ind := k } } s t) ∧
    (k + p ≤ n - 2 → fchVbrFlag w.fch = true → m = 1 → ∃ t, exec (.padTerm x) s = .next t ∧
      EndsOk { toc := w.toc, fch := w.fch, hdr := pos, frames := [{ off := pos, len := d }]
               pad := some { off := n - p, len := p, ind := k } } s t) ∧
    (k + p ≤ n - 2 → fchVbrFlag w.fch = true → m ≠ 1 →
      exec (.padTerm x) s =
        .next { s with work := some { w with field := .flen, cur := pos, padBytes := k, padSum := p } })

/-- The working values inside the Parser step: they start as the invariant `WorkInv` says, every field that goes on
keeps it (the cursor stays in 0..N), and the cursor moves forward by at least one byte (R33, R34). The premises the
statements above make about the working values follow from it. Derived by the spec: R33. -/
def Obligations.CursorAdvances : Prop :=
  (∀ n : Nat, WorkInv n Work.start) ∧
  ∀ (s t : State) (n : Nat) (w w' : Work), AtField w.field s n w → WorkInv n w → parseField s = .next t →
    t.work = some w' → t = { s with work := some w' } ∧ WorkInv n w' ∧ w.cur < w'.cur

/-! ## Host accesses and commands -/

/-- WB (R261): refused out of range or while BUSY. Otherwise the byte is written, in IDLE nothing else changes, and
from OK or ERR the block returns to IDLE with no result or error held. The spec's own decisions (92_eei_decisions.md):
R261 is D20. -/
def Obligations.ByteWriteStores : Prop :=
  ∀ (s : State) (a : Nat) (v : Byte),
    ((s.config.pktCap ≤ a ∨ s.status = .busy) → ∃ r, exec (.wb a v) s = .refused r) ∧
    (a < s.config.pktCap → s.status ≠ .busy → ∃ t, exec (.wb a v) s = .next t ∧
      memRead t.inBuf a = some v ∧ (∀ b, b ≠ a → memRead t.inBuf b = memRead s.inBuf b) ∧ t.status = .idle ∧
      (s.status = .idle → SameResults s t) ∧ (s.status ≠ .idle → NoErrors t ∧ NoResults t) ∧
      t.inLen = s.inLen ∧ t.work = s.work ∧ SameOutside s t)

/-- RB (R262): refused out of range, ReadNoValue on an unwritten byte, else the byte is returned and nothing changes,
in every STATE. Where the returned value stands is the model's choice (log entry 7). The spec's own decisions
(92_eei_decisions.md): R262 is D28. -/
def Obligations.ByteReadReturns : Prop :=
  ∀ (s : State) (a : Nat),
    (s.config.pktCap ≤ a → ∃ r, exec (.rb a) s = .refused r) ∧
    (a < s.config.pktCap → memRead s.inBuf a = none → exec (.rb a) s = .fault (.readNoValue (.byte a))) ∧
    ∀ v, a < s.config.pktCap → memRead s.inBuf a = some v →
      exec (.rb a) s = .next { s with hostData := some v.toNat }

/-- WR IN_LEN (R263): refused above PKT_CAP or while BUSY. Otherwise IN_LEN holds n, in IDLE nothing else changes, and
from OK or ERR the block returns to IDLE with no result or error held. The spec's own decisions (92_eei_decisions.md):
R263 is D20. -/
def Obligations.LengthWriteSets : Prop :=
  ∀ (s : State) (n : Nat),
    ((s.config.pktCap < n ∨ s.status = .busy) → ∃ r, exec (.wrInLen n) s = .refused r) ∧
    (n ≤ s.config.pktCap → s.status ≠ .busy → ∃ t, exec (.wrInLen n) s = .next t ∧ t.inLen = some n ∧
      t.status = .idle ∧ (s.status = .idle → SameResults s t) ∧ (s.status ≠ .idle → NoErrors t ∧ NoResults t) ∧
      SameBytes s t ∧ t.work = s.work ∧ SameOutside s t)

/-- RR (R264): a reserved index is refused, a register holding NOVALUE is the fault ReadNoValue, and otherwise the
register's value is returned and nothing changes. CTRL returns 0. The spec's own decisions (92_eei_decisions.md): R264
is D19. -/
def Obligations.RegisterReadReturns : Prop :=
  ∀ (s : State) (x : BitVec 8),
    (Reg.ofIndex x = none → exec (.rr x) s = .refused (.reservedIndex x)) ∧
    (∀ r, Reg.ofIndex x = some r → readReg s r = none → exec (.rr x) s = .fault (.readNoValue (.reg r))) ∧
    (∀ r v, Reg.ofIndex x = some r → readReg s r = some v → exec (.rr x) s = .next { s with hostData := some v }) ∧
    readReg s .ctrl = some 0

/-- What each register reads as: CTRL 0 (R37), STATUS the code of STATE with the other bits 0 (R38), ERR_KIND the code
of the kind with the other bits 0 (R40), every other register the value it holds. The spec's own decisions
(92_eei_decisions.md): R37 is D21, R38 is D7, R40 is D8. -/
def Obligations.RegisterValues : Prop :=
  ∀ s : State,
    readReg s .ctrl = some 0 ∧
    (readReg s .status = some 0 ↔ s.status = .idle) ∧ (readReg s .status = some 1 ↔ s.status = .busy) ∧
    (readReg s .status = some 2 ↔ s.status = .ok) ∧ (readReg s .status = some 3 ↔ s.status = .err) ∧
    (readReg s .errKind = none ↔ s.errKind = none) ∧
    (readReg s .errKind = some 0 ↔ s.errKind = some .none) ∧
    (readReg s .errKind = some 1 ↔ s.errKind = some .packetTooShort) ∧
    (readReg s .errKind = some 2 ↔ s.errKind = some .invalidPacket) ∧
    (readReg s .errKind = some 3 ↔ s.errKind = some .invalidFrameLength) ∧
    readReg s .inLen = s.inLen ∧ readReg s .errAvail = s.errAvail ∧
    readReg s .toc = s.toc.map BitVec.toNat ∧ readReg s .fch = s.fch.map BitVec.toNat ∧
    readReg s .hdrBytes = s.hdrBytes ∧ readReg s .padOff = s.padOff ∧ readReg s .padLen = s.padLen ∧
    readReg s .padInd = s.padInd ∧
    ∀ i : Fin 48, readReg s (.frameOff i) = s.frameOff[i] ∧ readReg s (.frameLen i) = s.frameLen[i] ∧
      readReg s (.frameSil i) = s.frameSil[i].map BitVec.toNat

/-- NOP has no effect and is accepted in every STATE (R266). The spec's own decisions (92_eei_decisions.md): R266 is
D21. -/
def Obligations.NopHasNoEffect : Prop :=
  ∀ s : State, exec .cmdNop s = .next s

/-- PARSE (R267): refused while BUSY and before any length was written. Otherwise STATE becomes BUSY and every result
and error register NOVALUE, and nothing else changes. The spec's own decisions (92_eei_decisions.md): R267 is D30. -/
def Obligations.ParseStarts : Prop :=
  ∀ s : State,
    ((s.status = .busy ∨ s.inLen = none) → ∃ r, exec .cmdParse s = .refused r) ∧
    (s.status ≠ .busy → s.inLen ≠ none → ∃ t, exec .cmdParse s = .next t ∧ t.status = .busy ∧ NoErrors t ∧
      NoResults t ∧ t.inLen = s.inLen ∧ SameBytes s t ∧ t.work = s.work ∧ SameOutside s t)

/-- CLEAR (R268): refused while BUSY. Otherwise STATE becomes IDLE, every result and error register NOVALUE, IN_BUF
and IN_LEN are kept, and nothing else changes. The spec's own decisions (92_eei_decisions.md): R268 is D21. -/
def Obligations.ClearDropsResult : Prop :=
  ∀ s : State,
    (s.status = .busy → ∃ r, exec .cmdClear s = .refused r) ∧
    (s.status ≠ .busy → ∃ t, exec .cmdClear s = .next t ∧ t.status = .idle ∧ NoErrors t ∧ NoResults t ∧
      t.inLen = s.inLen ∧ SameBytes s t ∧ t.work = s.work ∧ SameOutside s t)

/-- A write to CTRL of 0x03 or of any value with bits 7:2 not all 0 decodes to CMD_RESERVED and is refused in every
STATE (R269). The spec's own decisions (92_eei_decisions.md): R269 is D21. -/
def Obligations.ReservedCommandRefused : Prop :=
  ∀ (s : State) (v : Byte), (v = 0x03#8 ∨ v.toNat / 4 ≠ 0) →
    decode (.access { space := 0#1, dir := 1#1, index := 0, data := some v.toNat }) = .ok (.cmdReserved v) ∧
    exec (.cmdReserved v) s = .refused (.reservedCommand v)

/-- A register write to any index but CTRL and IN_LEN is refused, whatever is written (R265, R51, R52), and a write to
CTRL is the command its value selects (R265, R127). The spec's own decisions (92_eei_decisions.md): R51 is D6, R52 is
D6, R127 is D21, R265 is D6. -/
def Obligations.RegisterWrites : Prop :=
  (∀ (s : State) (x v : Nat), x ≤ 0xFF → x ≠ 0x00 → x ≠ 0x02 →
    ∃ r, hostAccess { space := 0#1, dir := 1#1, index := x, data := some v } s = .refused r) ∧
  ∀ v : Byte, ∃ i, decode (.access { space := 0#1, dir := 1#1, index := 0x00, data := some v.toNat }) = .ok i ∧
    (v = 0x00#8 → i = .cmdNop) ∧ (v = 0x01#8 → i = .cmdParse) ∧ (v = 0x02#8 → i = .cmdClear) ∧
    (3 ≤ v.toNat → i = .cmdReserved v)

/-! ## Frames -/

/-- The frame of the packet fields (TOC0 to PAD_TERM): whatever a field does, the parameters, the schedule, the Host's
value, IN_LEN and every byte of IN_BUF stay (R81). While the parse goes on every register stays, and when it ends
STATE is OK or ERR. -/
def Obligations.PacketFieldFrame : Prop :=
  ∀ (i : Instr) (s t : State), Instr.isPacketField i = true → exec i s = .next t →
    SameOutside s t ∧ t.inLen = s.inLen ∧ SameBytes s t ∧
      ((t.work ≠ none ∧ t.status = s.status ∧ SameResults s t) ∨ (t.work = none ∧ (t.status = .ok ∨ t.status = .err)))

/-- The frame of the reads RB and RR and of NOP: every byte and every register stays (R88, R262, R264, R266). Only
what the Host has read may change, and by NOP not even that. The spec's own decisions (92_eei_decisions.md): R88 is
D20, R262 is D28, R264 is D19, R266 is D21. -/
def Obligations.HostReadFrame : Prop :=
  ∀ (i : Instr) (s t : State), ((∃ a, i = .rb a) ∨ (∃ x, i = .rr x) ∨ i = .cmdNop) → exec i s = .next t →
    SameBytes s t ∧ SameResults s t ∧ t.status = s.status ∧ t.inLen = s.inLen ∧ t.work = s.work ∧
      t.config = s.config ∧ t.pending = s.pending ∧ (i = .cmdNop → t.hostData = s.hostData)

/-- The frame of WB, WR IN_LEN, PARSE and CLEAR: the parameters, the schedule and the Host's value stay, IN_LEN stays
but for WR IN_LEN, every byte stays but the one WB stores, and the result and error registers stay or are cleared. -/
def Obligations.HostWriteFrame : Prop :=
  ∀ (i : Instr) (s t : State),
    ((∃ a v, i = .wb a v) ∨ (∃ n, i = .wrInLen n) ∨ i = .cmdParse ∨ i = .cmdClear) → exec i s = .next t →
    SameOutside s t ∧ t.work = s.work ∧ ((∀ n, i ≠ .wrInLen n) → t.inLen = s.inLen) ∧
      (∀ b, (∀ v, i ≠ .wb b v) → memRead t.inBuf b = memRead s.inBuf b) ∧
      (SameResults s t ∨ (NoErrors t ∧ NoResults t))

/-! ## The whole machine -/

/-- IN_BUF is written only by the Host: a step that changes any byte performs a WB of that byte, or is a reset (R81).
-/
def Obligations.OnlyByteWritesChangeBuffer : Prop :=
  ∀ (s t : State) (b : Nat), step s = .next t → memRead t.inBuf b ≠ memRead s.inBuf b →
    (∃ v rest, s.pending = .access (byteWrite b v) :: rest) ∨ ∃ rest, s.pending = .reset :: rest

/-- While BUSY a Host access changes nothing of the block: what is not refused is a read or a NOP (R91, R323). The
spec's own decisions (92_eei_decisions.md): R91 is D26, R323 is D20. -/
def Obligations.BusyBlockKeepsItsState : Prop :=
  ∀ (s t : State) (a : Access) (rest : List Event), s.status = .busy → s.pending = .access a :: rest →
    step s = .next t → t = { s with pending := rest, hostData := t.hostData }

/-- The parse is total: the Parser step of a BUSY block ends in OK or ERR, or meets a byte of the packet that nobody
wrote. With every byte of the packet written it ends in OK or ERR (R239, R197). Derived by the spec: R197, R239. -/
def Obligations.ParserStepEnds : Prop :=
  ∀ (s : State) (n : Nat), s.status = .busy → s.inLen = some n →
    ((∃ t, parserTurn s = .next t ∧ t.work = none ∧ (t.status = .ok ∨ t.status = .err)) ∨
      ∃ a, a < n ∧ memRead s.inBuf a = none ∧ parserTurn s = .fault (.unwrittenByte a)) ∧
    (PacketWritten s n → ∃ t, parserTurn s = .next t ∧ (t.status = .ok ∨ t.status = .err))

/-- Bytes at addresses from N on do not affect any result (R82, R326). Derived by the spec: R326. -/
def Obligations.BytesBeyondPacketIgnored : Prop :=
  ∀ (s : State) (n : Nat) (m : Memory), s.status = .busy → s.inLen = some n →
    (∀ a, a < n → memRead m a = memRead s.inBuf a) →
    parserTurn { s with inBuf := m } = withBuf m (parserTurn s)

/-- The Parser reads only header bytes (R83, R84): a buffer that agrees below the packet's header end gives the same
outcome, be it OK, ERR or the fault UnwrittenByte, whatever it holds above, even nothing. The header end stands at the
failing check where a parse ends in ERR, and is HDR_BYTES where it ends in OK. The spec's own decisions
(92_eei_decisions.md): R84 is D29. Derived by the spec: R83. -/
def Obligations.OnlyHeaderBytesMatter : Prop :=
  (∀ (s : State) (n : Nat) (m : Memory), s.status = .busy → s.inLen = some n →
    (∀ a, a < headerEnd (memRead s.inBuf) n → memRead m a = memRead s.inBuf a) →
    parserTurn { s with inBuf := m } = withBuf m (parserTurn s)) ∧
  ∀ (s t : State) (n h : Nat), s.status = .busy → s.inLen = some n → parserTurn s = .next t →
    t.hdrBytes = some h → headerEnd (memRead s.inBuf) n = h

/-- Two packets that differ only in TOC[7:2] give results that differ only in the TOC register (R171). -/
def Obligations.ConfigurationPassedThrough : Prop :=
  ∀ (s t : State) (b b' : Byte), s.status = .busy → memRead s.inBuf 0 = some b → tocCode b' = tocCode b →
    parserTurn s = .next t →
    parserTurn { s with inBuf := memWrite s.inBuf 0 b' } =
      .next { t with inBuf := memWrite s.inBuf 0 b', toc := t.toc.map fun _ => b' }

/-- A second PARSE with nothing changed gives the same state (R238, R267). The spec's own decisions
(92_eei_decisions.md): R267 is D30. Derived by the spec: R238. -/
def Obligations.ParseIsIdempotent : Prop :=
  ∀ s t : State, s.status = .busy → parserTurn s = .next t →
    ∃ u, exec .cmdParse t = .next u ∧ parserTurn u = .next t

/-- From any state that meets it, every step keeps the buffer invariant: legal parameters, canonical memory inside the
packet buffer, a legal IN_LEN and no working values between steps (R11, R12, R30, R39, R80). The spec's own decisions
(92_eei_decisions.md): R11 is D4, R12 is D5, R30 is D6, R39 is D6, R80 is D6. -/
def Obligations.StepKeepsBufferInv : Prop :=
  ∀ s t : State, BufferInv s → step s = .next t → BufferInv t

/-- From any state that meets it, every step keeps the result invariant: in each STATE the result and error registers
hold exactly what R54 says, and in OK and ERR it is what Parse gives on IN_BUF and IN_LEN as they stand (R88, R96,
R211). Parse holds the FLEN2 formula, which the spec takes from general knowledge (R152, log entry 12). The spec's own
decisions (92_eei_decisions.md): R54 is D19, R88 is D20. From general knowledge by the spec's own word: R152. -/
def Obligations.StepKeepsResultInv : Prop :=
  ∀ s t : State, ResultInv s → step s = .next t → ResultInv t

/-- The state after reset meets both invariants, for all legal parameters. The parameters of `State.reset` are the
model's choice (log entry 1). -/
def Obligations.ResetIsSafe : Prop :=
  Safe State.reset ∧ ∀ c : Config, c.wf = true → Safe (State.resetWith c)

/-- Which registers hold a value in each STATE (R54). The spec's own decisions (92_eei_decisions.md): R54 is D19. -/
def Obligations.RegisterValidity : Prop :=
  ∀ s : State, ResultInv s →
    readReg s .status ≠ none ∧ readReg s .ctrl = some 0 ∧
    (s.status ≠ .idle → readReg s .inLen ≠ none) ∧
    ((s.status = .idle ∨ s.status = .busy) → readReg s .errKind = none) ∧
    (s.status = .ok → readReg s .errKind = some 0) ∧
    (s.status = .err → readReg s .errKind = some 1 ∨ readReg s .errKind = some 2 ∨ readReg s .errKind = some 3) ∧
    (readReg s .errAvail ≠ none ↔ s.status = .err ∧ readReg s .errKind = some 1) ∧
    (readReg s .toc ≠ none ↔ s.status = .ok) ∧ (readReg s .fch ≠ none ↔ s.status = .ok) ∧
    (readReg s .hdrBytes ≠ none ↔ s.status = .ok) ∧
    (readReg s .padOff ≠ none ↔ s.status = .ok ∧ s.fch.map fchPadFlag = some true) ∧
    (readReg s .padLen ≠ none ↔ s.status = .ok ∧ s.fch.map fchPadFlag = some true) ∧
    (readReg s .padInd ≠ none ↔ s.status = .ok ∧ s.fch.map fchPadFlag = some true) ∧
    ∀ i : Fin 48,
      (readReg s (.frameOff i) ≠ none ↔ s.status = .ok ∧ ∃ f, s.fch = some f ∧ i.val < (fchCount f).toNat) ∧
      (readReg s (.frameLen i) ≠ none ↔ s.status = .ok ∧ ∃ f, s.fch = some f ∧ i.val < (fchCount f).toNat) ∧
      (readReg s (.frameSil i) ≠ none ↔ s.status = .ok ∧ ∃ f, s.fch = some f ∧ i.val < (fchCount f).toNat)

/-- The values after reset (R55). The spec's own decisions (92_eei_decisions.md): R55 is D24. -/
def Obligations.ResetValues : Prop :=
  ∀ c : Config, ∀ s : State, (s = State.reset ∨ s = State.resetWith c) →
    s.status = .idle ∧ readReg s .status = some 0 ∧ readReg s .ctrl = some 0 ∧ s.inLen = none ∧
    (∀ a, memRead s.inBuf a = none) ∧ NoErrors s ∧ NoResults s ∧ s.work = none

/-- Reset may be applied in any STATE: every piece of state takes its reset value and a parse in progress is abandoned
(R320, R55). That the parameters and the events to come stay is the model's choice (log entry 8). The spec's own
decisions (92_eei_decisions.md): R55 is D24, R320 is D24. -/
def Obligations.ResetAtAnyTime : Prop :=
  ∀ (s : State) (rest : List Event), s.pending = .reset :: rest → ∃ t, step s = .next t ∧
    t.status = .idle ∧ t.inLen = none ∧ (∀ a, memRead t.inBuf a = none) ∧ NoErrors t ∧ NoResults t ∧ t.work = none ∧
    t.config = s.config ∧ t.pending = rest

/-! ## Laws of a successful parse -/

/-- Header bytes, frame bytes and padding bytes add up to the packet (R232). A slot without a frame counts 0. Derived
by the spec: R232. -/
def Obligations.PacketLengthAddsUp : Prop :=
  ∀ s : State, ResultInv s → s.status = .ok → ∃ n h, s.inLen = some n ∧ s.hdrBytes = some h ∧
    h + (List.ofFn fun i : Fin 48 => s.frameLen[i].getD 0).sum + s.padLen.getD 0 = n

/-- Frames lie back to back, from HDR_BYTES to N - P (R229). Derived by the spec: R229. -/
def Obligations.FramesBackToBack : Prop :=
  ∀ (s : State) (n : Nat) (f : Byte), ResultInv s → s.status = .ok → s.inLen = some n → s.fch = some f →
    s.frameOff[0] = s.hdrBytes ∧
    (∀ i j : Fin 48, j.val = i.val + 1 → j.val < (fchCount f).toNat → ∃ o l, s.frameOff[i] = some o ∧
      s.frameLen[i] = some l ∧ s.frameOff[j] = some (o + l)) ∧
    ∀ i : Fin 48, i.val + 1 = (fchCount f).toNat → ∃ o l, s.frameOff[i] = some o ∧
      s.frameLen[i] = some l ∧ o + l + s.padLen.getD 0 = n

/-- By frame-count code, the frame count (R233): 1, 2, 2, and 1..48; and the header bytes (R44): 1, 1, one more than
the 1 or 2 bytes of the length field, and for code 3 two bytes, the padding indicators and the length fields, none in
a CBR packet and 1 or 2 bytes each for M - 1 frames in a VBR packet. Derived by the spec: R233. -/
def Obligations.FrameCountAndHeaderByCode : Prop :=
  ∀ (s : State) (b f : Byte) (h m : Nat), ResultInv s → s.status = .ok → s.toc = some b → s.fch = some f →
    s.hdrBytes = some h → m = (fchCount f).toNat →
    (tocCode b = 0#2 → m = 1 ∧ h = 1) ∧ (tocCode b = 1#2 → m = 2 ∧ h = 1) ∧
    (tocCode b = 2#2 → m = 2 ∧ (h = 2 ∨ h = 3)) ∧
    (tocCode b = 3#2 → 1 ≤ m ∧ m ≤ 48 ∧
      (fchVbrFlag f = false → h = 2 + s.padInd.getD 0) ∧
      (fchVbrFlag f = true → 2 + s.padInd.getD 0 + (m - 1) ≤ h ∧ h ≤ 2 + s.padInd.getD 0 + 2 * (m - 1)))

/-- Equal frames: both frames of code 1 have the same length of at least 1 (R234). All frames of a code-3 CBR packet
have the same length and the region divides evenly (R235). Derived by the spec: R234, R235. -/
def Obligations.EqualFrames : Prop :=
  ∀ (s : State) (n h : Nat) (b f : Byte), ResultInv s → s.status = .ok → s.inLen = some n → s.hdrBytes = some h →
    s.toc = some b → s.fch = some f →
    (tocCode b = 1#2 → ∃ l, 1 ≤ l ∧ s.frameLen[0] = some l ∧ s.frameLen[1] = some l) ∧
    (tocCode b = 3#2 → fchVbrFlag f = false →
      (n - h - s.padLen.getD 0) % (fchCount f).toNat = 0 ∧
      ∃ l, ∀ i : Fin 48, i.val < (fchCount f).toNat → s.frameLen[i] = some l)

/-- Padding, when present, is the tail of the packet, and every frame ends at or before it (R236). Derived by the
spec: R236. -/
def Obligations.PaddingIsTail : Prop :=
  ∀ (s : State) (n o p : Nat), ResultInv s → s.status = .ok → s.inLen = some n → s.padOff = some o →
    s.padLen = some p → o = n - p ∧ p ≤ n ∧ o ≤ n ∧
      ∀ (i : Fin 48) (fo fl : Nat), s.frameOff[i] = some fo → s.frameLen[i] = some fl → fo + fl ≤ o

/-- FRAME_SIL[i]: in OK, for i below the frame count, 1 exactly when FRAME_LEN[i] is 0, with the other bits 0 (R50,
R228), and NOVALUE for every other i and in every other STATE. The spec's own decisions (92_eei_decisions.md): R228 is
D17. -/
def Obligations.SilenceFlagIffEmpty : Prop :=
  ∀ (s : State) (i : Fin 48), ResultInv s →
    (s.status = .ok → ∃ f, s.fch = some f ∧
      (i.val < (fchCount f).toNat →
        ∃ l, s.frameLen[i] = some l ∧ s.frameSil[i] = some (if l = 0 then 1#8 else 0#8)) ∧
      ((fchCount f).toNat ≤ i.val → s.frameSil[i] = none)) ∧
    (s.status ≠ .ok → s.frameSil[i] = none)

/-- TOC holds byte 0 of the packet (R42). FCH holds byte 1 for code 3, else the frame count with both flags 0 (R43).
In every other STATE both hold NOVALUE. The spec's own decisions (92_eei_decisions.md): R43 is D16. -/
def Obligations.TocAndFchRegisters : Prop :=
  ∀ s : State, ResultInv s →
    (s.status = .ok → ∃ b f, s.toc = some b ∧ s.fch = some f ∧ memRead s.inBuf 0 = some b ∧
      (tocCode b = 0#2 → f = 1#8) ∧ (tocCode b = 1#2 → f = 2#8) ∧ (tocCode b = 2#2 → f = 2#8) ∧
      (tocCode b = 3#2 → memRead s.inBuf 1 = some f)) ∧
    (s.status ≠ .ok → s.toc = none ∧ s.fch = none)

/-- Every offset, length and count register holds a value below 2^LEN_W (R12). The spec's own decisions
(92_eei_decisions.md): R12 is D5. -/
def Obligations.ValuesFitLenW : Prop :=
  ∀ (s : State) (r : Reg) (v : Nat), Safe s → (∀ i, r ≠ .frameSil i) → r ≠ .ctrl → r ≠ .status → r ≠ .errKind →
    r ≠ .toc → r ≠ .fch → readReg s r = some v → v < 2 ^ s.config.lenW

/-! ## Padding and headers, over the whole Parser step -/

/-- A padding chain without a terminal byte fails with PacketTooShort(N - 2) (R193). A chain of j bytes 255 and a
terminal byte x is P = 254 * j + x padding bytes in k = j + 1 indicator bytes (R116, R190): when k + P exceeds N - 2
the parse fails with PacketTooShort(N - 2) (R194), and when it succeeds the padding registers hold N - P, P and k. -/
def Obligations.PaddingChains : Prop :=
  ∀ (s : State) (n : Nat) (b f : Byte), s.status = .busy → s.inLen = some n → 2 ≤ n → memRead s.inBuf 0 = some b →
    tocCode b = 3#2 → memRead s.inBuf 1 = some f → legalCount (fchCount f) = true → fchPadFlag f = true →
    ((∀ a, 2 ≤ a → a < n → memRead s.inBuf a = some 0xFF#8) →
      ∃ t, parserTurn s = .next t ∧ EndsErr (.packetTooShort (n - 2)) s t) ∧
    ∀ (j : Nat) (x : Byte), 2 + j < n → (∀ a, 2 ≤ a → a < 2 + j → memRead s.inBuf a = some 0xFF#8) →
      memRead s.inBuf (2 + j) = some x → x ≠ 0xFF#8 →
      (n - 2 < j + 1 + (254 * j + x.toNat) →
        ∃ t, parserTurn s = .next t ∧ EndsErr (.packetTooShort (n - 2)) s t) ∧
      (j + 1 + (254 * j + x.toNat) ≤ n - 2 → ∀ t, parserTurn s = .next t → t.status = .ok →
        t.padInd = some (j + 1) ∧ t.padLen = some (254 * j + x.toNat) ∧
          t.padOff = some (n - (254 * j + x.toNat)))

/-- A code-3 packet whose count is 0 or 49..63 fails with InvalidPacket, whatever its flags and however many bytes
follow (R174). -/
def Obligations.IllegalCountAlwaysFails : Prop :=
  ∀ (s : State) (n : Nat) (b f : Byte), s.status = .busy → s.inLen = some n → 2 ≤ n → memRead s.inBuf 0 = some b →
    tocCode b = 3#2 → memRead s.inBuf 1 = some f →
    ((fchCount f).toNat = 0 ∨ (49 ≤ (fchCount f).toNat ∧ (fchCount f).toNat ≤ 63)) →
    ∃ t, parserTurn s = .next t ∧ EndsErr .invalidPacket s t

/-- LOADPKT (R129, R322): performed in a block that is not BUSY, on a packet that fits, its accesses leave the packet
in IN_BUF from address 0, its length in IN_LEN, the bytes above as they were and the block IDLE. The spec's own
decisions (92_eei_decisions.md): R129 is D28, R322 is D31. -/
def Obligations.LoadPktLoads : Prop :=
  ∀ (s : State) (bytes : List Byte) (rest : List Event), s.status ≠ .busy → bytes.length ≤ s.config.pktCap →
    s.pending = (pseudoLoadPkt bytes).map Event.access ++ rest →
    ∃ t, core.run (bytes.length + 1) s = .next t ∧ t.inLen = some bytes.length ∧ t.status = .idle ∧
      (∀ a, a < bytes.length → memRead t.inBuf a = bytes[a]?) ∧
      (∀ a, bytes.length ≤ a → memRead t.inBuf a = memRead s.inBuf a) ∧
      t.pending = rest ∧ t.config = s.config ∧ t.hostData = s.hostData
end

