-- ==== Sys2Proof/Laws/Codec.lean ====
section
/-! SUPPORT. The bit fields of TOC, FCH and FLEN bytes: taking a byte apart after putting it together, and the
arithmetic reading of the patterns. -/

namespace Sys2Proof

@[simp] theorem tocCode_tocByte (c : BitVec 5) (s : Bool) (k : BitVec 2) : tocCode (tocByte c s k) = k := by
  revert c s k; decide

@[simp] theorem tocConfig_tocByte (c : BitVec 5) (s : Bool) (k : BitVec 2) : tocConfig (tocByte c s k) = c := by
  revert c s k; decide

@[simp] theorem tocStereo_tocByte (c : BitVec 5) (s : Bool) (k : BitVec 2) : tocStereo (tocByte c s k) = s := by
  revert c s k; decide

/-- A TOC byte is its fields put together. -/
theorem tocByte_fields (b : Byte) : tocByte (tocConfig b) (tocStereo b) (tocCode b) = b := by
  revert b; decide

@[simp] theorem fchCount_fchByte (p v : Bool) (m : BitVec 6) : fchCount (fchByte p v m) = m := by
  revert p v m; decide

@[simp] theorem fchVbrFlag_fchByte (p v : Bool) (m : BitVec 6) : fchVbrFlag (fchByte p v m) = v := by
  revert p v m; decide

@[simp] theorem fchPadFlag_fchByte (p v : Bool) (m : BitVec 6) : fchPadFlag (fchByte p v m) = p := by
  revert p v m; decide

/-- A frame-count header is its fields put together. -/
theorem fchByte_fields (b : Byte) : fchByte (fchPadFlag b) (fchVbrFlag b) (fchCount b) = b := by
  revert b; decide

/-- The mask of FLEN2 picks out the first bytes 252..255 (R114). -/
theorem flenIsLong_iff (b : Byte) : flenIsLong b = true ↔ 252 ≤ b.toNat := by
  revert b; decide

/-- The pattern of FLEN2 as a number (R117). -/
theorem flen2_low_bits (b : Byte) (h : 252 ≤ b.toNat) : 252 + (b.extractLsb' 0 2).toNat = b.toNat := by
  revert b; decide

/-- The five FCH_ILLEGAL patterns together are exactly the counts 0 and 49..63 (R121). -/
theorem decodeFch_legal (b : Byte) (h : 1 ≤ (fchCount b).toNat ∧ (fchCount b).toNat ≤ 48) :
    decodeFch b =
      if fchVbrFlag b then .fchVbr (fchPadFlag b) (fchCount b) else .fchCbr (fchPadFlag b) (fchCount b) := by
  revert b; decide

/-- The five mask and match pairs of R121 cover the counts 0 and 49..63. -/
theorem illegalCount_masks (b : Byte) (h : (fchCount b).toNat = 0 ∨ 48 < (fchCount b).toNat) :
    b &&& 0x3F#8 = 0x00#8 ∨ b &&& 0x3F#8 = 0x31#8 ∨ b &&& 0x3E#8 = 0x32#8 ∨ b &&& 0x3C#8 = 0x34#8 ∨
      b &&& 0x38#8 = 0x38#8 := by
  revert b; decide

/-- A byte of an illegal count decodes to one of the five FCH_ILLEGAL forms (R121, R174). -/
theorem decodeFch_illegal (b : Byte) (h : (fchCount b).toNat = 0 ∨ 48 < (fchCount b).toNat) :
    (∃ p v, decodeFch b = .fchIllegal0 p v) ∨ (∃ p v, decodeFch b = .fchIllegal49 p v) ∨
      (∃ p v x, decodeFch b = .fchIllegal50 p v x) ∨ (∃ p v x, decodeFch b = .fchIllegal52 p v x) ∨
      (∃ p v x, decodeFch b = .fchIllegal56 p v x) := by
  unfold decodeFch
  split
  · exact .inl ⟨_, _, rfl⟩
  · split
    · exact .inr (.inl ⟨_, _, rfl⟩)
    · split
      · exact .inr (.inr (.inl ⟨_, _, _, rfl⟩))
      · split
        · exact .inr (.inr (.inr (.inl ⟨_, _, _, rfl⟩)))
        · split
          · exact .inr (.inr (.inr (.inr ⟨_, _, _, rfl⟩)))
          · next h0 h1 h2 h3 h4 => rcases illegalCount_masks b h with h | h | h | h | h <;> contradiction

/-! ### One field of each format -/

@[simp] theorem decode_toc (b : Byte) : decode (.packet .toc [b]) = .ok (decodeToc b) := rfl

@[simp] theorem decode_fch (b : Byte) : decode (.packet .fch [b]) = .ok (decodeFch b) := rfl

@[simp] theorem decode_padind (b : Byte) : decode (.packet .padind [b]) = .ok (decodePadind b) := rfl

/-- A first byte up to 251 is a whole frame length (R118). -/
theorem decode_flen_short (b : Byte) (h : b.toNat ≤ 251) : decode (.packet .flen [b]) = .ok (.flen1 b) := by
  have : flenIsLong b = false := by
    rw [Bool.eq_false_iff, Ne, flenIsLong_iff]; omega
  simp [decode, decodeField, this]

/-- A first byte from 252 on takes the second byte with it (R118). -/
theorem decode_flen_long (b0 b1 : Byte) (h : 252 ≤ b0.toNat) :
    decode (.packet .flen [b0, b1]) = .ok (.flen2 (b0.extractLsb' 0 2) b1) := by
  have : flenIsLong b0 = true := (flenIsLong_iff b0).2 h
  simp [decode, decodeField, this]

end Sys2Proof
end

