-- ==== Sys2Proof/Laws/HeaderEnd.lean ====
section
/-! SUPPORT. The header end of a packet (20_memory.md R83) never lies before the byte it is counted from. -/

namespace Sys2Proof.Machine

theorem le_lengthFieldsEnd (mem : Nat → Option Byte) (stop count : Nat) :
    ∀ pos, pos ≤ lengthFieldsEnd mem stop count pos := by
  induction count with
  | zero => intro pos; exact le_refl _
  | succ count ih =>
    intro pos
    have h1 := ih (pos + 1)
    have h2 := ih (pos + 2)
    rw [lengthFieldsEnd]
    split
    · exact le_refl _
    · split
      · omega
      · split
        · omega
        · split
          · omega
          · split <;> omega

theorem le_regionHeaderEnd (mem : Nat → Option Byte) (fch : Byte) (pos stop : Nat) :
    pos ≤ regionHeaderEnd mem fch pos stop := by
  unfold regionHeaderEnd
  split
  · exact le_lengthFieldsEnd _ _ _ _
  · exact le_refl _

theorem le_chainHeaderEnd (mem : Nat → Option Byte) (n : Nat) (fch : Byte) (left : Nat) :
    ∀ pos p, pos ≤ chainHeaderEnd mem n fch left pos p := by
  induction left with
  | zero => intro pos p; exact le_refl _
  | succ left ih =>
    intro pos p
    rw [chainHeaderEnd]
    split
    · exact le_refl _
    · split
      · omega
      · next x _ =>
        split
        · have := ih (pos + 1) (p + 254); omega
        · split
          · omega
          · have := le_regionHeaderEnd mem fch (pos + 1) (n - (p + x.toNat)); omega

end Sys2Proof.Machine
end

