-- ==== Sys2Proof/Laws/Memory.lean ====
section
/-! SUPPORT. The laws of IN_BUF: a read after a write, and the canonical form every operation keeps. -/

namespace Sys2Proof.Machine

@[simp] theorem memRead_nil (a : Nat) : memRead [] a = none := rfl

/-- A read of the address written gives the value written. -/
@[simp] theorem memRead_memWrite_same (m : Memory) (a : Nat) (v : Byte) : memRead (memWrite m a v) a = some v := by
  induction m with
  | nil => simp [memWrite, memRead]
  | cons c rest ih =>
    obtain ⟨b, w⟩ := c
    simp only [memWrite]
    split
    · simp [memRead]
    · split
      · simp [memRead]
      · next h => simp [memRead, ih, Ne.symm h]

/-- A write leaves every other address alone. -/
theorem memRead_memWrite_other (m : Memory) {a b : Nat} (v : Byte) (h : b ≠ a) :
    memRead (memWrite m a v) b = memRead m b := by
  induction m with
  | nil => simp [memWrite, memRead, Ne.symm h]
  | cons c rest ih =>
    obtain ⟨x, w⟩ := c
    simp only [memWrite]
    split
    · simp [memRead, Ne.symm h]
    · split
      · next hx => subst hx; simp [memRead, Ne.symm h]
      · simp [memRead, ih]

theorem memRead_memWrite (m : Memory) (a b : Nat) (v : Byte) :
    memRead (memWrite m a v) b = if b = a then some v else memRead m b := by
  split
  · next h => subst h; simp
  · next h => exact memRead_memWrite_other m v h

/-- The canonical form does not depend on a lower bound that still lies below. -/
theorem memRises_mono {lo lo' : Nat} (m : Memory) (h : lo' ≤ lo) (hm : memRises lo m = true) :
    memRises lo' m = true := by
  cases m with
  | nil => rfl
  | cons c rest =>
    simp only [memRises, Bool.and_eq_true, decide_eq_true_eq] at hm ⊢
    exact ⟨le_trans h hm.1, hm.2⟩

theorem memRises_memWrite {lo : Nat} (m : Memory) (a : Nat) (v : Byte) (ha : lo ≤ a) (hm : memRises lo m = true) :
    memRises lo (memWrite m a v) = true := by
  induction m generalizing lo with
  | nil => simpa [memWrite, memRises] using ha
  | cons c rest ih =>
    obtain ⟨b, w⟩ := c
    simp only [memRises, Bool.and_eq_true, decide_eq_true_eq] at hm
    simp only [memWrite]
    split
    · next hb =>
      simp only [memRises, Bool.and_eq_true, decide_eq_true_eq]
      exact ⟨ha, hb, hm.2⟩
    · split
      · next hb =>
        subst hb
        simpa [memRises, ha] using hm.2
      · next h1 h2 =>
        simp only [memRises, Bool.and_eq_true, decide_eq_true_eq]
        exact ⟨hm.1, ih (by omega) hm.2⟩

/-- A write keeps the canonical form. -/
theorem memWf_memWrite (m : Memory) (a : Nat) (v : Byte) (hm : memWf m = true) : memWf (memWrite m a v) = true :=
  memRises_memWrite m a v (Nat.zero_le a) hm

/-- A write inside the packet buffer keeps the memory inside it. -/
theorem memBelow_memWrite (cap : Nat) (m : Memory) (a : Nat) (v : Byte) (ha : a < cap) (hm : memBelow cap m = true) :
    memBelow cap (memWrite m a v) = true := by
  induction m with
  | nil => simpa [memWrite, memBelow] using ha
  | cons c rest ih =>
    obtain ⟨b, w⟩ := c
    simp only [memBelow, List.all_cons, Bool.and_eq_true, decide_eq_true_eq] at hm ih
    simp only [memWrite]
    split
    · simpa [memBelow, ha, hm.1] using hm.2
    · split
      · simpa [memBelow, ha] using hm.2
      · simpa [memBelow, hm.1] using ih hm.2

/-- Writing consecutive bytes keeps the canonical form. -/
theorem memWf_memWriteAll (l : List Byte) : ∀ (m : Memory) (a : Nat), memWf m = true → memWf (memWriteAll m a l) = true := by
  induction l with
  | nil => intro m a h; exact h
  | cons v rest ih => intro m a h; exact ih _ _ (memWf_memWrite m a v h)

/-- A read after writing consecutive bytes. -/
theorem memRead_memWriteAll (l : List Byte) : ∀ (m : Memory) (a b : Nat),
    memRead (memWriteAll m a l) b = if b < a then memRead m b else (l[b - a]?).or (memRead m b) := by
  induction l with
  | nil => intro m a b; simp [memWriteAll]
  | cons v rest ih =>
    intro m a b
    rw [memWriteAll, ih, memRead_memWrite]
    rcases Nat.lt_trichotomy b a with h | h | h
    · have h1 : b < a + 1 := by omega
      have h2 : b ≠ a := by omega
      simp [h, h1, h2]
    · subst h; simp
    · have h1 : ¬ b < a + 1 := by omega
      have h2 : ¬ b < a := by omega
      have h3 : b ≠ a := by omega
      obtain ⟨k, rfl⟩ : ∃ k, b = a + 1 + k := ⟨b - (a + 1), by omega⟩
      have h4 : a + 1 + k - (a + 1) = k := by omega
      have h5 : a + 1 + k - a = k + 1 := by omega
      simp [h1, h2, h3, h4, h5]

/-- A listed address reads as its byte, and an address below the lower bound is not listed. -/
theorem memRead_below {lo a : Nat} (m : Memory) (hm : memRises lo m = true) (h : a < lo) : memRead m a = none := by
  induction m generalizing lo with
  | nil => rfl
  | cons c rest ih =>
    obtain ⟨b, w⟩ := c
    simp only [memRises, Bool.and_eq_true, decide_eq_true_eq] at hm
    have hb : b ≠ a := by omega
    simpa [memRead, hb] using ih hm.2 (by omega)

/-- Canonical memories that read alike are the same data. -/
theorem memory_ext (m m' : Memory) (hm : memWf m = true) (hm' : memWf m' = true)
    (h : ∀ a, memRead m a = memRead m' a) : m = m' := by
  suffices H : ∀ (lo : Nat) (m m' : Memory), memRises lo m = true → memRises lo m' = true →
      (∀ a, memRead m a = memRead m' a) → m = m' from H 0 m m' hm hm' h
  intro lo m
  induction m generalizing lo with
  | nil =>
    intro m' _ _ h
    cases m' with
    | nil => rfl
    | cons c rest => simpa [memRead] using h c.1
  | cons c rest ih =>
    obtain ⟨b, w⟩ := c
    intro m' hm hm' h
    cases m' with
    | nil => simpa [memRead] using h b
    | cons c' rest' =>
      obtain ⟨b', w'⟩ := c'
      simp only [memRises, Bool.and_eq_true, decide_eq_true_eq] at hm hm'
      have hbb : b = b' := by
        rcases Nat.lt_trichotomy b b' with hlt | heq | hgt
        · have hb := h b
          have hb2 : b' ≠ b := by omega
          simp [memRead, hb2, memRead_below rest' hm'.2 (a := b) (by omega)] at hb
        · exact heq
        · have hb := h b'
          have hb2 : b ≠ b' := by omega
          simp [memRead, hb2, memRead_below rest hm.2 (a := b') (by omega)] at hb
      subst hbb
      have hw : w = w' := by simpa [memRead] using h b
      subst hw
      congr 1
      apply ih (b + 1) rest' hm.2 hm'.2
      intro a
      by_cases ha : b = a
      · subst ha
        rw [memRead_below rest hm.2 (by omega), memRead_below rest' hm'.2 (by omega)]
      · simpa [memRead, ha] using h a

end Sys2Proof.Machine
end

