-- ==== Sys2Proof/Laws/State.lean ====
section
/-! SUPPORT. What each field is after each named update of the state: the lemmas that spare every later proof the
unfolding of a record update. -/

namespace Sys2Proof.Machine

/-! ### clearResults -/

@[simp] theorem clearResults_config (s : State) : (clearResults s).config = s.config := rfl
@[simp] theorem clearResults_inBuf (s : State) : (clearResults s).inBuf = s.inBuf := rfl
@[simp] theorem clearResults_status (s : State) : (clearResults s).status = s.status := rfl
@[simp] theorem clearResults_inLen (s : State) : (clearResults s).inLen = s.inLen := rfl
@[simp] theorem clearResults_errKind (s : State) : (clearResults s).errKind = none := rfl
@[simp] theorem clearResults_errAvail (s : State) : (clearResults s).errAvail = none := rfl
@[simp] theorem clearResults_toc (s : State) : (clearResults s).toc = none := rfl
@[simp] theorem clearResults_fch (s : State) : (clearResults s).fch = none := rfl
@[simp] theorem clearResults_hdrBytes (s : State) : (clearResults s).hdrBytes = none := rfl
@[simp] theorem clearResults_padOff (s : State) : (clearResults s).padOff = none := rfl
@[simp] theorem clearResults_padLen (s : State) : (clearResults s).padLen = none := rfl
@[simp] theorem clearResults_padInd (s : State) : (clearResults s).padInd = none := rfl
@[simp] theorem clearResults_frameOff (s : State) : (clearResults s).frameOff = noSlots Nat := rfl
@[simp] theorem clearResults_frameLen (s : State) : (clearResults s).frameLen = noSlots Nat := rfl
@[simp] theorem clearResults_frameSil (s : State) : (clearResults s).frameSil = noSlots Byte := rfl
@[simp] theorem clearResults_work (s : State) : (clearResults s).work = s.work := rfl
@[simp] theorem clearResults_pending (s : State) : (clearResults s).pending = s.pending := rfl
@[simp] theorem clearResults_hostData (s : State) : (clearResults s).hostData = s.hostData := rfl

/-! ### recordOk -/

@[simp] theorem recordOk_config (p : Parsed) (s : State) : (recordOk p s).config = s.config := rfl
@[simp] theorem recordOk_inBuf (p : Parsed) (s : State) : (recordOk p s).inBuf = s.inBuf := rfl
@[simp] theorem recordOk_status (p : Parsed) (s : State) : (recordOk p s).status = .ok := rfl
@[simp] theorem recordOk_inLen (p : Parsed) (s : State) : (recordOk p s).inLen = s.inLen := rfl
@[simp] theorem recordOk_errKind (p : Parsed) (s : State) : (recordOk p s).errKind = some .none := rfl
@[simp] theorem recordOk_errAvail (p : Parsed) (s : State) : (recordOk p s).errAvail = none := rfl
@[simp] theorem recordOk_toc (p : Parsed) (s : State) : (recordOk p s).toc = some p.toc := rfl
@[simp] theorem recordOk_fch (p : Parsed) (s : State) : (recordOk p s).fch = some p.fch := rfl
@[simp] theorem recordOk_hdrBytes (p : Parsed) (s : State) : (recordOk p s).hdrBytes = some p.hdr := rfl
@[simp] theorem recordOk_padOff (p : Parsed) (s : State) : (recordOk p s).padOff = p.pad.map Pad.off := rfl
@[simp] theorem recordOk_padLen (p : Parsed) (s : State) : (recordOk p s).padLen = p.pad.map Pad.len := rfl
@[simp] theorem recordOk_padInd (p : Parsed) (s : State) : (recordOk p s).padInd = p.pad.map Pad.ind := rfl
@[simp] theorem recordOk_frameOff (p : Parsed) (s : State) : (recordOk p s).frameOff = slotsOf p.frames Frame.off := rfl
@[simp] theorem recordOk_frameLen (p : Parsed) (s : State) : (recordOk p s).frameLen = slotsOf p.frames Frame.len := rfl
@[simp] theorem recordOk_frameSil (p : Parsed) (s : State) : (recordOk p s).frameSil = slotsOf p.frames fun f => silByte f.len := rfl
@[simp] theorem recordOk_work (p : Parsed) (s : State) : (recordOk p s).work = none := rfl
@[simp] theorem recordOk_pending (p : Parsed) (s : State) : (recordOk p s).pending = s.pending := rfl
@[simp] theorem recordOk_hostData (p : Parsed) (s : State) : (recordOk p s).hostData = s.hostData := rfl

/-! ### recordError -/

@[simp] theorem recordError_config (e : ParseError) (s : State) : (recordError e s).config = s.config := rfl
@[simp] theorem recordError_inBuf (e : ParseError) (s : State) : (recordError e s).inBuf = s.inBuf := rfl
@[simp] theorem recordError_status (e : ParseError) (s : State) : (recordError e s).status = .err := rfl
@[simp] theorem recordError_inLen (e : ParseError) (s : State) : (recordError e s).inLen = s.inLen := rfl
@[simp] theorem recordError_errKind (e : ParseError) (s : State) : (recordError e s).errKind = some e.kind := rfl
@[simp] theorem recordError_errAvail (e : ParseError) (s : State) : (recordError e s).errAvail = e.avail := rfl
@[simp] theorem recordError_toc (e : ParseError) (s : State) : (recordError e s).toc = none := rfl
@[simp] theorem recordError_fch (e : ParseError) (s : State) : (recordError e s).fch = none := rfl
@[simp] theorem recordError_hdrBytes (e : ParseError) (s : State) : (recordError e s).hdrBytes = none := rfl
@[simp] theorem recordError_padOff (e : ParseError) (s : State) : (recordError e s).padOff = none := rfl
@[simp] theorem recordError_padLen (e : ParseError) (s : State) : (recordError e s).padLen = none := rfl
@[simp] theorem recordError_padInd (e : ParseError) (s : State) : (recordError e s).padInd = none := rfl
@[simp] theorem recordError_frameOff (e : ParseError) (s : State) : (recordError e s).frameOff = noSlots Nat := rfl
@[simp] theorem recordError_frameLen (e : ParseError) (s : State) : (recordError e s).frameLen = noSlots Nat := rfl
@[simp] theorem recordError_frameSil (e : ParseError) (s : State) : (recordError e s).frameSil = noSlots Byte := rfl
@[simp] theorem recordError_work (e : ParseError) (s : State) : (recordError e s).work = none := rfl
@[simp] theorem recordError_pending (e : ParseError) (s : State) : (recordError e s).pending = s.pending := rfl
@[simp] theorem recordError_hostData (e : ParseError) (s : State) : (recordError e s).hostData = s.hostData := rfl

/-! ### applyReset -/

@[simp] theorem applyReset_config (s : State) : (applyReset s).config = s.config := rfl
@[simp] theorem applyReset_inBuf (s : State) : (applyReset s).inBuf = [] := rfl
@[simp] theorem applyReset_status (s : State) : (applyReset s).status = .idle := rfl
@[simp] theorem applyReset_inLen (s : State) : (applyReset s).inLen = none := rfl
@[simp] theorem applyReset_errKind (s : State) : (applyReset s).errKind = none := rfl
@[simp] theorem applyReset_errAvail (s : State) : (applyReset s).errAvail = none := rfl
@[simp] theorem applyReset_toc (s : State) : (applyReset s).toc = none := rfl
@[simp] theorem applyReset_fch (s : State) : (applyReset s).fch = none := rfl
@[simp] theorem applyReset_hdrBytes (s : State) : (applyReset s).hdrBytes = none := rfl
@[simp] theorem applyReset_padOff (s : State) : (applyReset s).padOff = none := rfl
@[simp] theorem applyReset_padLen (s : State) : (applyReset s).padLen = none := rfl
@[simp] theorem applyReset_padInd (s : State) : (applyReset s).padInd = none := rfl
@[simp] theorem applyReset_frameOff (s : State) : (applyReset s).frameOff = noSlots Nat := rfl
@[simp] theorem applyReset_frameLen (s : State) : (applyReset s).frameLen = noSlots Nat := rfl
@[simp] theorem applyReset_frameSil (s : State) : (applyReset s).frameSil = noSlots Byte := rfl
@[simp] theorem applyReset_work (s : State) : (applyReset s).work = none := rfl
@[simp] theorem applyReset_pending (s : State) : (applyReset s).pending = s.pending := rfl
@[simp] theorem applyReset_hostData (s : State) : (applyReset s).hostData = s.hostData := rfl

/-! ### returnToHost -/

@[simp] theorem returnToHost_config (v : Nat) (s : State) : (returnToHost v s).config = s.config := rfl
@[simp] theorem returnToHost_inBuf (v : Nat) (s : State) : (returnToHost v s).inBuf = s.inBuf := rfl
@[simp] theorem returnToHost_status (v : Nat) (s : State) : (returnToHost v s).status = s.status := rfl
@[simp] theorem returnToHost_inLen (v : Nat) (s : State) : (returnToHost v s).inLen = s.inLen := rfl
@[simp] theorem returnToHost_errKind (v : Nat) (s : State) : (returnToHost v s).errKind = s.errKind := rfl
@[simp] theorem returnToHost_errAvail (v : Nat) (s : State) : (returnToHost v s).errAvail = s.errAvail := rfl
@[simp] theorem returnToHost_toc (v : Nat) (s : State) : (returnToHost v s).toc = s.toc := rfl
@[simp] theorem returnToHost_fch (v : Nat) (s : State) : (returnToHost v s).fch = s.fch := rfl
@[simp] theorem returnToHost_hdrBytes (v : Nat) (s : State) : (returnToHost v s).hdrBytes = s.hdrBytes := rfl
@[simp] theorem returnToHost_padOff (v : Nat) (s : State) : (returnToHost v s).padOff = s.padOff := rfl
@[simp] theorem returnToHost_padLen (v : Nat) (s : State) : (returnToHost v s).padLen = s.padLen := rfl
@[simp] theorem returnToHost_padInd (v : Nat) (s : State) : (returnToHost v s).padInd = s.padInd := rfl
@[simp] theorem returnToHost_frameOff (v : Nat) (s : State) : (returnToHost v s).frameOff = s.frameOff := rfl
@[simp] theorem returnToHost_frameLen (v : Nat) (s : State) : (returnToHost v s).frameLen = s.frameLen := rfl
@[simp] theorem returnToHost_frameSil (v : Nat) (s : State) : (returnToHost v s).frameSil = s.frameSil := rfl
@[simp] theorem returnToHost_work (v : Nat) (s : State) : (returnToHost v s).work = s.work := rfl
@[simp] theorem returnToHost_pending (v : Nat) (s : State) : (returnToHost v s).pending = s.pending := rfl
@[simp] theorem returnToHost_hostData (v : Nat) (s : State) : (returnToHost v s).hostData = some v := rfl

/-! ### placePacket -/

@[simp] theorem placePacket_config (l : List Byte) (s : State) : (placePacket l s).config = s.config := rfl
@[simp] theorem placePacket_inBuf (l : List Byte) (s : State) : (placePacket l s).inBuf = memWriteAll s.inBuf 0 l := rfl
@[simp] theorem placePacket_status (l : List Byte) (s : State) : (placePacket l s).status = .busy := rfl
@[simp] theorem placePacket_inLen (l : List Byte) (s : State) : (placePacket l s).inLen = some l.length := rfl
@[simp] theorem placePacket_errKind (l : List Byte) (s : State) : (placePacket l s).errKind = none := rfl
@[simp] theorem placePacket_errAvail (l : List Byte) (s : State) : (placePacket l s).errAvail = none := rfl
@[simp] theorem placePacket_toc (l : List Byte) (s : State) : (placePacket l s).toc = none := rfl
@[simp] theorem placePacket_fch (l : List Byte) (s : State) : (placePacket l s).fch = none := rfl
@[simp] theorem placePacket_hdrBytes (l : List Byte) (s : State) : (placePacket l s).hdrBytes = none := rfl
@[simp] theorem placePacket_padOff (l : List Byte) (s : State) : (placePacket l s).padOff = none := rfl
@[simp] theorem placePacket_padLen (l : List Byte) (s : State) : (placePacket l s).padLen = none := rfl
@[simp] theorem placePacket_padInd (l : List Byte) (s : State) : (placePacket l s).padInd = none := rfl
@[simp] theorem placePacket_frameOff (l : List Byte) (s : State) : (placePacket l s).frameOff = noSlots Nat := rfl
@[simp] theorem placePacket_frameLen (l : List Byte) (s : State) : (placePacket l s).frameLen = noSlots Nat := rfl
@[simp] theorem placePacket_frameSil (l : List Byte) (s : State) : (placePacket l s).frameSil = noSlots Byte := rfl
@[simp] theorem placePacket_work (l : List Byte) (s : State) : (placePacket l s).work = none := rfl
@[simp] theorem placePacket_pending (l : List Byte) (s : State) : (placePacket l s).pending = .parser :: s.pending := rfl
@[simp] theorem placePacket_hostData (l : List Byte) (s : State) : (placePacket l s).hostData = s.hostData := rfl

/-! ### packetChanged -/

theorem packetChanged_of_ok (s : State) (h : s.status = .ok) :
    packetChanged s = { clearResults s with status := .idle } := by
  simp [packetChanged, h]
theorem packetChanged_of_err (s : State) (h : s.status = .err) :
    packetChanged s = { clearResults s with status := .idle } := by
  simp [packetChanged, h]
theorem packetChanged_of_idle (s : State) (h : s.status = .idle) : packetChanged s = s := by
  simp [packetChanged, h]
theorem packetChanged_of_busy (s : State) (h : s.status = .busy) : packetChanged s = s := by
  simp [packetChanged, h]
@[simp] theorem packetChanged_config (s : State) : (packetChanged s).config = s.config := by
  cases h : s.status <;> simp [packetChanged, h]
@[simp] theorem packetChanged_inBuf (s : State) : (packetChanged s).inBuf = s.inBuf := by
  cases h : s.status <;> simp [packetChanged, h]
@[simp] theorem packetChanged_inLen (s : State) : (packetChanged s).inLen = s.inLen := by
  cases h : s.status <;> simp [packetChanged, h]
@[simp] theorem packetChanged_work (s : State) : (packetChanged s).work = s.work := by
  cases h : s.status <;> simp [packetChanged, h]
@[simp] theorem packetChanged_pending (s : State) : (packetChanged s).pending = s.pending := by
  cases h : s.status <;> simp [packetChanged, h]
@[simp] theorem packetChanged_hostData (s : State) : (packetChanged s).hostData = s.hostData := by
  cases h : s.status <;> simp [packetChanged, h]

/-- After a packet write outside BUSY the block is IDLE. -/
theorem packetChanged_status (s : State) (h : s.status ≠ .busy) : (packetChanged s).status = .idle := by
  cases hs : s.status <;> simp_all [packetChanged]

/-! ### Slot files -/

@[simp] theorem noSlots_getElem {α : Type} (i : Nat) (h : i < maxFrames) : (noSlots α)[i] = none := by
  simp [noSlots]

@[simp] theorem slotsOf_getElem {α : Type} (frames : List Frame) (f : Frame → α) (i : Nat) (h : i < maxFrames) :
    (slotsOf frames f)[i] = (frames[i]?).map f := by
  simp [slotsOf]

end Sys2Proof.Machine
end

