-- ==== Sys2Proof/Laws/Operations.lean ====
section
/-! SUPPORT. For each shared operation of the machine, what it can do, said once: later proofs cite these lemmas and do
not unfold the operations. -/

namespace Sys2Proof.Machine

/-! ### inPlace, goOn, raise, finish -/

/-- A field in its place runs its meaning. -/
theorem inPlace_of {f : Field} {s : State} {n : Nat} {w : Work} (h : AtField f s n w)
    (k : Nat → Work → Host.Outcome State Fault Refusal) : inPlace f s k = k n w := by
  obtain ⟨h1, h2, h3, h4⟩ := h
  simp [inPlace, h1, h2, h3, h4]

/-- A field that answers a next state was in its place. -/
theorem inPlace_next {f : Field} {s t : State} {k : Nat → Work → Host.Outcome State Fault Refusal}
    (h : inPlace f s k = .next t) : ∃ n w, AtField f s n w ∧ k n w = .next t := by
  unfold inPlace at h
  split at h
  · next n w h1 h2 h3 =>
    split at h
    · next h4 => exact ⟨n, w, ⟨h1, h2, h3, h4⟩, h⟩
    · cases h
  · cases h

/-- What a packet field's execution can come to: the parse goes on with new working values, or it ends in OK, or it ends
in ERR. -/
def FieldResult (s t : State) : Prop :=
  (∃ w, t = { s with work := some w }) ∨ (∃ p, t = recordOk p s) ∨ (∃ e, t = recordError e s)

theorem goOn_next {w : Work} {s t : State} (h : goOn w s = .next t) : t = { s with work := some w } := by
  simpa [goOn] using h.symm

theorem raise_next {e : ParseError} {s t : State} (h : raise e s = .next t) : t = recordError e s := by
  simpa [raise] using h.symm

theorem finish_next {n : Nat} {w : Work} {fs : List Frame} {s t : State} (h : finish n w fs s = .next t) :
    t = recordOk (parsedOf n w fs) s := by
  simpa [finish] using h.symm

theorem fieldResult_goOn {w : Work} {s t : State} (h : goOn w s = .next t) : FieldResult s t :=
  .inl ⟨w, goOn_next h⟩

theorem fieldResult_raise {e : ParseError} {s t : State} (h : raise e s = .next t) : FieldResult s t :=
  .inr (.inr ⟨e, raise_next h⟩)

theorem fieldResult_finish {n : Nat} {w : Work} {fs : List Frame} {s t : State} (h : finish n w fs s = .next t) :
    FieldResult s t :=
  .inr (.inl ⟨_, finish_next h⟩)

/-- The result writes end the parse as a success does (R210, R230). -/
theorem recordOk_endsOk (p : Parsed) (s : State) : EndsOk p s (recordOk p s) := by
  refine ⟨rfl, rfl, ⟨rfl, rfl, rfl, ?_, ?_, ?_, rfl, rfl, rfl, rfl, rfl⟩, rfl, fun _ => rfl, rfl, rfl, rfl⟩ <;>
    intro i <;> simp [silByte]

/-- The error record ends the parse as error entry does (R210, R231). -/
theorem recordError_endsErr (e : ParseError) (s : State) : EndsErr e s (recordError e s) := by
  refine ⟨rfl, rfl, ⟨⟨rfl, rfl, rfl, rfl, rfl, rfl, rfl, rfl, rfl⟩, ?_⟩, rfl, fun _ => rfl, rfl, rfl, rfl⟩
  cases e <;> exact ⟨rfl, rfl⟩

/-! ### The splits -/

theorem fieldResult_cbrSplit {n : Nat} {w : Work} {s t : State} (h : cbrSplit n w s = .next t) : FieldResult s t := by
  simp only [cbrSplit] at h
  split at h
  · exact fieldResult_raise h
  · exact fieldResult_finish h

theorem fieldResult_vbrSplit {n : Nat} {w : Work} {s t : State} (h : vbrSplit n w s = .next t) : FieldResult s t := by
  unfold vbrSplit at h
  split at h
  · exact fieldResult_finish h
  · exact fieldResult_raise h

theorem fieldResult_vbrNext {n : Nat} {w : Work} {s t : State} (h : vbrNext n w s = .next t) : FieldResult s t := by
  unfold vbrNext at h
  split at h
  · exact fieldResult_goOn h
  · exact fieldResult_vbrSplit h

theorem fieldResult_splitRegion {n : Nat} {w : Work} {s t : State} (h : splitRegion n w s = .next t) :
    FieldResult s t := by
  unfold splitRegion at h
  split at h
  · exact fieldResult_vbrNext h
  · exact fieldResult_cbrSplit h

theorem fieldResult_afterHeader {n : Nat} {w : Work} {s t : State} (h : afterHeader n w s = .next t) :
    FieldResult s t := by
  unfold afterHeader at h
  split at h
  · exact fieldResult_goOn h
  · exact fieldResult_splitRegion h

theorem fieldResult_code2Split {n : Nat} {w : Work} {l : Nat} {s t : State} (h : code2Split n w l s = .next t) :
    FieldResult s t := by
  simp only [code2Split] at h
  split at h
  · exact fieldResult_raise h
  · exact fieldResult_finish h

/-- The splits always answer: a next state on every input. -/
theorem splitRegion_answers (n : Nat) (w : Work) (s : State) : ∃ t, splitRegion n w s = .next t := by
  unfold splitRegion vbrNext vbrSplit cbrSplit
  split
  · split
    · exact ⟨_, rfl⟩
    · split <;> exact ⟨_, rfl⟩
  · dsimp only; split <;> exact ⟨_, rfl⟩

/-! ### Layout of explicit lengths (R224-R226) -/

/-- The layout succeeds exactly when the explicit lengths fit together, and then the frames have these lengths and the
last one takes what remains. -/
theorem vbrLayout_ok (ls : List Nat) : ∀ off rem, ls.sum ≤ rem →
    ∃ fs, vbrLayout off rem ls = .ok fs ∧ fs.map Frame.len = ls ++ [rem - ls.sum] ∧ chained off fs (off + rem) := by
  induction ls with
  | nil => intro off rem _; exact ⟨_, rfl, by simp, by simp [chained]⟩
  | cons l rest ih =>
    intro off rem h
    simp only [List.sum_cons] at h
    have h1 : ¬ rem < l := by omega
    obtain ⟨fs, hfs, hlen, hch⟩ := ih (off + l) (rem - l) (by omega)
    refine ⟨{ off := off, len := l } :: fs, by simp [vbrLayout, h1, hfs], ?_, ?_⟩
    · simp [hlen]; omega
    · have : off + l + (rem - l) = off + rem := by omega
      rw [this] at hch
      exact ⟨rfl, hch⟩

theorem vbrLayout_error (ls : List Nat) : ∀ off rem, rem < ls.sum → ∃ a, vbrLayout off rem ls = .error a ∧ a ≤ rem := by
  induction ls with
  | nil => intro off rem h; simp at h
  | cons l rest ih =>
    intro off rem h
    simp only [List.sum_cons] at h
    by_cases h1 : rem < l
    · exact ⟨rem, by simp [vbrLayout, h1], le_refl _⟩
    · obtain ⟨a, ha, hle⟩ := ih (off + l) (rem - l) (by omega)
      exact ⟨a, by simp [vbrLayout, h1, ha], by omega⟩

/-- The equal split's frames lie back to back (R223, R229). -/
theorem cbrFrames_chained (m pos size : Nat) : chained pos (cbrFrames m pos size) (pos + m * size) := by
  induction m generalizing pos with
  | zero => simp [cbrFrames, chained]
  | succ k ih =>
    have hshift : cbrFrames (k + 1) pos size = { off := pos, len := size } :: cbrFrames k (pos + size) size := by
      simp only [cbrFrames, List.range_succ_eq_map, List.map_cons, List.map_map, Nat.zero_mul, Nat.add_zero]
      congr 1
      apply List.map_congr_left
      intro i _
      simp only [Function.comp_apply, Frame.mk.injEq, and_true, Nat.succ_eq_add_one]
      ring
    rw [hshift]
    refine ⟨rfl, ?_⟩
    have h := ih (pos + size)
    have : pos + size + k * size = pos + (k + 1) * size := by ring
    rwa [this] at h

/-! ### Packet fields -/

/-- Whatever a packet field answers is one of the three results, and it was in its place. -/
theorem exec_packetField_next {i : Instr} {s t : State} (hi : Instr.isPacketField i = true) (h : exec i s = .next t) :
    FieldResult s t := by
  cases i <;> simp only [Instr.isPacketField, encode, Bool.false_eq_true] at hi <;> simp only [exec] at h
  case toc0 => obtain ⟨n, w, _, h⟩ := inPlace_next h; exact fieldResult_finish h
  case toc1 =>
    obtain ⟨n, w, _, h⟩ := inPlace_next h
    dsimp only at h
    split at h
    · exact fieldResult_raise h
    · split at h
      · exact fieldResult_raise h
      · exact fieldResult_finish h
  case toc2 => obtain ⟨n, w, _, h⟩ := inPlace_next h; exact fieldResult_goOn h
  case toc3 =>
    obtain ⟨n, w, _, h⟩ := inPlace_next h
    split at h
    · exact fieldResult_raise h
    · exact fieldResult_goOn h
  case fchIllegal0 => obtain ⟨n, w, _, h⟩ := inPlace_next h; exact fieldResult_raise h
  case fchIllegal49 => obtain ⟨n, w, _, h⟩ := inPlace_next h; exact fieldResult_raise h
  case fchIllegal50 => obtain ⟨n, w, _, h⟩ := inPlace_next h; exact fieldResult_raise h
  case fchIllegal52 => obtain ⟨n, w, _, h⟩ := inPlace_next h; exact fieldResult_raise h
  case fchIllegal56 => obtain ⟨n, w, _, h⟩ := inPlace_next h; exact fieldResult_raise h
  case fchCbr => obtain ⟨n, w, _, h⟩ := inPlace_next h; exact fieldResult_afterHeader h
  case fchVbr => obtain ⟨n, w, _, h⟩ := inPlace_next h; exact fieldResult_afterHeader h
  case flen2 =>
    obtain ⟨n, w, _, h⟩ := inPlace_next h
    dsimp only at h
    split at h
    · exact fieldResult_code2Split h
    · exact fieldResult_vbrNext h
  case flen1 =>
    obtain ⟨n, w, _, h⟩ := inPlace_next h
    dsimp only at h
    split at h
    · exact fieldResult_code2Split h
    · exact fieldResult_vbrNext h
  case padCont => obtain ⟨n, w, _, h⟩ := inPlace_next h; exact fieldResult_goOn h
  case padTerm =>
    obtain ⟨n, w, _, h⟩ := inPlace_next h
    dsimp only at h
    split at h
    · exact fieldResult_raise h
    · exact fieldResult_splitRegion h

/-! ### The Parser's loop -/

/-- One more field of the loop when the parse goes on. -/
theorem parseFields_goOn {k : Nat} {s t : State} {w : Work} (h : parseField s = .next t) (hw : t.work = some w) :
    parseFields (k + 1) s = parseFields k t := by
  simp [parseFields, h, hw]

/-- The loop ends with the field that ends the parse. -/
theorem parseFields_done {k : Nat} {s t : State} (h : parseField s = .next t) (hw : t.work = none) :
    parseFields (k + 1) s = .next t := by
  simp [parseFields, h, hw]

theorem parseFields_fault {k : Nat} {s : State} {r : Fault} (h : parseField s = .fault r) :
    parseFields (k + 1) s = .fault r := by
  simp [parseFields, h]

/-- A field whose bytes were read and decoded is executed. -/
theorem parseField_exec {s : State} {n : Nat} {w : Work} {l : List Byte} {i : Instr} (h1 : s.inLen = some n)
    (h2 : s.work = some w) (h3 : fetchField s.inBuf n w = .bytes l) (h4 : decode (.packet w.field l) = .ok i) :
    parseField s = exec i s := by
  simp [parseField, h1, h2, h3, h4]

theorem parseField_raise {s : State} {n : Nat} {w : Work} {e : ParseError} (h1 : s.inLen = some n)
    (h2 : s.work = some w) (h3 : fetchField s.inBuf n w = .raise e) : parseField s = .next (recordError e s) := by
  simp [parseField, h1, h2, h3, raise]

theorem parseField_unwritten {s : State} {n : Nat} {w : Work} {a : Nat} (h1 : s.inLen = some n)
    (h2 : s.work = some w) (h3 : fetchField s.inBuf n w = .unwritten a) : parseField s = .fault (.unwrittenByte a) := by
  simp [parseField, h1, h2, h3]

/-! ### The step -/

theorem step_access {s : State} {a : Access} {rest : List Event} (h : s.pending = .access a :: rest) :
    step s = hostAccess a { s with pending := rest } := by
  simp [step, nextStep, h, runEvent]

theorem step_parser {s : State} {rest : List Event} (h : s.pending = .parser :: rest) :
    step s = parserTurn { s with pending := rest } := by
  simp [step, nextStep, h, runEvent]

theorem step_reset {s : State} {rest : List Event} (h : s.pending = .reset :: rest) :
    step s = .next (applyReset { s with pending := rest }) := by
  simp [step, nextStep, h, runEvent]

theorem step_idle {s : State} (h : s.pending = []) : step s = parserTurn s := by
  simp [step, nextStep, h]

/-- The Parser step of a BUSY block with a length. -/
theorem parserTurn_busy {s : State} {n : Nat} (h1 : s.status = .busy) (h2 : s.inLen = some n) :
    parserTurn s = parseFields (n + 1) { s with work := some Work.start } := by
  simp [parserTurn, parserStep, h1, h2]

end Sys2Proof.Machine
end

