-- ==== Sys2Proof/Laws/PerInstr.lean ====
section
/-! SUPPORT. What holds of every instruction as syntax, one lemma per constructor. -/

namespace Sys2Proof.Laws.EncodingShape

/-- The shape of an instruction's encoding: a packet field is one byte, but a frame-length field whose first byte is
252..255 is two (30_encoding.md R110, R118). An access carries data exactly when it writes, and a register access names
an index of one byte (R126). -/
def Statement (i : Instr) : Prop :=
  match encode i with
  | .packet f bytes =>
    ∃ b rest, bytes = b :: rest ∧ (i.wf = true → (rest.length = 1 ↔ f = .flen ∧ flenIsLong b = true)) ∧ rest.length ≤ 1
  | .access a => (a.data.isSome = true ↔ a.dir = 1#1) ∧ (a.space = 0#1 → a.index < 256)

theorem toc0 (config : BitVec 5) (stereo : Bool) : Statement (.toc0 config stereo) := by
  exact ⟨_, _, rfl, by simp, by simp⟩

theorem toc1 (config : BitVec 5) (stereo : Bool) : Statement (.toc1 config stereo) := by
  exact ⟨_, _, rfl, by simp, by simp⟩

theorem toc2 (config : BitVec 5) (stereo : Bool) : Statement (.toc2 config stereo) := by
  exact ⟨_, _, rfl, by simp, by simp⟩

theorem toc3 (config : BitVec 5) (stereo : Bool) : Statement (.toc3 config stereo) := by
  exact ⟨_, _, rfl, by simp, by simp⟩

theorem fchIllegal0 (padf vbr : Bool) : Statement (.fchIllegal0 padf vbr) := by
  exact ⟨_, _, rfl, by simp, by simp⟩

theorem fchIllegal49 (padf vbr : Bool) : Statement (.fchIllegal49 padf vbr) := by
  exact ⟨_, _, rfl, by simp, by simp⟩

theorem fchIllegal50 (padf vbr : Bool) (x : BitVec 1) : Statement (.fchIllegal50 padf vbr x) := by
  exact ⟨_, _, rfl, by simp, by simp⟩

theorem fchIllegal52 (padf vbr : Bool) (x : BitVec 2) : Statement (.fchIllegal52 padf vbr x) := by
  exact ⟨_, _, rfl, by simp, by simp⟩

theorem fchIllegal56 (padf vbr : Bool) (x : BitVec 3) : Statement (.fchIllegal56 padf vbr x) := by
  exact ⟨_, _, rfl, by simp, by simp⟩

theorem fchCbr (padf : Bool) (m : BitVec 6) : Statement (.fchCbr padf m) := by
  exact ⟨_, _, rfl, by simp, by simp⟩

theorem fchVbr (padf : Bool) (m : BitVec 6) : Statement (.fchVbr padf m) := by
  exact ⟨_, _, rfl, by simp, by simp⟩

theorem flen2 (a : BitVec 2) (b : Byte) : Statement (.flen2 a b) := by
  refine ⟨_, _, rfl, fun _ => ?_, by simp⟩
  have h : ∀ a : BitVec 2, flenIsLong (flen2First a) = true := by decide
  simp [h a]

theorem flen1 (l : Byte) : Statement (.flen1 l) := by
  refine ⟨_, _, rfl, fun h => ?_, by simp⟩
  have h' : flenIsLong l = false := by
    revert l; decide
  simp [h']

theorem padCont : Statement (.padCont) := by
  exact ⟨_, _, rfl, by simp, by simp⟩

theorem padTerm (t : Byte) : Statement (.padTerm t) := by
  exact ⟨_, _, rfl, by simp, by simp⟩

theorem wb (a : Nat) (v : Byte) : Statement (.wb a v) := by
  simp [Statement, encode, byteWrite]

theorem rb (a : Nat) : Statement (.rb a) := by
  simp [Statement, encode, byteRead]

theorem wrInLen (n : Nat) : Statement (.wrInLen n) := by
  simp [Statement, encode, regWrite, Reg.index]

theorem rr (r : BitVec 8) : Statement (.rr r) := by
  simp [Statement, encode, regRead, r.isLt]

theorem cmdNop : Statement (.cmdNop) := by
  simp [Statement, encode, regWrite, Reg.index]

theorem cmdParse : Statement (.cmdParse) := by
  simp [Statement, encode, regWrite, Reg.index]

theorem cmdClear : Statement (.cmdClear) := by
  simp [Statement, encode, regWrite, Reg.index]

theorem cmdReserved (v : Byte) : Statement (.cmdReserved v) := by
  simp [Statement, encode, regWrite, Reg.index]

end Sys2Proof.Laws.EncodingShape
end

