-- ==== Sys2Proof/Laws/Steps.lean ====
section
/-! SUPPORT. What one step can do, said once: every next state of the Parser's turn, of a Host access and of the step is
one of a few named updates of the state before. -/

namespace Sys2Proof.Machine

/-! ### The field at the cursor -/

/-- The bytes of a field: its first byte lies below the bound, and only a long frame length has a second one, which lies
below the bound too (R33, R118, R155). -/
theorem fetchField_bytes {m : Memory} {n : Nat} {w : Work} {l : List Byte} (h : fetchField m n w = .bytes l) :
    w.cur < w.bound n ∧ ∃ b0, memRead m w.cur = some b0 ∧
      ((l = [b0] ∧ ¬ (w.field = .flen ∧ flenIsLong b0 = true)) ∨
        ∃ b1, l = [b0, b1] ∧ w.field = .flen ∧ flenIsLong b0 = true ∧ w.cur + 1 < w.bound n ∧
          memRead m (w.cur + 1) = some b1) := by
  unfold fetchField at h
  split at h
  · cases h
  · next h1 =>
    split at h
    · cases h
    · next b0 h2 =>
      refine ⟨by omega, b0, h2, ?_⟩
      split at h
      · next h3 =>
        unfold fetchSecond at h
        split at h
        · cases h
        · next h4 =>
          split at h
          · cases h
          · next b1 h5 => cases h; exact .inr ⟨b1, rfl, h3.1, h3.2, by omega, h5⟩
      · next h3 => cases h; exact .inl ⟨rfl, h3⟩

/-- Bytes read in a packet format decode to a packet field. -/
theorem decode_packet_isField {f : Field} {l : List Byte} {i : Instr} (h : decode (.packet f l) = .ok i) :
    Instr.isPacketField i = true := by
  have hfch : ∀ b : Byte, Instr.isPacketField (decodeFch b) = true := by decide
  have htoc : ∀ b : Byte, Instr.isPacketField (decodeToc b) = true := by decide
  have hpad : ∀ b : Byte, Instr.isPacketField (decodePadind b) = true := by decide
  unfold decode at h
  split at h
  · next f' l' heq =>
    cases heq
    split at h
    · next j hj =>
      cases h
      unfold decodeField at hj
      split at hj
      · cases hj; exact htoc _
      · cases hj; exact hfch _
      · cases hj; exact hpad _
      · split at hj
        · split at hj
          · cases hj; rfl
          · cases hj
        · cases hj; rfl
      · cases hj
    · cases h
    · cases h
  · next heq => cases heq

/-- One field of the Parser step ends in one of the three results of a field. -/
theorem parseField_next {s t : State} (h : parseField s = .next t) : FieldResult s t := by
  unfold parseField at h
  split at h
  · split at h
    · exact fieldResult_raise h
    · cases h
    · split at h
      · next i hi => exact exec_packetField_next (decode_packet_isField hi) h
      · cases h
  · cases h
  · cases h

/-- The Parser's loop ends in OK with the result writes of some Parsed Packet, or in ERR with some error recorded, and
nothing else of the state changes. -/
theorem parseFields_next (k : Nat) : ∀ {s t : State}, parseFields k s = .next t →
    (∃ p, t = recordOk p s) ∨ ∃ e, t = recordError e s := by
  induction k with
  | zero => intro s t h; cases h
  | succ k ih =>
    intro s t h
    rw [parseFields] at h
    split at h
    · next u hu =>
      rcases parseField_next hu with ⟨w, rfl⟩ | ⟨p, rfl⟩ | ⟨e, rfl⟩
      · rcases ih h with ⟨p, rfl⟩ | ⟨e, rfl⟩
        · exact .inl ⟨p, rfl⟩
        · exact .inr ⟨e, rfl⟩
      · cases h; exact .inl ⟨p, rfl⟩
      · cases h; exact .inr ⟨e, rfl⟩
    · cases h
    · cases h

/-- The Parser's turn: nothing in a block that is not BUSY, else the end of a parse. -/
theorem parserTurn_next {s t : State} (h : parserTurn s = .next t) :
    (s.status ≠ .busy ∧ t = s) ∨
      (s.status = .busy ∧ s.inLen ≠ none ∧ ((∃ p, t = recordOk p s) ∨ ∃ e, t = recordError e s)) := by
  by_cases hb : s.status = .busy
  · right
    cases hn : s.inLen with
    | none => simp [parserTurn, hb, parserStep, hn] at h
    | some n =>
      rw [parserTurn_busy hb hn] at h
      refine ⟨hb, by simp, ?_⟩
      rcases parseFields_next _ h with ⟨p, rfl⟩ | ⟨e, rfl⟩
      · exact .inl ⟨p, rfl⟩
      · exact .inr ⟨e, rfl⟩
  · left
    simp only [parserTurn, hb, if_false, Host.Outcome.next.injEq] at h
    exact ⟨hb, h.symm⟩

/-! ### A Host access -/

/-- What an accepted Host access makes of the state: a read or a NOP, a byte written, a length set, a PARSE accepted, or a
CLEAR. The last four happen outside BUSY only. -/
inductive HostResult (s t : State) : Instr → Prop
  | readByte (a : Nat) (v : Byte) (h : memRead s.inBuf a = some v) (ht : t = returnToHost v.toNat s) :
      HostResult s t (.rb a)
  | readRegister (x : BitVec 8) (r : Reg) (v : Nat) (hr : Reg.ofIndex x = some r) (h : readReg s r = some v)
      (ht : t = returnToHost v s) : HostResult s t (.rr x)
  | nop (ht : t = s) : HostResult s t .cmdNop
  | writeByte (a : Nat) (v : Byte) (ha : a < s.config.pktCap) (hb : s.status ≠ .busy)
      (ht : t = packetChanged { s with inBuf := memWrite s.inBuf a v }) : HostResult s t (.wb a v)
  | setLength (n : Nat) (hn : n ≤ s.config.pktCap) (hb : s.status ≠ .busy)
      (ht : t = packetChanged { s with inLen := some n }) : HostResult s t (.wrInLen n)
  | parse (hb : s.status ≠ .busy) (hn : s.inLen ≠ none) (ht : t = { clearResults s with status := .busy }) :
      HostResult s t .cmdParse
  | clear (hb : s.status ≠ .busy) (ht : t = { clearResults s with status := .idle }) : HostResult s t .cmdClear

/-- Whatever a Host instruction answers is its result. -/
theorem exec_host_next {i : Instr} {s t : State} (hi : Instr.isPacketField i = false) (h : exec i s = .next t) :
    HostResult s t i := by
  cases i <;> simp only [Instr.isPacketField, encode, Bool.true_eq_false] at hi
  case wb a v =>
    simp only [exec, execWb] at h
    split at h
    · cases h
    · split at h
      · cases h
      · next h1 h2 => cases h; exact .writeByte a v (by omega) h2 rfl
  case rb a =>
    simp only [exec, execRb] at h
    split at h
    · cases h
    · split at h
      · cases h
      · next v hv => cases h; exact .readByte a v hv rfl
  case wrInLen n =>
    simp only [exec, execWrInLen] at h
    split at h
    · cases h
    · split at h
      · cases h
      · next h1 h2 => cases h; exact .setLength n (by omega) h2 rfl
  case rr x =>
    simp only [exec, execRr] at h
    split at h
    · cases h
    · next r hr =>
      split at h
      · cases h
      · next v hv => cases h; exact .readRegister x r v hr hv rfl
  case cmdNop => cases h; exact .nop rfl
  case cmdParse =>
    simp only [exec, execCmdParse] at h
    split at h
    · cases h
    · next hb =>
      split at h
      · cases h
      · next n hn => cases h; exact .parse hb (by simp [hn]) rfl
  case cmdClear =>
    simp only [exec, execCmdClear] at h
    split at h
    · cases h
    · next hb => cases h; exact .clear hb rfl
  case cmdReserved v => cases h

/-- An accepted access ran the instruction it decodes to. -/
theorem hostAccess_next {a : Access} {s t : State} (h : hostAccess a s = .next t) :
    ∃ i, decode (.access a) = .ok i ∧ exec i s = .next t := by
  unfold hostAccess at h
  split at h
  · next i hi => exact ⟨i, hi, h⟩
  · cases h

/-! ### The step -/

/-- The three things a step can be: a Host access, a Parser turn, a reset, each with the event taken off the schedule. -/
theorem step_next {s t : State} (h : step s = .next t) :
    (∃ a rest, s.pending = .access a :: rest ∧ hostAccess a { s with pending := rest } = .next t) ∨
      (∃ rest, (s.pending = rest ∨ s.pending = .parser :: rest) ∧ parserTurn { s with pending := rest } = .next t) ∨
      ∃ rest, s.pending = .reset :: rest ∧ t = applyReset { s with pending := rest } := by
  cases hp : s.pending with
  | nil =>
    rw [step_idle hp] at h
    refine .inr (.inl ⟨[], .inl rfl, ?_⟩)
    have : { s with pending := [] } = s := by rw [← hp]
    rw [this]; exact h
  | cons e rest =>
    cases e with
    | access a => rw [step_access hp] at h; exact .inl ⟨a, rest, rfl, h⟩
    | parser => rw [step_parser hp] at h; exact .inr (.inl ⟨rest, .inr rfl, h⟩)
    | reset => rw [step_reset hp] at h; cases h; exact .inr (.inr ⟨rest, rfl, rfl⟩)

end Sys2Proof.Machine
end

