-- ==== Sys2Proof/Tests/Slice0.lean ====
section
/-! SUPPORT. Small tests with results taken from the spec, and for every statement that has hypotheses a concrete state
and operands that meet them (the theorems named witness_<statement>). -/

open Sys2Proof Sys2Proof.Machine

namespace Sys2Proof.Tests

/-! ## Well-formedness: each check refuses a term -/

theorem test_wf_fchCbr_zero : (Instr.fchCbr false 0#6).wf = false := by decide
theorem test_wf_fchCbr_above : (Instr.fchCbr false 49#6).wf = false := by decide
theorem test_wf_fchVbr_zero : (Instr.fchVbr true 0#6).wf = false := by decide
theorem test_wf_fchVbr_above : (Instr.fchVbr true 49#6).wf = false := by decide
theorem test_wf_flen1_above : (Instr.flen1 252#8).wf = false := by decide
theorem test_wf_padTerm_above : (Instr.padTerm 255#8).wf = false := by decide
theorem test_wf_cmdReserved_clear : (Instr.cmdReserved 2#8).wf = false := by decide

/-! ## Decoding: words written out bit by bit from the encodings of 30_encoding.md -/

/-- The packet field these bits decode to. -/
def reads (f : Field) (l : List Byte) (i : Instr) : Bool := decide (decode (.packet f l) = .ok i)

/-- CCCCCSFF (R112): configuration 9 is 01001, mono is 0, and the code stands in the two low bits. -/
theorem test_decode_toc :
    reads .toc [0b01001000#8] (.toc0 9#5 false) ∧ reads .toc [0b01001001#8] (.toc1 9#5 false) ∧
    reads .toc [0b01001110#8] (.toc2 9#5 true) ∧ reads .toc [0b11111111#8] (.toc3 31#5 true) := by decide

/-- PVMMMMMM (R113, R121): each illegal row, and the counts 1 and 48 in both forms. -/
theorem test_decode_fch_illegal :
    reads .fch [0b10000000#8] (.fchIllegal0 true false) ∧ reads .fch [0b01110001#8] (.fchIllegal49 false true) ∧
    reads .fch [0b00110011#8] (.fchIllegal50 false false 1#1) ∧
    reads .fch [0b11110110#8] (.fchIllegal52 true true 2#2) ∧
    reads .fch [0b00111101#8] (.fchIllegal56 false false 5#3) := by decide

theorem test_decode_fch_legal :
    reads .fch [0b10000001#8] (.fchCbr true 1#6) ∧ reads .fch [0b00110000#8] (.fchCbr false 48#6) ∧
    reads .fch [0b11000011#8] (.fchVbr true 3#6) ∧ reads .fch [0b01110000#8] (.fchVbr false 48#6) := by decide

/-- 111111AA BBBBBBBB for the long form and LLLLLLLL below 252 for the short one (R114, R118). -/
theorem test_decode_flen :
    reads .flen [0b11111110#8, 0b00000011#8] (.flen2 2#2 3#8) ∧ reads .flen [0b11111011#8] (.flen1 251#8) ∧
    reads .flen [0b00000000#8] (.flen1 0#8) := by decide

/-- A long frame length without its second byte is no instruction, nor is one with a third (R118). -/
theorem test_decode_flen_rejects :
    decode (.packet .flen [0b11111100#8]) = .error (.truncated .flen) ∧
    decode (.packet .flen [0b11111100#8, 0#8, 0#8]) = .error (.trailingBytes .flen) := by decide

/-- 11111111 goes on, every other byte ends the chain (R116). -/
theorem test_decode_padind :
    reads .padind [0b11111111#8] .padCont ∧ reads .padind [0b11111110#8] (.padTerm 254#8) ∧
    reads .padind [0b00000000#8] (.padTerm 0#8) := by decide

/-- The tuples (space, dir, index, data) of R126 and the commands of R127. -/
theorem test_decode_access :
    decode (.access ⟨1#1, 1#1, 0x0A, some 0xC3⟩) = .ok (.wb 10 0xC3#8) ∧
    decode (.access ⟨1#1, 0#1, 0x07, none⟩) = .ok (.rb 7) ∧
    decode (.access ⟨0#1, 1#1, 0x02, some 0x0B⟩) = .ok (.wrInLen 11) ∧
    decode (.access ⟨0#1, 0#1, 0x81, none⟩) = .ok (.rr 0x81#8) := by decide

theorem test_decode_command :
    decode (.access ⟨0#1, 1#1, 0x00, some 0b00000000⟩) = .ok .cmdNop ∧
    decode (.access ⟨0#1, 1#1, 0x00, some 0b00000001⟩) = .ok .cmdParse ∧
    decode (.access ⟨0#1, 1#1, 0x00, some 0b00000010⟩) = .ok .cmdClear ∧
    decode (.access ⟨0#1, 1#1, 0x00, some 0b00000101⟩) = .ok (.cmdReserved 5#8) := by decide

/-- HP6: a write to STATUS, and a write to the reserved index 0x70. -/
theorem test_decode_rejects_writes :
    decode (.access ⟨0#1, 1#1, 0x01, some 0x02⟩) = .error (.readOnlyRegister .status) ∧
    decode (.access ⟨0#1, 1#1, 0x70, some 0x00⟩) = .error (.reservedIndex 0x70) := by decide

/-- A table word is read by the same decoder, its first byte the low one. -/
theorem test_decode_tableWord :
    decodeTableWord 8 0x31 = some (.fchIllegal49 false false) ∧ decodeTableWord 16 0x03FE = some (.flen2 2#2 3#8) ∧
    decodeTableWord 8 0xFF = some .padCont := by decide

/-! ## One step on a small packet (95_test_vectors.md) -/

/-- The state after the Parser step on these bytes. -/
def parsed (l : List Byte) : Option State :=
  match step (placePacket l State.reset) with
  | .next t => some t
  | .fault _ => none
  | .refused _ => none

/-- STATE, FCH and HDR_BYTES. -/
def summary (t : State) : BlockState × Option Byte × Option Nat := (t.status, t.fch, t.hdrBytes)

/-- The padding registers. -/
def padding (t : State) : Option Nat × Option Nat × Option Nat := (t.padOff, t.padLen, t.padInd)

/-- One slot of the frame table. -/
def slot (i : Fin 48) (t : State) : Option Nat × Option Nat × Option Byte :=
  (t.frameOff[i], t.frameLen[i], t.frameSil[i])

/-- STATE and the error registers. -/
def failure (t : State) : BlockState × Option ErrKind × Option Nat := (t.status, t.errKind, t.errAvail)

/-- E3: a packet of one byte is one silent frame. -/
theorem test_toc0_silence :
    (parsed [0x08#8]).map summary = some (.ok, some 1#8, some 1) ∧
    (parsed [0x08#8]).map padding = some (none, none, none) ∧
    (parsed [0x08#8]).map (slot 0) = some (some 1, some 0, some 1#8) ∧
    (parsed [0x08#8]).map (slot 1) = some (none, none, none) := by decide

/-- O3, then O4 and O2: two equal frames; an odd remainder; too short comes before odd. -/
theorem test_toc1_halves : (parsed [0x01#8, 0#8, 0#8]).map (slot 1) = some (some 2, some 1, some 0#8) := by decide
theorem test_toc1_fails :
    (parsed [0x01#8, 0#8, 0#8, 0#8]).map failure = some (.err, some .invalidPacket, none) ∧
    (parsed [0x01#8, 0#8]).map failure = some (.err, some .packetTooShort, some 1) := by decide

/-- E5: the second frame's length is inferred. -/
theorem test_toc2_inferred :
    (parsed [0x0A#8, 0x02#8, 0xA0#8, 0xA1#8, 0xB0#8, 0xB1#8, 0xB2#8]).map (slot 1) =
      some (some 4, some 3, some 0#8) := by decide

/-- H1: no header. -/
theorem test_toc3_no_header :
    (parsed [0x03#8]).map failure = some (.err, some .packetTooShort, some 0) := by decide

/-- H5 and Q3: an illegal count fails before anything else of the packet is looked at. -/
theorem test_fchIllegal49_first :
    (parsed [0x03#8, 0xB1#8, 0xFF#8]).map failure = some (.err, some .invalidPacket, none) := by decide
theorem test_fchIllegal56_all_ones :
    (parsed [0xFF#8, 0xFF#8, 0xFF#8]).map failure = some (.err, some .invalidPacket, none) := by decide

/-- E8c: 48 frames in an empty region are 48 silent frames. -/
theorem test_fchCbr_48_empty :
    (parsed [0x0B#8, 0x30#8]).map (slot 47) = some (some 2, some 0, some 1#8) := by decide

/-- C5: the padding is taken off before the division. -/
theorem test_fchCbr_indivisible :
    (parsed [0x03#8, 0x83#8, 0x01#8, 0#8, 0#8, 0#8, 0#8, 0#8, 0#8]).map failure =
      some (.err, some .invalidPacket, none) := by decide

/-- V1: one VBR frame has no length field. -/
theorem test_fchVbr_one :
    (parsed [0x03#8, 0x41#8, 0#8, 0#8, 0#8]).map (slot 0) = some (some 2, some 3, some 0#8) := by decide

/-- E7d: the second length does not fit the 3 bytes that remain. -/
theorem test_fchVbr_too_long :
    (parsed [0x0B#8, 0x43#8, 5#8, 5#8, 0#8, 0#8, 0#8, 0#8, 0#8, 0#8, 0#8, 0#8]).map failure =
      some (.err, some .packetTooShort, some 3) := by decide

/-- W1: the first length takes all, and the second frame is silent. -/
theorem test_flen1_all :
    (parsed [0x02#8, 3#8, 0#8, 0#8, 0#8]).map (slot 1) = some (some 5, some 0, some 1#8) := by decide

/-- F9 and F10: the second byte missing, and a length of 253 with no byte left. -/
theorem test_flen2_missing :
    (parsed [0x02#8, 0xFC#8]).map failure = some (.err, some .invalidFrameLength, none) := by decide
theorem test_flen2_too_long :
    (parsed [0x02#8, 0xFD#8, 0#8]).map failure = some (.err, some .packetTooShort, some 0) := by decide

/-- P2: a chain that the packet's end cuts off. -/
theorem test_padCont_unterminated :
    (parsed [0x03#8, 0x81#8, 0xFF#8]).map failure = some (.err, some .packetTooShort, some 1) := by decide

/-- P5 and P4: chain and padding fill the packet exactly, and one byte too many. -/
theorem test_padTerm_exact :
    (parsed [0x03#8, 0x81#8, 1#8, 0#8]).map padding = some (some 3, some 1, some 1) := by decide
theorem test_padTerm_over :
    (parsed [0x03#8, 0x81#8, 1#8]).map failure = some (.err, some .packetTooShort, some 1) := by decide

/-- V13, program 2: padding and explicit lengths together. -/
theorem test_vbr_with_padding :
    (parsed [0x03#8, 0xC3#8, 1#8, 2#8, 1#8, 0xA0#8, 0xA1#8, 0xB0#8, 0xC0#8, 0xC1#8, 0#8]).map (slot 2) =
      some (some 8, some 2, some 0#8) := by decide

/-- HP17: the Parser needs a byte nobody wrote. -/
theorem test_unwritten_byte :
    (match step { State.reset with inBuf := [(0, 0x02#8)], inLen := some 3, status := .busy } with
      | .fault r => some r
      | .next _ => none
      | .refused _ => none) = some (.unwrittenByte 1) := by decide

/-! ## One Host access -/

/-- The state after one access. -/
def accessed (a : Access) (s : State) : Option State :=
  match step { s with pending := [.access a] } with
  | .next t => some t
  | .fault _ => none
  | .refused _ => none

/-- Why an access stopped. -/
def stopped (a : Access) (s : State) : Option (Fault ⊕ Refusal) :=
  match step { s with pending := [.access a] } with
  | .next _ => none
  | .fault r => some (.inl r)
  | .refused r => some (.inr r)

/-- A block in STATE OK with a packet of one byte. -/
def okBlock : State :=
  recordOk { toc := 0x08#8, fch := 1#8, hdr := 1, frames := [{ off := 1, len := 0 }], pad := none }
    { State.reset with inBuf := [(0, 0x08#8)], inLen := some 1 }

/-- A block in STATE ERR with an empty packet. -/
def errBlock : State := recordError (.packetTooShort 0) { State.reset with inLen := some 0 }

/-- A block in STATE BUSY with a packet of one byte. -/
def busyBlock : State := { State.reset with inBuf := [(0, 0x08#8)], inLen := some 1, status := .busy }

/-- HP15 and HP9: a write drops the result, and is refused while BUSY. -/
theorem test_wb_drops_result :
    (accessed (byteWrite 5 0#8) okBlock).map (fun t => (t.status, t.toc, memRead t.inBuf 5)) =
      some (.idle, none, some 0#8) := by decide
theorem test_wb_busy : stopped (byteWrite 0 0#8) busyBlock = some (.inr .blockBusy) := by decide

/-- HP10, and the last address of the buffer, which nobody wrote (R262). -/
theorem test_rb_busy : (accessed (byteRead 0) busyBlock).map State.hostData = some (some 0x08) := by decide
theorem test_rb_unwritten :
    stopped (byteRead 4095) State.reset = some (.inl (.readNoValue (.byte 4095))) ∧
    stopped (byteRead 4096) State.reset = some (.inr (.addressOutOfRange 4096)) := by decide

/-- HP20, and the greatest legal length (R263). -/
theorem test_wrInLen_bounds :
    (accessed (regWrite .inLen 4096) errBlock).map (fun t => (t.status, t.inLen, t.errKind)) =
      some (.idle, some 4096, none) ∧
    stopped (regWrite .inLen 4097) errBlock = some (.inr (.lengthOutOfRange 4097)) := by decide

/-- HP1; HP14 and HP5: STATUS after reset; a slot that holds no frame, and a reserved index. -/
theorem test_rr_status : (accessed (regRead 0x01) State.reset).map State.hostData = some (some 0) := by decide
theorem test_rr_stops :
    stopped (regRead 0x41) okBlock = some (.inl (.readNoValue (.reg (.frameOff 1)))) ∧
    stopped (regRead 0x70) okBlock = some (.inr (.reservedIndex 0x70#8)) := by decide

/-- HP13. -/
theorem test_cmdNop_ok : (accessed (regWrite .ctrl 0) okBlock).map summary = some (summary okBlock) := by decide

/-- HP3, and a second PARSE (R267). -/
theorem test_cmdParse_no_length : stopped (regWrite .ctrl 1) State.reset = some (.inr .lengthNeverWritten) := by decide
theorem test_cmdParse_again :
    (accessed (regWrite .ctrl 1) okBlock).map (fun t => (t.status, t.toc, t.errKind)) = some (.busy, none, none) := by
  decide

/-- HP16, with IN_LEN kept (R268). -/
theorem test_cmdClear_err :
    (accessed (regWrite .ctrl 2) errBlock).map (fun t => (t.status, t.errKind, t.inLen)) = some (.idle, none, some 0) := by
  decide

/-- HP7 and HP8. -/
theorem test_cmdReserved :
    stopped (regWrite .ctrl 3) okBlock = some (.inr (.reservedCommand 3#8)) ∧
    stopped (regWrite .ctrl 5) busyBlock = some (.inr (.reservedCommand 5#8)) := by decide

/-- HP19: reset of a BUSY block. -/
theorem test_reset_busy :
    step { busyBlock with pending := [.reset] } = .next State.reset := by rfl

/-- R128 and R129: program 1 of 95_test_vectors.md as text. -/
theorem test_load_text :
    (pseudoLoadPkt [0x08#8]).map accessText = ["WB 0, 8", "WR 2, 1"] := by decide

/-! ## Witnesses: encoding -/

theorem witness_DecodeOfEncode :
    (Instr.fchCbr true 1#6).wf = true ∧ (Instr.fchVbr false 48#6).wf = true ∧ (Instr.flen1 251#8).wf = true ∧
    (Instr.padTerm 254#8).wf = true ∧ (Instr.cmdReserved 3#8).wf = true := by decide

theorem witness_DecodeIsExact :
    decode (.packet .flen [0xFF#8, 0xFF#8]) = .ok (.flen2 3#2 0xFF#8) ∧
    decode (.access (byteWrite 0 0xFF#8)) = .ok (.wb 0 0xFF#8) := by decide

/-- The indices at each edge of the reserved ranges, and the padding registers apart. -/
theorem witness_RegisterMap :
    Reg.ofIndex 0x09#8 = some .padLen ∧ Reg.index .padLen = 0x09 ∧ Reg.index .padInd = 0x0A ∧
    Reg.ofIndex 0x0A#8 = some .padInd ∧ Reg.ofIndex 0x0B#8 = none ∧ Reg.ofIndex 0x3F#8 = none ∧
    Reg.ofIndex 0x40#8 = some (.frameOff 0) ∧ Reg.ofIndex 0x6F#8 = some (.frameOff 47) ∧ Reg.ofIndex 0x70#8 = none ∧
    Reg.ofIndex 0x7F#8 = none ∧ Reg.ofIndex 0x80#8 = some (.frameLen 0) ∧ Reg.ofIndex 0xAF#8 = some (.frameLen 47) ∧
    Reg.ofIndex 0xB0#8 = none ∧ Reg.ofIndex 0xBF#8 = none ∧ Reg.ofIndex 0xC0#8 = some (.frameSil 0) ∧
    Reg.ofIndex 0xEF#8 = some (.frameSil 47) ∧ Reg.ofIndex 0xF0#8 = none ∧ Reg.ofIndex 0xFF#8 = none := by decide

theorem witness_FrameLengthFieldUnique :
    (0 ≤ 1275 ∧ 1275 ≤ 1275) ∧ ((Instr.flen1 251#8).wf = true ∧ (Instr.flen1 251#8).frameLength = some 251) ∧
    ((Instr.flen2 0#2 0#8).wf = true ∧ (Instr.flen2 0#2 0#8).frameLength = some 252) ∧
    (Instr.flen2 3#2 0xFF#8).frameLength = some 1275 := by decide

/-! ## Witnesses: the step -/

/-- A block inside its Parser step on this packet, with these working values. -/
def inside (l : List Byte) (w : Work) : State := { placePacket l State.reset with work := some w }

/-- Working values at the frame-count header. -/
def atHeader : Work := { Work.start with field := .fch, cur := 1, toc := 0x03#8 }

/-- Working values at the first padding indicator behind this header. -/
def atChain (f : Byte) : Work := { Work.start with field := .padind, cur := 2, toc := 0x03#8, fch := f }

/-- Working values at the length field of a code-2 packet. -/
def atLength : Work := { Work.start with field := .flen, cur := 1, toc := 0x02#8, fch := 2#8 }

/-- Working values at a length field of a VBR packet without padding, with these lengths of one byte collected. -/
def atLengths (f : Byte) (ls : List Nat) : Work :=
  { Work.start with field := .flen, cur := 2 + ls.length, toc := 0x03#8, fch := f, lens := ls }

theorem inside_atField (l : List Byte) (w : Work) : AtField w.field (inside l w) l.length w := ⟨rfl, rfl, rfl, rfl⟩

theorem witness_StepRunsDecodedAccess :
    ({ okBlock with pending := [.access (byteRead 0), .parser] } : State).pending = .access (byteRead 0) :: [.parser] ∧
    decode (.access (byteRead 0)) = .ok (.rb 0) := ⟨rfl, rfl⟩

theorem witness_ParserRunsDecodedField_exec :
    (inside [0x08#8] Work.start).inLen = some 1 ∧ (inside [0x08#8] Work.start).work = some Work.start ∧
    fetchField (inside [0x08#8] Work.start).inBuf 1 Work.start = .bytes [0x08#8] ∧
    decode (.packet Work.start.field [0x08#8]) = .ok (.toc0 1#5 false) := by decide

theorem witness_ParserRunsDecodedField_loop :
    (∃ t w, parseField (inside [0x03#8, 0x81#8] Work.start) = .next t ∧ t.work = some w) ∧
    ∃ t, parseField (inside [0x08#8] Work.start) = .next t ∧ t.work = none := ⟨⟨_, _, rfl, rfl⟩, ⟨_, rfl, rfl⟩⟩

theorem witness_StepGivesParserItsTurn :
    busyBlock.pending = [] ∧ ({ busyBlock with pending := [.parser] } : State).pending = .parser :: [] ∧
    okBlock.status ≠ .busy ∧ busyBlock.status = .busy ∧ busyBlock.inLen = some 1 := by decide

/-- Each outcome of Parse occurs in a BUSY block. -/
theorem witness_ParserStepIsParse :
    okBlock.status ≠ .busy ∧ (busyBlock.status = .busy ∧ busyBlock.inLen = some 1) ∧
    (specParse (memRead busyBlock.inBuf) 1 = .ok ⟨0x08#8, 1#8, 1, [⟨1, 0⟩], none⟩) ∧
    specParse (memRead [(0, 0x01#8)]) 1 = .error (.raised (.packetTooShort 0)) ∧
    specParse (memRead [(0, 0x02#8)]) 3 = .error (.unwritten 1) := ⟨by decide, by decide, rfl, rfl, rfl⟩

/-! ## Witnesses: packet fields -/

theorem witness_Toc0OneFrame : AtField .toc (inside [0x08#8] Work.start) 1 Work.start ∧ 1 ≤ 1 :=
  ⟨inside_atField _ _, by decide⟩

/-- R = 1, 3 and 2. -/
theorem witness_Toc1TwoEqualFrames :
    (AtField .toc (inside [1#8, 0#8] Work.start) 2 Work.start ∧ 1 ≤ 2 ∧ 2 - 1 < 2) ∧
    (AtField .toc (inside [1#8, 0#8, 0#8, 0#8] Work.start) 4 Work.start ∧ 2 ≤ 4 - 1 ∧ (4 - 1) % 2 = 1) ∧
    (AtField .toc (inside [1#8, 0#8, 0#8] Work.start) 3 Work.start ∧ 2 ≤ 3 - 1 ∧ (3 - 1) % 2 = 0) :=
  ⟨⟨inside_atField _ _, by decide⟩, ⟨inside_atField _ _, by decide⟩, ⟨inside_atField _ _, by decide⟩⟩

theorem witness_Toc2AwaitsLength : AtField .toc (inside [2#8] Work.start) 1 Work.start := inside_atField _ _

theorem witness_Toc3AwaitsHeader :
    (AtField .toc (inside [3#8] Work.start) 1 Work.start ∧ 1 < 2) ∧
    (AtField .toc (inside [3#8, 1#8] Work.start) 2 Work.start ∧ 2 ≤ 2) :=
  ⟨⟨inside_atField _ _, by decide⟩, ⟨inside_atField _ _, by decide⟩⟩

theorem witness_IllegalCountsFail : AtField .fch (inside [3#8, 0#8] atHeader) 2 atHeader := inside_atField _ _

/-- An empty region, one byte for two frames, and two bytes for two frames, with counts 1, 2 and 48. -/
theorem witness_FchCbrEqualFrames :
    (AtField .fch (inside [3#8, 0x30#8] atHeader) 2 atHeader ∧ atHeader.padSum = 0 ∧ legalCount 48#6 = true ∧
      (2 - 2) % 48 = 0) ∧
    (AtField .fch (inside [3#8, 2#8, 0#8] atHeader) 3 atHeader ∧ legalCount 2#6 = true ∧ (3 - 2) % 2 ≠ 0) ∧
    (AtField .fch (inside [3#8, 2#8, 0#8, 0#8] atHeader) 4 atHeader ∧ (4 - 2) % 2 = 0) ∧ legalCount 1#6 = true :=
  ⟨⟨inside_atField _ _, by decide⟩, ⟨inside_atField _ _, by decide⟩, ⟨inside_atField _ _, by decide⟩, by decide⟩

/-- Counts 1, 2 and 48. -/
theorem witness_FchVbrNextField :
    AtField .fch (inside [3#8, 0x41#8] atHeader) 2 atHeader ∧ atHeader.padSum = 0 ∧ atHeader.lens = [] ∧
    legalCount 1#6 = true ∧ legalCount 2#6 = true ∧ legalCount 48#6 = true ∧ (2#6 : BitVec 6) ≠ 1#6 :=
  ⟨inside_atField _ _, by decide⟩

/-- A length of 2 with 1 byte and with 2 bytes left, and a long one of 252 with none left. -/
theorem witness_FrameLengthCodeTwo :
    (AtField .flen (inside [2#8, 2#8, 0#8] atLength) 3 atLength ∧ tocCode atLength.toc = 2#2 ∧
      fchPadFlag atLength.fch = false ∧ (Instr.flen1 2#8).frameLength = some 2 ∧ 3 - (1 + 1) < 2) ∧
    (AtField .flen (inside [2#8, 2#8, 0#8, 0#8] atLength) 4 atLength ∧ 2 ≤ 4 - (1 + 1)) ∧
    (AtField .flen (inside [2#8, 0xFC#8, 0#8] atLength) 3 atLength ∧
      (Instr.flen2 0#2 0#8).frameLength = some 252 ∧ 3 - (1 + (Instr.flen2 0#2 0#8).lengthBytes) < 252) :=
  ⟨⟨inside_atField _ _, by decide⟩, ⟨inside_atField _ _, by decide⟩, ⟨inside_atField _ _, by decide⟩⟩

theorem witness_FrameLengthCollected :
    AtField .flen (inside [3#8, 0x43#8, 1#8, 1#8] (atLengths 0x43#8 [])) 4 (atLengths 0x43#8 []) ∧
    tocCode (atLengths 0x43#8 []).toc = 3#2 ∧ (Instr.flen1 1#8).frameLength = some 1 ∧
    (atLengths 0x43#8 []).lens.length + 2 < (fchCount (atLengths 0x43#8 []).fch).toNat :=
  ⟨inside_atField _ _, by decide⟩

/-- Lengths 1 and 1 in a region of 2 bytes (the last frame gets none), and in one of 1 byte. -/
theorem witness_LastFrameLengthSplits :
    (AtField .flen (inside [3#8, 0x43#8, 1#8, 1#8, 0#8, 0#8] (atLengths 0x43#8 [1])) 6 (atLengths 0x43#8 [1]) ∧
      tocCode (atLengths 0x43#8 [1]).toc = 3#2 ∧ (Instr.flen1 1#8).frameLength = some 1 ∧
      (atLengths 0x43#8 [1]).lens.length + 2 = (fchCount (atLengths 0x43#8 [1]).fch).toNat ∧
      [1, 1] = (atLengths 0x43#8 [1]).lens ++ [1] ∧ 4 = (atLengths 0x43#8 [1]).cur + 1 ∧
      2 = 6 - (atLengths 0x43#8 [1]).padSum - 4 ∧ [1, 1].sum ≤ 2) ∧
    (AtField .flen (inside [3#8, 0x43#8, 1#8, 1#8, 0#8] (atLengths 0x43#8 [1])) 5 (atLengths 0x43#8 [1]) ∧
      1 = 5 - (atLengths 0x43#8 [1]).padSum - 4 ∧ 1 < [1, 1].sum) :=
  ⟨⟨inside_atField _ _, by decide⟩, ⟨inside_atField _ _, by decide⟩⟩

/-- The invariant on working values holds at the start and at a field of each format. -/
theorem witness_CursorAdvances :
    (AtField .toc (inside [3#8, 0x81#8, 0#8] Work.start) 3 Work.start ∧ WorkInv 3 Work.start ∧
      ∃ t w, parseField (inside [3#8, 0x81#8, 0#8] Work.start) = .next t ∧ t.work = some w) ∧
    WorkInv 3 atHeader ∧ WorkInv 3 (atChain 0x81#8) ∧ WorkInv 2 atLength ∧ WorkInv 4 (atLengths 0x43#8 [1]) :=
  ⟨⟨inside_atField _ _, ⟨by decide, rfl⟩, ⟨_, _, rfl, rfl⟩⟩,
    ⟨by decide, by decide, rfl, rfl, rfl, rfl, rfl⟩, ⟨by decide, rfl, rfl, rfl, rfl, rfl, rfl⟩,
    ⟨by decide, by unfold atLength; decide⟩, ⟨by decide, by unfold atLengths; decide⟩⟩

theorem witness_PadContAddsTwoHundredFiftyFour :
    AtField .padind (inside [3#8, 0x81#8, 0xFF#8] (atChain 0x81#8)) 3 (atChain 0x81#8) := inside_atField _ _

/-- k + P one above N - 2; CBR with a remainder; CBR without; VBR with M = 1, k + P equal to N - 2; VBR with M = 2. -/
theorem witness_PadTermEndsChain :
    (AtField .padind (inside [3#8, 0x81#8, 1#8] (atChain 0x81#8)) 3 (atChain 0x81#8) ∧
      fchPadFlag (atChain 0x81#8).fch = true ∧ (atChain 0x81#8).lens = [] ∧ 1 ≤ (fchCount 0x81#8).toNat ∧
      3 - 2 < (0 + 1) + (0 + 1)) ∧
    (AtField .padind (inside [3#8, 0x82#8, 0#8, 0#8] (atChain 0x82#8)) 4 (atChain 0x82#8) ∧
      (0 + 1) + (0 + 0) ≤ 4 - 2 ∧ fchVbrFlag (atChain 0x82#8).fch = false ∧ (4 - 0 - 3) % 2 ≠ 0) ∧
    (AtField .padind (inside [3#8, 0x81#8, 1#8, 0#8] (atChain 0x81#8)) 4 (atChain 0x81#8) ∧
      (0 + 1) + (0 + 1) ≤ 4 - 2 ∧ fchVbrFlag (atChain 0x81#8).fch = false ∧ (4 - 1 - 3) % 1 = 0) ∧
    (AtField .padind (inside [3#8, 0xC1#8, 0#8] (atChain 0xC1#8)) 3 (atChain 0xC1#8) ∧
      (0 + 1) + (0 + 0) ≤ 3 - 2 ∧ fchVbrFlag (atChain 0xC1#8).fch = true ∧ (fchCount 0xC1#8).toNat = 1) ∧
    (AtField .padind (inside [3#8, 0xC2#8, 0#8] (atChain 0xC2#8)) 3 (atChain 0xC2#8) ∧
      (0 + 1) + (0 + 0) ≤ 3 - 2 ∧ fchVbrFlag (atChain 0xC2#8).fch = true ∧ (fchCount 0xC2#8).toNat ≠ 1) :=
  ⟨⟨inside_atField _ _, by decide⟩, ⟨inside_atField _ _, by decide⟩, ⟨inside_atField _ _, by decide⟩,
    ⟨inside_atField _ _, by decide⟩, ⟨inside_atField _ _, by decide⟩⟩

/-! ## Witnesses: Host accesses -/

/-- At the first address outside the buffer, at the last one inside, in BUSY, in IDLE and in OK. -/
theorem witness_ByteWriteStores :
    okBlock.config.pktCap ≤ 4096 ∧ busyBlock.status = .busy ∧
    (4095 < okBlock.config.pktCap ∧ okBlock.status ≠ .busy ∧ okBlock.status ≠ .idle) ∧
    (4095 < State.reset.config.pktCap ∧ State.reset.status = .idle) := by decide

theorem witness_ByteReadReturns :
    okBlock.config.pktCap ≤ 4096 ∧ (4095 < okBlock.config.pktCap ∧ memRead okBlock.inBuf 4095 = none) ∧
    (0 < okBlock.config.pktCap ∧ memRead okBlock.inBuf 0 = some 0x08#8) := by decide

theorem witness_LengthWriteSets :
    okBlock.config.pktCap < 4097 ∧ busyBlock.status = .busy ∧
    (4096 ≤ okBlock.config.pktCap ∧ okBlock.status ≠ .busy ∧ okBlock.status ≠ .idle) ∧
    State.reset.status = .idle := by decide

theorem witness_RegisterReadReturns :
    Reg.ofIndex 0x0B#8 = none ∧
    (Reg.ofIndex 0x41#8 = some (.frameOff 1) ∧ readReg okBlock (.frameOff 1) = none) ∧
    (Reg.ofIndex 0x40#8 = some (.frameOff 0) ∧ readReg okBlock (.frameOff 0) = some 1) := by decide

theorem witness_ParseStarts :
    busyBlock.status = .busy ∧ State.reset.inLen = none ∧ (okBlock.status ≠ .busy ∧ okBlock.inLen ≠ none) := by decide

theorem witness_ClearDropsResult : busyBlock.status = .busy ∧ okBlock.status ≠ .busy := by decide

/-- The least reserved value, the least with a bit above bit 1, and the greatest. -/
theorem witness_ReservedCommandRefused :
    (0x03#8 : Byte) = 0x03#8 ∧ (0x04#8 : Byte).toNat / 4 ≠ 0 ∧ (0xFF#8 : Byte).toNat / 4 ≠ 0 := by decide

/-- STATUS, ERR_KIND, the first reserved index and the last one; the least and the greatest reserved command. -/
theorem witness_RegisterWrites :
    [0x01, 0x03, 0x0B, 0xFF].all (fun x => decide (x ≤ 0xFF ∧ x ≠ 0x00 ∧ x ≠ 0x02)) = true ∧
    (3 ≤ (0x03#8 : Byte).toNat ∧ 3 ≤ (0xFF#8 : Byte).toNat) := by decide

/-! ## Witnesses: frames and the whole machine -/

theorem witness_PacketFieldFrame :
    Instr.isPacketField (.toc0 1#5 false) = true ∧
    ∃ t, exec (.toc0 1#5 false) (inside [0x08#8] Work.start) = .next t := ⟨rfl, _, rfl⟩

theorem witness_HostReadFrame :
    (∃ t, exec (.rb 0) busyBlock = .next t) ∧ (∃ t, exec (.rr 0x01#8) busyBlock = .next t) ∧
    ∃ t, exec .cmdNop busyBlock = .next t := ⟨⟨_, rfl⟩, ⟨_, rfl⟩, ⟨_, rfl⟩⟩

theorem witness_HostWriteFrame :
    (∃ t, exec (.wb 4095 0#8) okBlock = .next t) ∧ (∃ t, exec (.wrInLen 4096) okBlock = .next t) ∧
    (∃ t, exec .cmdParse okBlock = .next t) ∧ ∃ t, exec .cmdClear okBlock = .next t :=
  ⟨⟨_, rfl⟩, ⟨_, rfl⟩, ⟨_, rfl⟩, ⟨_, rfl⟩⟩

/-- A byte write and a reset that change a byte. -/
theorem witness_OnlyByteWritesChangeBuffer :
    (∃ t, step { okBlock with pending := [.access (byteWrite 0 1#8)] } = .next t ∧
      memRead t.inBuf 0 ≠ memRead okBlock.inBuf 0) ∧
    ∃ t, step { okBlock with pending := [.reset] } = .next t ∧ memRead t.inBuf 0 ≠ memRead okBlock.inBuf 0 :=
  ⟨⟨_, rfl, by decide⟩, ⟨_, rfl, by decide⟩⟩

theorem witness_BusyBlockKeepsItsState :
    busyBlock.status = .busy ∧ ∃ t, step { busyBlock with pending := [.access (byteRead 0)] } = .next t :=
  ⟨rfl, _, rfl⟩

theorem witness_ParserStepEnds :
    busyBlock.status = .busy ∧ busyBlock.inLen = some 1 ∧ PacketWritten busyBlock 1 :=
  ⟨rfl, rfl, fun a h => by
    obtain rfl : a = 0 := by omega
    decide⟩

/-- A memory with one more byte above the packet. -/
theorem witness_BytesBeyondPacketIgnored :
    busyBlock.status = .busy ∧ busyBlock.inLen = some 1 ∧
    ∀ a, a < 1 → memRead [(0, 0x08#8), (1, 0xFF#8)] a = memRead busyBlock.inBuf a :=
  ⟨rfl, rfl, fun a h => by
    obtain rfl : a = 0 := by omega
    decide⟩

/-- The header end of these bytes as a packet. -/
def headerEndOf (l : List Byte) : Nat := headerEnd (memRead (memWriteAll [] 0 l)) l.length

/-- Z2, W1, E7b, P6 and V13 of 95_test_vectors.md end in OK: HDR_BYTES. -/
theorem test_headerEnd_ok :
    headerEndOf [8#8, 0#8, 0#8] = 1 ∧ headerEndOf [2#8, 3#8, 0#8, 0#8, 0#8] = 2 ∧
    headerEndOf [0x0B#8, 0x43#8, 3#8, 3#8, 0#8, 0#8, 0#8, 0#8, 0#8, 0#8, 0#8, 0#8] = 4 ∧
    headerEndOf [3#8, 0x81#8, 2#8, 0#8, 0#8, 0#8] = 3 ∧
    headerEndOf [3#8, 0xC3#8, 1#8, 2#8, 1#8, 0xA0#8, 0xA1#8, 0xB0#8, 0xC0#8, 0xC1#8, 0#8] = 5 := by decide

/-- E4a, W2, C2, Q1, Q6, V8 and E7d end in ERR: the header bytes up to the failing check. -/
theorem test_headerEnd_err :
    headerEndOf [9#8, 1#8, 2#8, 3#8, 4#8, 5#8] = 1 ∧ headerEndOf [2#8, 4#8, 0#8, 0#8, 0#8] = 2 ∧
    headerEndOf [3#8, 2#8, 0#8, 0#8, 0#8] = 2 ∧ headerEndOf [3#8, 0#8, 0xFF#8] = 2 ∧
    headerEndOf [3#8, 0xC2#8, 5#8, 0xFC#8] = 3 ∧ headerEndOf [3#8, 0xC2#8, 1#8, 0xFC#8, 0#8] = 4 ∧
    headerEndOf [0x0B#8, 0x43#8, 5#8, 5#8, 0#8, 0#8, 0#8, 0#8, 0#8, 0#8, 0#8, 0#8] = 4 := by decide

/-- Packets that end in OK (Z2), in ERR (C2) and in the fault, each with a memory that lacks or changes what lies above the
header end. -/
theorem witness_OnlyHeaderBytesMatter :
    ((placePacket [8#8, 0#8, 0#8] State.reset).status = .busy ∧
      (∃ t, parserTurn (placePacket [8#8, 0#8, 0#8] State.reset) = .next t ∧ t.hdrBytes = some 1) ∧
      headerEnd (memRead (placePacket [8#8, 0#8, 0#8] State.reset).inBuf) 3 = 1 ∧
      memRead [(0, 8#8)] 0 = memRead (placePacket [8#8, 0#8, 0#8] State.reset).inBuf 0) ∧
    ((∃ t, parserTurn (placePacket [3#8, 2#8, 0#8, 0#8, 0#8] State.reset) = .next t ∧ t.status = .err) ∧
      headerEnd (memRead (placePacket [3#8, 2#8, 0#8, 0#8, 0#8] State.reset).inBuf) 5 = 2 ∧
      ∀ a, a < 2 → memRead [(0, 3#8), (1, 2#8), (4, 9#8)] a =
        memRead (placePacket [3#8, 2#8, 0#8, 0#8, 0#8] State.reset).inBuf a) ∧
    headerEnd (memRead [(0, 2#8)]) 3 = 2 :=
  ⟨⟨rfl, ⟨_, rfl, rfl⟩, by decide, by decide⟩, ⟨⟨_, rfl, rfl⟩, by decide, by decide⟩, by decide⟩

theorem witness_ConfigurationPassedThrough :
    busyBlock.status = .busy ∧ memRead busyBlock.inBuf 0 = some 0x08#8 ∧ tocCode 0xFC#8 = tocCode 0x08#8 ∧
    ∃ t, parserTurn busyBlock = .next t := ⟨rfl, rfl, rfl, _, rfl⟩

theorem witness_ParseIsIdempotent : busyBlock.status = .busy ∧ ∃ t, parserTurn busyBlock = .next t := ⟨rfl, _, rfl⟩

/-! ## Witnesses: invariants and the laws of a result -/

/-- The state after a parse that gives `p` on these bytes. -/
def resultOf (l : List Byte) (p : Parsed) : State := recordOk p (placePacket l State.reset)

theorem resultOf_inv (l : List Byte) (p : Parsed) (h : specParse (memRead (memWriteAll [] 0 l)) l.length = .ok p) :
    ResultInv (resultOf l p) :=
  ⟨l.length, p, rfl, h, (recordOk_endsOk p _).2.2.1⟩

theorem errBlock_inv : ResultInv errBlock := ⟨0, .packetTooShort 0, rfl, rfl, (recordError_endsErr _ _).2.2.1⟩

/-- V13 of 95_test_vectors.md: three VBR frames and one padding byte. -/
def vbrPacket : List Byte := [3#8, 0xC3#8, 1#8, 2#8, 1#8, 0xA0#8, 0xA1#8, 0xB0#8, 0xC0#8, 0xC1#8, 0#8]

/-- Its result (program 2 of 95_test_vectors.md). -/
def vbrResult : State :=
  resultOf vbrPacket
    { toc := 3#8, fch := 0xC3#8, hdr := 5, frames := [⟨5, 2⟩, ⟨7, 1⟩, ⟨8, 2⟩], pad := some ⟨10, 1, 1⟩ }

theorem vbrResult_inv : ResultInv vbrResult := resultOf_inv _ _ rfl

/-- Z1, O3, W1 and C3 of 95_test_vectors.md: a result of each code. -/
def code0Result : State := resultOf [8#8] { toc := 8#8, fch := 1#8, hdr := 1, frames := [⟨1, 0⟩], pad := none }
def code1Result : State :=
  resultOf [1#8, 0#8, 0#8] { toc := 1#8, fch := 2#8, hdr := 1, frames := [⟨1, 1⟩, ⟨2, 1⟩], pad := none }
def code2Result : State :=
  resultOf [2#8, 3#8, 0#8, 0#8, 0#8] { toc := 2#8, fch := 2#8, hdr := 2, frames := [⟨2, 3⟩, ⟨5, 0⟩], pad := none }
def cbrResult : State :=
  resultOf [3#8, 0x82#8, 1#8, 0#8, 0#8, 0#8]
    { toc := 3#8, fch := 0x82#8, hdr := 3, frames := [⟨3, 1⟩, ⟨4, 1⟩], pad := some ⟨5, 1, 1⟩ }

theorem code0Result_inv : ResultInv code0Result := resultOf_inv _ _ rfl
theorem code1Result_inv : ResultInv code1Result := resultOf_inv _ _ rfl
theorem code2Result_inv : ResultInv code2Result := resultOf_inv _ _ rfl
theorem cbrResult_inv : ResultInv cbrResult := resultOf_inv _ _ rfl

theorem vbrResult_bufferInv : BufferInv vbrResult :=
  ⟨by decide, by decide, by decide, fun n h => by cases h; decide, rfl⟩

theorem witness_StepKeepsBufferInv :
    BufferInv vbrResult ∧ ∃ t, step { vbrResult with pending := [.access (byteWrite 4095 0#8)] } = .next t :=
  ⟨vbrResult_bufferInv, _, rfl⟩

/-- A state of each STATE that meets the invariant, and a Parser step from the BUSY one. -/
theorem witness_StepKeepsResultInv :
    ResultInv vbrResult ∧ ResultInv errBlock ∧ ResultInv State.reset ∧ ResultInv busyBlock ∧
    ∃ t, step busyBlock = .next t :=
  ⟨vbrResult_inv, errBlock_inv, ⟨⟨rfl, rfl⟩, ⟨rfl, rfl, rfl, rfl, rfl, rfl, rfl, rfl, rfl⟩⟩,
    ⟨⟨1, rfl⟩, ⟨rfl, rfl⟩, ⟨rfl, rfl, rfl, rfl, rfl, rfl, rfl, rfl, rfl⟩⟩, _, rfl⟩

theorem witness_ResetIsSafe : Config.chosen.wf = true ∧ ({ pktCap := 1, lenW := 1 } : Config).wf = true := by decide

theorem witness_RegisterValidity :
    (ResultInv vbrResult ∧ vbrResult.status = .ok) ∧ (ResultInv errBlock ∧ errBlock.status = .err) ∧
    State.reset.status = .idle ∧ busyBlock.status = .busy ∧ vbrResult.fch = some 0xC3#8 ∧
    (2 < (fchCount 0xC3#8).toNat ∧ ¬ 3 < (fchCount 0xC3#8).toNat) :=
  ⟨⟨vbrResult_inv, rfl⟩, ⟨errBlock_inv, rfl⟩, rfl, rfl, rfl, by decide⟩

theorem witness_ResetValues : State.reset = State.reset ∧ State.resetWith Config.chosen = State.reset := ⟨rfl, rfl⟩

theorem witness_ResetAtAnyTime :
    ({ busyBlock with pending := [.reset, .parser] } : State).pending = .reset :: [.parser] := rfl

theorem witness_PacketLengthAddsUp : ResultInv vbrResult ∧ vbrResult.status = .ok := ⟨vbrResult_inv, rfl⟩

/-- Slots 1 and 2 follow each other, and slot 2 is the last of three. -/
theorem witness_FramesBackToBack :
    ResultInv vbrResult ∧ vbrResult.status = .ok ∧ vbrResult.inLen = some 11 ∧ vbrResult.fch = some 0xC3#8 ∧
    (2 : Fin 48).val = (1 : Fin 48).val + 1 ∧ (2 : Fin 48).val < (fchCount 0xC3#8).toNat ∧
    (2 : Fin 48).val + 1 = (fchCount 0xC3#8).toNat := ⟨vbrResult_inv, rfl, rfl, rfl, by decide, by decide, by decide⟩

theorem witness_FrameCountAndHeaderByCode :
    (ResultInv code0Result ∧ code0Result.status = .ok ∧ code0Result.toc = some 8#8 ∧ code0Result.fch = some 1#8 ∧
      code0Result.hdrBytes = some 1 ∧ 1 = (fchCount 1#8).toNat ∧ tocCode 8#8 = 0#2) ∧
    (ResultInv code1Result ∧ code1Result.status = .ok ∧ code1Result.toc = some 1#8 ∧ tocCode 1#8 = 1#2) ∧
    (ResultInv code2Result ∧ code2Result.status = .ok ∧ code2Result.toc = some 2#8 ∧ tocCode 2#8 = 2#2) ∧
    (ResultInv vbrResult ∧ vbrResult.status = .ok ∧ vbrResult.toc = some 3#8 ∧ tocCode 3#8 = 3#2 ∧
      fchVbrFlag 0xC3#8 = true) ∧
    (ResultInv cbrResult ∧ cbrResult.status = .ok ∧ cbrResult.toc = some 3#8 ∧ fchVbrFlag 0x82#8 = false) :=
  ⟨⟨code0Result_inv, rfl, rfl, rfl, rfl, rfl, rfl⟩, ⟨code1Result_inv, rfl, rfl, rfl⟩, ⟨code2Result_inv, rfl, rfl, rfl⟩,
    ⟨vbrResult_inv, rfl, rfl, rfl, rfl⟩, ⟨cbrResult_inv, rfl, rfl, rfl⟩⟩

theorem witness_EqualFrames :
    (ResultInv code1Result ∧ code1Result.status = .ok ∧ code1Result.inLen = some 3 ∧ code1Result.hdrBytes = some 1 ∧
      code1Result.toc = some 1#8 ∧ code1Result.fch = some 2#8 ∧ tocCode 1#8 = 1#2) ∧
    (ResultInv cbrResult ∧ cbrResult.status = .ok ∧ cbrResult.inLen = some 6 ∧ cbrResult.hdrBytes = some 3 ∧
      cbrResult.toc = some 3#8 ∧ cbrResult.fch = some 0x82#8 ∧ tocCode 3#8 = 3#2 ∧ fchVbrFlag 0x82#8 = false ∧
      (1 : Fin 48).val < (fchCount 0x82#8).toNat) :=
  ⟨⟨code1Result_inv, rfl, rfl, rfl, rfl, rfl, rfl⟩, ⟨cbrResult_inv, rfl, rfl, rfl, rfl, rfl, rfl, rfl, by decide⟩⟩

theorem witness_PaddingIsTail :
    ResultInv vbrResult ∧ vbrResult.status = .ok ∧ vbrResult.inLen = some 11 ∧ vbrResult.padOff = some 10 ∧
    vbrResult.padLen = some 1 ∧ vbrResult.frameOff[(2 : Fin 48)] = some 8 ∧ vbrResult.frameLen[(2 : Fin 48)] = some 2 :=
  ⟨vbrResult_inv, rfl, rfl, rfl, rfl, rfl, rfl⟩

/-- A silent frame, one of two bytes, the first slot above the count, and a block in ERR. -/
theorem witness_SilenceFlagIffEmpty :
    (ResultInv code0Result ∧ code0Result.status = .ok ∧ code0Result.fch = some 1#8 ∧
      (0 : Fin 48).val < (fchCount 1#8).toNat ∧ (fchCount 1#8).toNat ≤ (1 : Fin 48).val) ∧
    (ResultInv vbrResult ∧ vbrResult.status = .ok ∧ vbrResult.frameLen[(0 : Fin 48)] = some 2) ∧
    (ResultInv errBlock ∧ errBlock.status ≠ .ok) :=
  ⟨⟨code0Result_inv, rfl, rfl, by decide, by decide⟩, ⟨vbrResult_inv, rfl, rfl⟩, ⟨errBlock_inv, by decide⟩⟩

theorem witness_TocAndFchRegisters :
    (ResultInv vbrResult ∧ vbrResult.status = .ok) ∧ (ResultInv errBlock ∧ errBlock.status ≠ .ok) :=
  ⟨⟨vbrResult_inv, rfl⟩, ⟨errBlock_inv, by decide⟩⟩

/-- PAD_OFF of a result, with every premise. -/
theorem witness_ValuesFitLenW :
    Safe vbrResult ∧ (∀ i, Reg.padOff ≠ .frameSil i) ∧ Reg.padOff ≠ .ctrl ∧ Reg.padOff ≠ .status ∧
    Reg.padOff ≠ .errKind ∧ Reg.padOff ≠ .toc ∧ Reg.padOff ≠ .fch ∧ readReg vbrResult .padOff = some 10 :=
  ⟨⟨vbrResult_bufferInv, vbrResult_inv⟩, by simp, by decide, by decide, by decide, by decide, by decide, rfl⟩

/-! ## Witnesses: padding and headers -/

/-- An all-255 chain of two bytes; a chain 255, 1 that is too long; and the shortest chain, whose parse succeeds. -/
theorem witness_PaddingChains :
    ((placePacket [3#8, 0x81#8, 0xFF#8, 0xFF#8] State.reset).status = .busy ∧
      (placePacket [3#8, 0x81#8, 0xFF#8, 0xFF#8] State.reset).inLen = some 4 ∧ 2 ≤ 4 ∧
      memRead [(0, 3#8), (1, 0x81#8), (2, 0xFF#8), (3, 0xFF#8)] 0 = some 3#8 ∧ tocCode 3#8 = 3#2 ∧
      memRead [(0, 3#8), (1, 0x81#8), (2, 0xFF#8), (3, 0xFF#8)] 1 = some 0x81#8 ∧ legalCount (fchCount 0x81#8) = true ∧
      fchPadFlag 0x81#8 = true ∧
      memRead (placePacket [3#8, 0x81#8, 0xFF#8, 0xFF#8] State.reset).inBuf 2 = some 0xFF#8 ∧
      memRead (placePacket [3#8, 0x81#8, 0xFF#8, 0xFF#8] State.reset).inBuf 3 = some 0xFF#8) ∧
    (2 + 1 < 4 ∧ memRead (placePacket [3#8, 0x81#8, 0xFF#8, 1#8] State.reset).inBuf 2 = some 0xFF#8 ∧
      memRead (placePacket [3#8, 0x81#8, 0xFF#8, 1#8] State.reset).inBuf 3 = some 1#8 ∧ (1#8 : Byte) ≠ 0xFF#8 ∧
      4 - 2 < 1 + 1 + (254 * 1 + 1)) ∧
    (2 + 0 < 3 ∧ memRead (placePacket [3#8, 0x81#8, 0#8] State.reset).inBuf 2 = some 0#8 ∧
      0 + 1 + (254 * 0 + 0) ≤ 3 - 2 ∧
      ∃ t, parserTurn (placePacket [3#8, 0x81#8, 0#8] State.reset) = .next t ∧ t.status = .ok) :=
  ⟨by decide, by decide, by decide, by decide, by decide, _, rfl, rfl⟩

/-- The counts 0, 49 and 63. -/
theorem witness_IllegalCountAlwaysFails :
    (placePacket [3#8, 0x80#8] State.reset).status = .busy ∧
    (placePacket [3#8, 0x80#8] State.reset).inLen = some 2 ∧ 2 ≤ 2 ∧
    memRead (placePacket [3#8, 0x80#8] State.reset).inBuf 0 = some 3#8 ∧ tocCode 3#8 = 3#2 ∧
    memRead (placePacket [3#8, 0x80#8] State.reset).inBuf 1 = some 0x80#8 ∧ (fchCount 0x80#8).toNat = 0 ∧
    (fchCount 0x31#8).toNat = 49 ∧ (fchCount 0xFF#8).toNat = 63 := by decide

/-- Loading three bytes into a block that holds a result. -/
theorem witness_LoadPktLoads :
    code0Result.status ≠ .busy ∧ [1#8, 2#8, 3#8].length ≤ code0Result.config.pktCap ∧
    ({ code0Result with pending := (pseudoLoadPkt [1#8, 2#8, 3#8]).map Event.access ++ [.parser] } : State).pending =
      (pseudoLoadPkt [1#8, 2#8, 3#8]).map Event.access ++ [.parser] := ⟨by decide, by decide, rfl⟩

end Sys2Proof.Tests
end

section
/-! SUPPORT. What a Host access decodes to, the buffer invariant (00_scope.md R11, R12, 10_state.md R30, R39,
20_memory.md R80) under each named operation, and the statements on the step: O44, O7, O9. -/

namespace Sys2Proof.Machine

/-! ### What a Host access decodes to (R126) -/

theorem decodeCtrl_isPacketField (v : Byte) : (decodeCtrl v).isPacketField = false := by
  unfold decodeCtrl
  split
  · rfl
  · split
    · rfl
    · split <;> rfl

theorem decodeRegWrite_isPacketField {x v : Nat} {i : Instr} (h : decodeRegWrite x v = .ok i) :
    i.isPacketField = false := by
  unfold decodeRegWrite at h
  split at h
  · cases h
  · split at h
    · cases h; exact decodeCtrl_isPacketField _
    · cases h
  · cases h; rfl
  · cases h

theorem decodeRegAccess_isPacketField {a : Access} {i : Instr} (h : decodeRegAccess a = .ok i) :
    i.isPacketField = false := by
  unfold decodeRegAccess at h
  split at h
  · cases h
  · split at h
    · exact decodeRegWrite_isPacketField h
    · cases h
    · cases h; rfl
    · cases h

theorem decodeBufAccess_isPacketField {a : Access} {i : Instr} (h : decodeBufAccess a = .ok i) :
    i.isPacketField = false := by
  unfold decodeBufAccess at h
  split at h
  · split at h
    · cases h; rfl
    · cases h
  · cases h
  · cases h; rfl
  · cases h

/-- A Host access never decodes to a packet field. -/
theorem decode_access_isPacketField {a : Access} {i : Instr} (h : decode (.access a) = .ok i) :
    i.isPacketField = false := by
  change decodeAccess a = .ok i at h
  unfold decodeAccess at h
  split at h
  · exact decodeBufAccess_isPacketField h
  · exact decodeRegAccess_isPacketField h

/-- What an accepted Host access does: the instruction it decodes to has its result. -/
theorem hostAccess_result {a : Access} {s t : State} (h : hostAccess a s = .next t) :
    ∃ i, decode (.access a) = .ok i ∧ HostResult s t i := by
  obtain ⟨i, hi, hexec⟩ := hostAccess_next h
  exact ⟨i, hi, exec_host_next (decode_access_isPacketField hi) hexec⟩

/-- An access that decodes runs the instruction it decodes to (R126). -/
theorem hostAccess_of_decode {a : Access} {i : Instr} (h : decode (.access a) = .ok i) (s : State) :
    hostAccess a s = exec i s := by
  simp [hostAccess, h]

/-- The Parser's turn changes nothing in a block that is not BUSY (log entry 6). -/
theorem parserTurn_of_not_busy {s : State} (h : s.status ≠ .busy) : parserTurn s = .next s := by
  simp [parserTurn, h]

/-! ### The buffer invariant -/

theorem BufferInv.work_eq_none {s : State} (hs : BufferInv s) : s.work = none := by
  obtain ⟨-, -, -, -, hwork⟩ := hs
  exact hwork

/-- The buffer invariant reads the parameters, IN_BUF, IN_LEN and the working values only. -/
theorem BufferInv.of_same {s t : State} (hs : BufferInv s) (hconfig : t.config = s.config)
    (hbuf : t.inBuf = s.inBuf) (hlen : t.inLen = s.inLen) (hwork : t.work = none) : BufferInv t := by
  obtain ⟨hwf, hrises, hbelow, hle, -⟩ := hs
  unfold BufferInv
  rw [hconfig, hbuf, hlen]
  exact ⟨hwf, hrises, hbelow, hle, hwork⟩

/-- A byte written below PKT_CAP keeps the buffer invariant (R261). -/
theorem bufferInv_writeByte {s : State} (hs : BufferInv s) {a : Nat} (v : Byte) (ha : a < s.config.pktCap) :
    BufferInv { s with inBuf := memWrite s.inBuf a v } := by
  obtain ⟨hwf, hrises, hbelow, hle, hwork⟩ := hs
  exact ⟨hwf, memWf_memWrite _ a v hrises, memBelow_memWrite _ _ a v ha hbelow, hle, hwork⟩

/-- A length of at most PKT_CAP keeps the buffer invariant (R263). -/
theorem bufferInv_setLength {s : State} (hs : BufferInv s) {n : Nat} (hn : n ≤ s.config.pktCap) :
    BufferInv { s with inLen := some n } := by
  obtain ⟨hwf, hrises, hbelow, -, hwork⟩ := hs
  exact ⟨hwf, hrises, hbelow, fun m hm => by cases hm; exact hn, hwork⟩

/-- Clearing the results after a packet write keeps the buffer invariant (R88). -/
theorem bufferInv_packetChanged {s : State} (hs : BufferInv s) : BufferInv (packetChanged s) :=
  hs.of_same (packetChanged_config s) (packetChanged_inBuf s) (packetChanged_inLen s)
    ((packetChanged_work s).trans hs.work_eq_none)

/-- Reset keeps the parameters and empties IN_BUF and IN_LEN (R55). -/
theorem bufferInv_applyReset {s : State} (hs : BufferInv s) : BufferInv (applyReset s) :=
  ⟨hs.1, rfl, rfl, nofun, rfl⟩

/-- An accepted Host instruction keeps the buffer invariant. -/
theorem bufferInv_hostResult {s t : State} {i : Instr} (hs : BufferInv s) (h : HostResult s t i) : BufferInv t := by
  have hwork := hs.work_eq_none
  cases h with
  | readByte a v _ ht => subst ht; exact hs.of_same rfl rfl rfl hwork
  | readRegister x r v _ _ ht => subst ht; exact hs.of_same rfl rfl rfl hwork
  | nop ht => subst ht; exact hs
  | writeByte a v ha _ ht => subst ht; exact bufferInv_packetChanged (bufferInv_writeByte hs v ha)
  | setLength n hn _ ht => subst ht; exact bufferInv_packetChanged (bufferInv_setLength hs hn)
  | parse _ _ ht => subst ht; exact hs.of_same rfl rfl rfl hwork
  | clear _ ht => subst ht; exact hs.of_same rfl rfl rfl hwork

/-- The Parser's turn keeps the buffer invariant: it writes result registers only (R81), and its working values are
gone at the end (R30). -/
theorem bufferInv_parserTurn {s t : State} (hs : BufferInv s) (h : parserTurn s = .next t) : BufferInv t := by
  rcases parserTurn_next h with ⟨-, rfl⟩ | ⟨-, -, ⟨p, rfl⟩ | ⟨e, rfl⟩⟩
  · exact hs
  · exact hs.of_same rfl rfl rfl rfl
  · exact hs.of_same rfl rfl rfl rfl

/-! ### The statements on the step -/

/-- Settles O44, by the three things a step can be: what each changes keeps the invariant. -/
theorem stepKeepsBufferInv : Obligations.StepKeepsBufferInv := by
  intro s t hs h
  rcases step_next h with ⟨a, rest, -, haccess⟩ | ⟨rest, -, hturn⟩ | ⟨rest, -, rfl⟩
  all_goals have htaken : BufferInv { s with pending := rest } := hs
  · obtain ⟨i, -, hresult⟩ := hostAccess_result haccess
    exact bufferInv_hostResult htaken hresult
  · exact bufferInv_parserTurn htaken hturn
  · exact bufferInv_applyReset htaken

/-- Settles O7: the step of an access event is the access, and that is the instruction it decodes to. -/
theorem stepRunsDecodedAccess : Obligations.StepRunsDecodedAccess := by
  intro s a rest i hpending hdecode
  rw [step_access hpending, hostAccess_of_decode hdecode]

/-- Settles O9, from the equations of the step and of the Parser's turn. -/
theorem stepGivesParserItsTurn : Obligations.StepGivesParserItsTurn :=
  ⟨fun _ => step_idle, fun _ _ => step_parser, fun _ => parserTurn_of_not_busy, fun _ _ => parserTurn_busy⟩

end Sys2Proof.Machine
end

section
/-! SUPPORT. What Parse(N) can end in, said once for each of its functions: a result that is sound for an N-byte packet
(43_assembler.md R229-R237), or an error whose recorded count is at most N. From it, the bound of every offset, length and
count register and the statement O57 (00_scope.md R12). -/

namespace Sys2Proof.Machine

/-! ### Back-to-back frames (R229) -/

theorem chained_le {fs : List Frame} {a b : Nat} (h : chained a fs b) : a ≤ b := by
  induction fs generalizing a with
  | nil => exact le_of_eq h
  | cons f rest ih =>
    obtain ⟨-, hrest⟩ := h
    have := ih hrest
    omega

/-- Every frame of a chain ends at or before the chain's end. -/
theorem end_le_of_mem_chained {fs : List Frame} {a b : Nat} (h : chained a fs b) {f : Frame} (hf : f ∈ fs) :
    f.off + f.len ≤ b := by
  induction fs generalizing a with
  | nil => cases hf
  | cons g rest ih =>
    obtain ⟨hoff, hrest⟩ := h
    rcases List.mem_cons.1 hf with rfl | hmem
    · have := chained_le hrest
      omega
    · exact ih hrest hmem

/-! ### Ways a part of Parse can end -/

/-- What the error records as the bytes that were left is at most `n` (R41, R295). -/
def ParseStop.AvailLe (n : Nat) : ParseStop → Prop
  | .raised (.packetTooShort avail) => avail ≤ n
  | .raised .invalidPacket => True
  | .raised .invalidFrameLength => True
  | .unwritten _ => True

/-- A part of Parse on an `n`-byte packet gives a value with property `P`, or stops with at most `n` bytes recorded. -/
def Yields {α : Type} (n : Nat) (P : α → Prop) : Except ParseStop α → Prop
  | .ok a => P a
  | .error e => e.AvailLe n

/-- Two parts in sequence: the second may use what the first yields. -/
theorem Yields.bind {α β : Type} {n : Nat} {P : α → Prop} {Q : β → Prop} {x : Except ParseStop α}
    {f : α → Except ParseStop β} (hx : Yields n P x) (hf : ∀ a, P a → Yields n Q (f a)) : Yields n Q (x >>= f) := by
  cases x with
  | ok a => exact hf a hx
  | error e => exact hx

theorem Yields.mono {α : Type} {n : Nat} {P Q : α → Prop} {x : Except ParseStop α} (hx : Yields n P x)
    (h : ∀ a, P a → Q a) : Yields n Q x := by
  cases x with
  | ok a => exact h a hx
  | error e => exact hx

theorem specRead_yields (mem : Nat → Option Byte) (n a : Nat) : Yields n (fun b => mem a = some b) (specRead mem a) := by
  unfold specRead
  split
  · assumption
  · trivial

section
variable (mem : Nat → Option Byte) {n : Nat}

/-! ### Frame lengths (R150, R224) -/

/-- A frame-length field lies before the end of its region (R150, R155). -/
theorem specFrameLen_yields (pos stop : Nat) :
    Yields n (fun r => pos + r.2 ≤ stop) (specFrameLen mem pos stop) := by
  unfold specFrameLen
  split
  · next h => exact show stop - pos ≤ n by omega
  · refine (specRead_yields mem n pos).bind fun b0 _ => ?_
    split
    · exact show pos + 1 ≤ stop by omega
    · split
      · trivial
      · refine (specRead_yields mem n (pos + 1)).bind fun b1 _ => ?_
        exact show pos + 2 ≤ stop by omega

theorem specLengths_yields (stop count : Nat) : ∀ {pos : Nat}, pos ≤ stop →
    Yields n (fun r => r.1.length = count ∧ r.2 ≤ stop) (specLengths mem stop count pos) := by
  induction count with
  | zero => exact fun hpos => ⟨rfl, hpos⟩
  | succ count ih =>
    intro pos _
    refine (specFrameLen_yields mem pos stop).bind fun ⟨l, c⟩ hc => ?_
    refine (ih hc).bind fun ⟨ls, pos'⟩ ⟨hlen, hpos'⟩ => ?_
    exact ⟨congrArg Nat.succ hlen, hpos'⟩

/-! ### The splits (R223-R226) -/

theorem specPlace_yields (ls : List Nat) : ∀ {off rem : Nat}, rem ≤ n →
    Yields n (fun fs => fs.length = ls.length + 1 ∧ chained off fs (off + rem)) (specPlace off rem ls) := by
  induction ls with
  | nil => exact fun _ => ⟨rfl, rfl, rfl⟩
  | cons l ls ih =>
    intro off rem hrem
    unfold specPlace
    split
    · exact hrem
    · refine (ih (off := off + l) (rem := rem - l) (by omega)).bind fun fs ⟨hlen, hch⟩ => ?_
      have hend : off + l + (rem - l) = off + rem := by omega
      exact ⟨congrArg Nat.succ hlen, rfl, hend ▸ hch⟩

theorem specVbr_yields {m pos stop : Nat} (hm : 1 ≤ m) (hpos : pos ≤ stop) (hstop : stop ≤ n) :
    Yields n (fun r => r.2.length = m ∧ chained r.1 r.2 stop) (specVbr mem m pos stop) := by
  refine (specLengths_yields mem stop (m - 1) hpos).bind fun ⟨ls, hdr⟩ ⟨hlen, hhdr⟩ => ?_
  refine (specPlace_yields ls (off := hdr) (rem := stop - hdr) (by omega)).bind fun fs ⟨hfs, hch⟩ => ?_
  have hcount : fs.length = m := by simp only at hlen; omega
  have hend : hdr + (stop - hdr) = stop := by simp only at hhdr; omega
  exact ⟨hcount, hend ▸ hch⟩

theorem specCbr_yields {m pos stop : Nat} (hpos : pos ≤ stop) :
    Yields n (fun fs => fs.length = m ∧ chained pos fs stop) (specCbr m pos stop) := by
  simp only [specCbr]
  split
  · trivial
  · next hmod =>
    have hdiv : m * ((stop - pos) / m) = stop - pos := Nat.mul_div_cancel' (Nat.dvd_of_mod_eq_zero (not_not.1 hmod))
    have hend : pos + m * ((stop - pos) / m) = stop := by omega
    have hch := cbrFrames_chained m pos ((stop - pos) / m)
    rw [hend] at hch
    exact ⟨by simp, hch⟩

/-! ### Padding (R190) -/

theorem specPadLoop_yields {avail : Nat} (havail : avail ≤ n) (left : Nat) : ∀ k p : Nat,
    Yields n (fun r => 1 ≤ r.1) (specPadLoop mem avail left k p) := by
  induction left with
  | zero => exact fun _ _ => havail
  | succ left ih =>
    intro k p
    unfold specPadLoop
    split
    · exact havail
    · refine (specRead_yields mem n (2 + k)).bind fun x _ => ?_
      split
      · exact ih _ _
      · exact Nat.le_add_left 1 k

/-- The chain has at least one byte, and with its padding it fits after the two header bytes (R190, R194). -/
theorem specPadExtract_yields : Yields n (fun r => 1 ≤ r.1 ∧ r.1 + r.2 ≤ n - 2) (specPadExtract mem n) := by
  refine (specPadLoop_yields mem (Nat.sub_le n 2) (n - 2 + 1) 0 0).bind fun ⟨k, p⟩ hk => ?_
  dsimp only
  split
  · exact Nat.sub_le n 2
  · next h => exact ⟨hk, by omega⟩

/-! ### The four codes and Parse -/

theorem legalCount_iff (m : BitVec 6) : legalCount m = true ↔ 1 ≤ m.toNat ∧ m.toNat ≤ 48 := by
  simp [legalCount]

/-- A Parsed Packet that is sound for `n` bytes and has at most `n` padding indicator bytes. -/
def Parsed.SoundWithin (n : Nat) (p : Parsed) : Prop := p.Sound n ∧ p.padIndicators ≤ n

theorem soundWithin_of_noPad {p : Parsed} (hflag : fchPadFlag p.fch = false) (hpad : p.pad = none)
    (hlen : p.frames.length = (fchCount p.fch).toNat) (hlegal : legalCount (fchCount p.fch) = true)
    (hch : chained p.hdr p.frames n) : p.SoundWithin n := by
  obtain ⟨hpos, hmax⟩ := (legalCount_iff _).1 hlegal
  have htotal : p.padTotal = 0 := by simp [Parsed.padTotal, hpad]
  refine ⟨⟨hlen, by omega, by omega, by omega, by rwa [htotal], by simp [hpad, hflag], by simp [hpad]⟩, ?_⟩
  simp [Parsed.padIndicators, hpad]

theorem soundWithin_of_pad {p : Parsed} {k len : Nat} (hflag : fchPadFlag p.fch = true)
    (hpad : p.pad = some { off := n - len, len := len, ind := k })
    (hlen : p.frames.length = (fchCount p.fch).toNat) (hlegal : legalCount (fchCount p.fch) = true)
    (hch : chained p.hdr p.frames (n - len)) (hk : 1 ≤ k) (hfit : k + len ≤ n) : p.SoundWithin n := by
  obtain ⟨hpos, hmax⟩ := (legalCount_iff _).1 hlegal
  have htotal : p.padTotal = len := by simp [Parsed.padTotal, hpad]
  refine ⟨⟨hlen, by omega, by omega, by omega, by rwa [htotal], by simp [hpad, hflag], fun q hq => ?_⟩, ?_⟩
  · obtain rfl : { off := n - len, len := len, ind := k } = q := Option.some.inj (hpad.symm.trans hq)
    exact ⟨show n - len + len = n by omega, hk⟩
  · simp only [Parsed.padIndicators, hpad, Option.map_some, Option.getD_some]
    omega

theorem specCode0_yields (toc : Byte) (hn : n ≠ 0) : Yields n (Parsed.SoundWithin n) (specCode0 toc n) :=
  soundWithin_of_noPad (by simp [fchPadFlag]) rfl rfl rfl ⟨rfl, show 1 + (n - 1) = n by omega⟩

theorem specCode1_yields (toc : Byte) : Yields n (Parsed.SoundWithin n) (specCode1 toc n) := by
  simp only [specCode1]
  split
  · exact Nat.sub_le n 1
  · split
    · trivial
    · exact soundWithin_of_noPad (by simp [fchPadFlag]) rfl rfl rfl
        ⟨rfl, rfl, show 1 + (n - 1) / 2 + (n - 1) / 2 = n by omega⟩

theorem specCode2_yields (toc : Byte) : Yields n (Parsed.SoundWithin n) (specCode2 mem toc n) := by
  refine (specFrameLen_yields mem 1 n).bind fun ⟨l, k⟩ hk => ?_
  simp only at hk ⊢
  split
  · exact show n - 1 - k ≤ n by omega
  · exact soundWithin_of_noPad (by simp [fchPadFlag]) rfl rfl rfl
      ⟨rfl, rfl, show 1 + k + l + (n - 1 - k - l) = n by omega⟩

/-- The frame-data region is filled by as many frames as the header counts (R219-R221). -/
theorem specRegion_yields (toc : Byte) {fch : Byte} {pos stop : Nat} (pad : Option Pad)
    (hm : 1 ≤ (fchCount fch).toNat) (hpos : pos ≤ stop) (hstop : stop ≤ n) :
    Yields n (fun p => p.fch = fch ∧ p.pad = pad ∧ p.frames.length = (fchCount fch).toNat ∧ chained p.hdr p.frames stop)
      (specRegion mem toc fch pos stop pad) := by
  simp only [specRegion]
  split
  · exact (specVbr_yields mem hm hpos hstop).bind fun ⟨hdr, frames⟩ ⟨hlen, hch⟩ => ⟨rfl, rfl, hlen, hch⟩
  · exact (specCbr_yields hpos).bind fun frames ⟨hlen, hch⟩ => ⟨rfl, rfl, hlen, hch⟩

theorem specCode3_yields (toc : Byte) : Yields n (Parsed.SoundWithin n) (specCode3 mem toc n) := by
  unfold specCode3
  split
  · exact Nat.zero_le n
  · refine (specRead_yields mem n 1).bind fun fch _ => ?_
    dsimp only
    split
    · trivial
    · have hlegal : legalCount (fchCount fch) = true := (legalCount_iff _).2 (by omega)
      have hm : 1 ≤ (fchCount fch).toNat := by omega
      split
      · next hflag =>
        refine (specPadExtract_yields mem).bind fun ⟨k, len⟩ ⟨hk, hfit⟩ => ?_
        simp only at hk hfit
        refine (specRegion_yields mem toc _ hm (by omega) (Nat.sub_le n len)).mono ?_
        rintro p ⟨rfl, hpad, hlen, hch⟩
        exact soundWithin_of_pad hflag hpad hlen hlegal hch hk (by omega)
      · next hflag =>
        refine (specRegion_yields mem toc _ hm (by omega) le_rfl).mono ?_
        rintro p ⟨rfl, hpad, hlen, hch⟩
        exact soundWithin_of_noPad (Bool.eq_false_iff.2 hflag) hpad hlen hlegal hch

/-- Parse of an `n`-byte packet gives a sound result, or stops with at most `n` bytes recorded. -/
theorem specParse_yields (n : Nat) : Yields n (Parsed.SoundWithin n) (specParse mem n) := by
  unfold specParse
  split
  · exact Nat.zero_le n
  · next hn =>
    refine (specRead_yields mem n 0).bind fun toc _ => ?_
    split
    · exact specCode0_yields toc hn
    · exact specCode1_yields toc
    · exact specCode2_yields mem toc
    · exact specCode3_yields mem toc

end

/-! ### The registers of LEN_W bits (R12) -/

/-- The offset, length and count registers that the Parser writes hold at most `n`. -/
structure QuantitiesLe (n : Nat) (s : State) : Prop where
  errAvail : ∀ v ∈ s.errAvail, v ≤ n
  hdrBytes : ∀ v ∈ s.hdrBytes, v ≤ n
  padOff : ∀ v ∈ s.padOff, v ≤ n
  padLen : ∀ v ∈ s.padLen, v ≤ n
  padInd : ∀ v ∈ s.padInd, v ≤ n
  frameOff : ∀ i : Fin 48, ∀ v ∈ s.frameOff[i], v ≤ n
  frameLen : ∀ i : Fin 48, ∀ v ∈ s.frameLen[i], v ≤ n

theorem QuantitiesLe.mono {n m : Nat} {s : State} (h : QuantitiesLe n s) (hle : n ≤ m) : QuantitiesLe m s where
  errAvail v hv := (h.errAvail v hv).trans hle
  hdrBytes v hv := (h.hdrBytes v hv).trans hle
  padOff v hv := (h.padOff v hv).trans hle
  padLen v hv := (h.padLen v hv).trans hle
  padInd v hv := (h.padInd v hv).trans hle
  frameOff i v hv := (h.frameOff i v hv).trans hle
  frameLen i v hv := (h.frameLen i v hv).trans hle

/-- Where no result register holds a value, only ERR_AVAIL is left to bound. -/
theorem quantitiesLe_of_noResults {n : Nat} {s : State} (h : NoResults s) (havail : ∀ v ∈ s.errAvail, v ≤ n) :
    QuantitiesLe n s := by
  obtain ⟨-, -, hhdr, hpadOff, hpadLen, hpadInd, hoff, hlen, -⟩ := h
  exact ⟨havail, by simp [hhdr], by simp [hpadOff], by simp [hpadLen], by simp [hpadInd], by simp [hoff], by simp [hlen]⟩

/-- A recorded error holds in ERR_AVAIL what Parse recorded (R295). -/
theorem quantitiesLe_of_holdsError {n : Nat} {s : State} {e : ParseError} (h : HoldsError e s)
    (he : (ParseStop.raised e).AvailLe n) : QuantitiesLe n s := by
  obtain ⟨hres, herr⟩ := h
  refine quantitiesLe_of_noResults hres fun v hv => ?_
  cases e with
  | packetTooShort avail =>
    obtain ⟨-, havail⟩ := herr
    obtain rfl : avail = v := Option.some.inj (havail.symm.trans hv)
    exact he
  | invalidPacket => simp [herr.2] at hv
  | invalidFrameLength => simp [herr.2] at hv

/-- The registers of a sound result lie inside the packet: header, frames and padding do. -/
theorem quantitiesLe_of_holdsResult {n : Nat} {s : State} {p : Parsed} (h : HoldsResult p s) (hp : p.SoundWithin n) :
    QuantitiesLe n s := by
  obtain ⟨-, -, hhdr, hoff, hlen, -, hpadOff, hpadLen, hpadInd, -, havail⟩ := h
  obtain ⟨⟨-, -, -, -, hch, -, htail⟩, hind⟩ := hp
  have hframe : ∀ f ∈ p.frames, f.off + f.len ≤ n := fun f hf => (end_le_of_mem_chained hch hf).trans (Nat.sub_le _ _)
  have hpad : ∀ q ∈ p.pad, q.off ≤ n ∧ q.len ≤ n ∧ q.ind ≤ n := by
    intro q hq
    obtain ⟨hend, -⟩ := htail q hq
    have hq : p.pad = some q := hq
    simp only [Parsed.padIndicators, hq, Option.map_some, Option.getD_some] at hind
    omega
  constructor
  case errAvail => simp [havail]
  case hdrBytes =>
    have := chained_le hch
    simp only [hhdr, Option.mem_some_iff]
    omega
  case padOff => simpa [hpadOff] using fun q hq => (hpad q hq).1
  case padLen => simpa [hpadLen] using fun q hq => (hpad q hq).2.1
  case padInd => simpa [hpadInd] using fun q hq => (hpad q hq).2.2
  case frameOff =>
    intro i v hv
    rw [hoff, Option.mem_map] at hv
    obtain ⟨f, hf, rfl⟩ := hv
    have := hframe f (List.mem_of_getElem? hf)
    omega
  case frameLen =>
    intro i v hv
    rw [hlen, Option.mem_map] at hv
    obtain ⟨f, hf, rfl⟩ := hv
    have := hframe f (List.mem_of_getElem? hf)
    omega

/-- In every safe state these registers hold at most PKT_CAP. -/
theorem Safe.quantitiesLe {s : State} (h : Safe s) : QuantitiesLe s.config.pktCap s := by
  obtain ⟨⟨-, -, -, hcap, -⟩, hres⟩ := h
  have hclear : NoErrors s → NoResults s → QuantitiesLe s.config.pktCap s := fun herr hnone =>
    quantitiesLe_of_noResults hnone (by simp [herr.2])
  unfold ResultInv at hres
  split at hres
  · exact hclear hres.1 hres.2
  · exact hclear hres.2.1 hres.2.2
  · obtain ⟨n, p, hn, hparse, hholds⟩ := hres
    have hyields := specParse_yields (memRead s.inBuf) n
    rw [hparse] at hyields
    exact (quantitiesLe_of_holdsResult hholds hyields).mono (hcap n hn)
  · obtain ⟨n, e, hn, hparse, hholds⟩ := hres
    have hyields := specParse_yields (memRead s.inBuf) n
    rw [hparse] at hyields
    exact (quantitiesLe_of_holdsError hholds hyields).mono (hcap n hn)

/-- Settles O57: no such register exceeds PKT_CAP, which is below 2^LEN_W. -/
theorem valuesFitLenW : Obligations.ValuesFitLenW := by
  intro s r v hsafe hsil hctrl hstatus hkind htoc hfch hread
  have hq := hsafe.quantitiesLe
  obtain ⟨⟨hwf, -, -, hcap, -⟩, -⟩ := hsafe
  have hle : v ≤ s.config.pktCap := by
    cases r with
    | inLen => exact hcap v hread
    | errAvail => exact hq.errAvail v hread
    | hdrBytes => exact hq.hdrBytes v hread
    | padOff => exact hq.padOff v hread
    | padLen => exact hq.padLen v hread
    | padInd => exact hq.padInd v hread
    | frameOff i => exact hq.frameOff i v hread
    | frameLen i => exact hq.frameLen i v hread
    | frameSil i => exact absurd rfl (hsil i)
    | ctrl | status | errKind | toc | fch => contradiction
  have hlt : s.config.pktCap < 2 ^ s.config.lenW := by
    simp only [Config.wf, Bool.and_eq_true, decide_eq_true_eq] at hwf
    exact hwf.2
  omega

end Sys2Proof.Machine
end

section
/-! SUPPORT. The Parser step as Parse(N) (43_assembler.md R210, R211): `parseRest` is what is left of Parse from the working
values on, and one field either ends the parse as `parseRest` says or goes on to working values with the same rest, the
cursor further on and the invariant `WorkInv` kept. From it, the statements on the Parser's loop: O8, O23. -/

namespace Sys2Proof.Machine

/-! ### What is left of Parse at the cursor -/

/-- The rest of Parse in a VBR region whose lengths so far are known: the lengths still to come, then the layout of all
of them (R224). -/
def vbrRest (mem : Nat → Option Byte) (n : Nat) (w : Work) : Except ParseStop Parsed := do
  let (ls, hdr) ← specLengths mem (w.dataEnd n) ((fchCount w.fch).toNat - 1 - w.lens.length) w.cur
  let frames ← specPlace hdr (w.dataEnd n - hdr) (w.lens ++ ls)
  .ok (parsedOf n { w with cur := hdr } frames)

/-- The rest of Parse inside the padding chain: the indicator bytes still to come, then the region (R190, R219). -/
def chainRest (mem : Nat → Option Byte) (n : Nat) (w : Work) : Except ParseStop Parsed := do
  let (k, p) ← specPadLoop mem (n - 2) (n - 2 + 1 - w.padBytes) w.padBytes w.padSum
  if n - 2 < k + p then .error (.raised (.packetTooShort (n - 2)))
  else specRegion mem w.toc w.fch (2 + k) (n - p) (some { off := n - p, len := p, ind := k })

/-- The rest of Parse from the field at the cursor on. -/
def parseRest (mem : Nat → Option Byte) (n : Nat) (w : Work) : Except ParseStop Parsed :=
  match w.field with
  | .toc => specParse mem n
  | .fch => specCode3 mem w.toc n
  | .padind => chainRest mem n w
  | .flen => if tocCode w.toc = 2#2 then specCode2 mem w.toc n else vbrRest mem n w

/-- How the machine ends a parse that comes to `x` (R210, R230, R231). -/
def endWith (s : State) : Except ParseStop Parsed → Host.Outcome State Fault Refusal
  | .ok p => .next (recordOk p s)
  | .error (.raised e) => .next (recordError e s)
  | .error (.unwritten a) => .fault (.unwrittenByte a)

/-- What one field with the cursor at `c` may come to when `x` is left of Parse: the parse ends with `x`, or it goes on
with `x` still left, the invariant kept and the cursor further on (R33). -/
inductive FieldStep (s : State) (n c : Nat) (x : Except ParseStop Parsed) : Host.Outcome State Fault Refusal → Prop
  | ends : FieldStep s n c x (endWith s x)
  | goesOn (w : Work) (hinv : WorkInv n w) (hcur : c < w.cur) (hrest : parseRest (memRead s.inBuf) n w = x) :
      FieldStep s n c x (goOn w s)

/-! ### Reads of Parse in sequence -/

@[simp] theorem ok_bind {α β : Type} (a : α) (f : α → Except ParseStop β) : (Except.ok a >>= f) = f a := rfl

@[simp] theorem error_bind {α β : Type} (e : ParseStop) (f : α → Except ParseStop β) :
    (Except.error e >>= f) = .error e := rfl

theorem specRead_of_some {mem : Nat → Option Byte} {a : Nat} {b : Byte} (h : mem a = some b) : specRead mem a = .ok b := by
  simp [specRead, h]

theorem specRead_of_none {mem : Nat → Option Byte} {a : Nat} (h : mem a = none) :
    specRead mem a = .error (.unwritten a) := by
  simp [specRead, h]

section
variable {s : State} {n c : Nat} {w : Work} {x : Except ParseStop Parsed}

/-! ### Ways a field step can end -/

theorem FieldStep.finish {frames : List Frame} (hx : x = .ok (parsedOf n w frames)) :
    FieldStep s n c x (finish n w frames s) := by
  subst hx; exact .ends

theorem FieldStep.raise {e : ParseError} (hx : x = .error (.raised e)) : FieldStep s n c x (raise e s) := by
  subst hx; exact .ends

theorem FieldStep.fetchRaises {e : ParseError} (hat : AtField w.field s n w) (hfetch : fetchField s.inBuf n w = .raise e)
    (hx : x = .error (.raised e)) : FieldStep s n c x (parseField s) := by
  obtain ⟨-, hlen, hwork, -⟩ := hat
  rw [parseField_raise hlen hwork hfetch]
  exact .raise hx

theorem FieldStep.fetchUnwritten {a : Nat} (hat : AtField w.field s n w) (hfetch : fetchField s.inBuf n w = .unwritten a)
    (hx : x = .error (.unwritten a)) : FieldStep s n c x (parseField s) := by
  obtain ⟨-, hlen, hwork, -⟩ := hat
  subst hx
  rw [parseField_unwritten hlen hwork hfetch]
  exact .ends

/-! ### The padding registers of a result -/

/-- The padding range as the working values have it, present exactly under the padding flag (R195, R198, R218). -/
def Work.pad (n : Nat) (w : Work) : Option Pad :=
  if fchPadFlag w.fch then some { off := n - w.padSum, len := w.padSum, ind := w.padBytes } else none

theorem parsedOf_eq (frames : List Frame) :
    parsedOf n w frames = { toc := w.toc, fch := w.fch, hdr := w.cur, frames := frames, pad := w.pad n } := rfl

theorem pad_of_flag (hpad : fchPadFlag w.fch = true) :
    w.pad n = some { off := n - w.padSum, len := w.padSum, ind := w.padBytes } := by
  simp [Work.pad, hpad]

theorem pad_of_noFlag (hpad : fchPadFlag w.fch = false) : w.pad n = none := by
  simp [Work.pad, hpad]

/-! ### Reading the field -/

theorem bound_of_ne_flen (h : w.field ≠ .flen) : w.bound n = n := by
  unfold Work.bound
  split
  · contradiction
  all_goals rfl

theorem bound_of_flen (h : w.field = .flen) : w.bound n = w.dataEnd n := by
  simp [Work.bound, h]

/-- A field with no byte before its bound ends the parse (R295). -/
theorem FieldStep.missing (hat : AtField w.field s n w) (hbound : w.bound n ≤ w.cur)
    (hx : x = .error (.raised (.packetTooShort (w.missing n)))) : FieldStep s n c x (parseField s) :=
  .fetchRaises hat (by simp [fetchField, hbound]) hx

/-- A one-byte field inside the packet: Parse reads the byte that the field is decoded from. -/
theorem FieldStep.readByte {f : Byte → Except ParseStop Parsed} (hat : AtField w.field s n w) (hfield : w.field ≠ .flen)
    (hcur : w.cur < n)
    (hexec : ∀ b i, decode (.packet w.field [b]) = .ok i → FieldStep s n c (f b) (exec i s)) :
    FieldStep s n c (specRead (memRead s.inBuf) w.cur >>= f) (parseField s) := by
  have hin : ¬ w.bound n ≤ w.cur := by rw [bound_of_ne_flen hfield]; omega
  cases hbyte : memRead s.inBuf w.cur with
  | none =>
    rw [specRead_of_none hbyte]
    exact .fetchUnwritten hat (by simp [fetchField, hin, hbyte]) rfl
  | some b =>
    obtain ⟨i, hi⟩ : ∃ i, decode (.packet w.field [b]) = .ok i := by
      cases hf : w.field with
      | toc | fch | padind => exact ⟨_, rfl⟩
      | flen => contradiction
    obtain ⟨-, hlen, hwork, -⟩ := hat
    rw [specRead_of_some hbyte,
      parseField_exec hlen hwork (l := [b]) (by simp [fetchField, hin, hbyte, hfield]) hi]
    exact hexec b i hi

/-- A frame-length field whose first byte is 252 or more: the second byte is missing, unwritten, or completes the length
(R152, R154). -/
theorem FieldStep.readLongLength {f : Nat × Nat → Except ParseStop Parsed} {b0 : Byte} (hat : AtField w.field s n w)
    (hfield : w.field = .flen) (hend : ¬ w.dataEnd n ≤ w.cur) (hbyte0 : memRead s.inBuf w.cur = some b0)
    (hge : 252 ≤ b0.toNat)
    (htake : ∀ l, w.cur + 2 ≤ w.dataEnd n → FieldStep s n c (f (l, 2)) (takeLength l 2 s)) :
    FieldStep s n c (specFrameLen (memRead s.inBuf) w.cur (w.dataEnd n) >>= f) (parseField s) := by
  have hbound := bound_of_flen (n := n) hfield
  have hnotShort : ¬ b0.toNat ≤ 251 := by omega
  have hfetch : fetchField s.inBuf n w = fetchSecond s.inBuf n w b0 := by
    simp [fetchField, hbound, hend, hbyte0, hfield, (flenIsLong_iff b0).2 hge]
  by_cases hcut : w.dataEnd n ≤ w.cur + 1
  · exact .fetchRaises hat (e := .invalidFrameLength) (by simp [hfetch, fetchSecond, hbound, hcut])
      (by simp [specFrameLen, hend, specRead_of_some hbyte0, hnotShort, hcut])
  cases hbyte1 : memRead s.inBuf (w.cur + 1) with
  | none =>
    exact .fetchUnwritten hat (a := w.cur + 1) (by simp [hfetch, fetchSecond, hbound, hcut, hbyte1])
      (by simp [specFrameLen, hend, specRead_of_some hbyte0, hnotShort, hcut, specRead_of_none hbyte1])
  | some b1 =>
    have hvalue : flen2Value (b0.extractLsb' 0 2) b1 = b0.toNat + 4 * b1.toNat := by
      rw [flen2Value, flen2_low_bits b0 hge]
    have htaken : FieldStep s n c (f (flen2Value (b0.extractLsb' 0 2) b1, 2))
        (exec (.flen2 (b0.extractLsb' 0 2) b1) s) := htake _ (by omega)
    obtain ⟨-, hlen, hwork, -⟩ := hat
    rw [parseField_exec hlen hwork (l := [b0, b1]) (by simp [hfetch, fetchSecond, hbound, hcut, hbyte1])
      (by rw [hfield, decode_flen_long b0 b1 hge])]
    simpa [specFrameLen, hend, specRead_of_some hbyte0, hnotShort, hcut, specRead_of_some hbyte1, ← hvalue] using htaken

/-- A frame-length field: FrameLen gives the length and the bytes that its instruction takes (R150-R154). -/
theorem FieldStep.readLength {f : Nat × Nat → Except ParseStop Parsed} (hat : AtField w.field s n w)
    (hfield : w.field = .flen)
    (htake : ∀ l k, 1 ≤ k → k ≤ 2 → w.cur + k ≤ w.dataEnd n → FieldStep s n c (f (l, k)) (takeLength l k s)) :
    FieldStep s n c (specFrameLen (memRead s.inBuf) w.cur (w.dataEnd n) >>= f) (parseField s) := by
  have hbound := bound_of_flen (n := n) hfield
  by_cases hend : w.dataEnd n ≤ w.cur
  · have hzero : w.dataEnd n - w.cur = 0 := by omega
    exact .missing hat (by omega) (by simp [specFrameLen, hend, hzero, Work.missing, hfield])
  cases hbyte : memRead s.inBuf w.cur with
  | none =>
    exact .fetchUnwritten hat (a := w.cur) (by simp [fetchField, hbound, hend, hbyte])
      (by simp [specFrameLen, hend, specRead_of_none hbyte])
  | some b0 =>
    by_cases hshort : b0.toNat ≤ 251
    · have hlong : flenIsLong b0 = false := by rw [Bool.eq_false_iff, Ne, flenIsLong_iff]; omega
      have htaken : FieldStep s n c (f (b0.toNat, 1)) (exec (.flen1 b0) s) := htake _ 1 le_rfl (by omega) (by omega)
      obtain ⟨-, hlen, hwork, -⟩ := hat
      rw [parseField_exec hlen hwork (l := [b0]) (by simp [fetchField, hbound, hend, hbyte, hlong])
        (by rw [hfield, decode_flen_short b0 hshort])]
      simpa [specFrameLen, hend, specRead_of_some hbyte, hshort] using htaken
    · exact .readLongLength hat hfield hend hbyte (by omega) fun l => htake l 2 (by omega) le_rfl

/-! ### The frame-data region (R218-R227) -/

/-- Laying out explicit lengths is the second loop of Vbr (R224-R226). -/
theorem specPlace_eq_vbrLayout (ls : List Nat) : ∀ off rem,
    specPlace off rem ls = (vbrLayout off rem ls).mapError fun left => .raised (.packetTooShort left) := by
  induction ls with
  | nil => intro off rem; rfl
  | cons l ls ih =>
    intro off rem
    rw [specPlace, vbrLayout, ih]
    split
    · rfl
    · cases vbrLayout (off + l) (rem - l) ls <;> rfl

/-- With every explicit length known, only the layout is left. -/
theorem vbrRest_done (mem : Nat → Option Byte) (hm : (fchCount w.fch).toNat ≤ w.lens.length + 1) :
    vbrRest mem n w = specPlace w.cur (w.dataEnd n - w.cur) w.lens >>= fun frames => .ok (parsedOf n w frames) := by
  have hcount : (fchCount w.fch).toNat - 1 - w.lens.length = 0 := by omega
  simp [vbrRest, hcount, specLengths]

/-- With a length still to come, its field is the next part of Parse. -/
theorem vbrRest_more (mem : Nat → Option Byte) (hm : w.lens.length + 2 ≤ (fchCount w.fch).toNat) :
    vbrRest mem n w = specFrameLen mem w.cur (w.dataEnd n) >>= fun r =>
      vbrRest mem n { w with cur := w.cur + r.2, lens := w.lens ++ [r.1] } := by
  have hcount : (fchCount w.fch).toNat - 1 - w.lens.length = (fchCount w.fch).toNat - 1 - (w.lens.length + 1) + 1 := by
    omega
  simp only [vbrRest, hcount, specLengths, bind_assoc, List.length_append, List.length_singleton, ok_bind,
    List.append_assoc, List.singleton_append]
  rfl

/-- The cursor stands in the frame-data region of a code-3 packet with a legal header, with this many of its lengths
known and the padding taken off the end (R33, R218, R220, R224). -/
structure InRegion (n : Nat) (w : Work) : Prop where
  code : tocCode w.toc = 3#2
  legal : legalCount (fchCount w.fch) = true
  fits : w.cur + w.padSum ≤ n
  above : 2 + w.padBytes + w.lens.length ≤ w.cur
  below : w.cur ≤ 2 + w.padBytes + 2 * w.lens.length
  noPad : fchPadFlag w.fch = false → w.padBytes = 0 ∧ w.padSum = 0

/-- The invariant at a length field of a VBR packet. -/
theorem InRegion.workInv (h : InRegion n w) (hvbr : fchVbrFlag w.fch = true)
    (hm : w.lens.length + 2 ≤ (fchCount w.fch).toNat) : WorkInv n { w with field := .flen } := by
  refine ⟨(Nat.le_add_right _ _).trans h.fits, ?_⟩
  simp only [h.code]
  exact ⟨trivial, h.legal, hvbr, hm, h.fits, h.above, h.below, h.noPad⟩

/-- One more length taken keeps the cursor in the region. -/
theorem InRegion.takeLength (h : InRegion n w) {l k : Nat} (hk1 : 1 ≤ k) (hk2 : k ≤ 2) (hend : w.cur + k ≤ w.dataEnd n) :
    InRegion n { w with cur := w.cur + k, lens := w.lens ++ [l] } := by
  have ⟨hcode, hlegal, hfits, habove, hbelow, hnoPad⟩ := h
  simp only [Work.dataEnd] at hend
  exact ⟨hcode, hlegal, by simp only; omega, by simp only [List.length_append, List.length_singleton]; omega,
    by simp only [List.length_append, List.length_singleton]; omega, hnoPad⟩

theorem parseRest_vbr (mem : Nat → Option Byte) (hcode : tocCode w.toc = 3#2) :
    parseRest mem n { w with field := .flen } = vbrRest mem n w := by
  simp only [parseRest, hcode]
  rfl

/-- A VBR region: another length field, or the layout that ends the parse (R224, R227). -/
theorem fieldStep_vbrNext (h : InRegion n w) (hvbr : fchVbrFlag w.fch = true) (hcur : c < w.cur) :
    FieldStep s n c (vbrRest (memRead s.inBuf) n w) (vbrNext n w s) := by
  unfold vbrNext
  split
  · next hmore => exact .goesOn _ (h.workInv hvbr (by omega)) hcur (parseRest_vbr _ h.code)
  · next hdone =>
    rw [vbrRest_done _ (by omega), specPlace_eq_vbrLayout, vbrSplit]
    split
    · next frames hlayout => exact .finish (by rw [hlayout]; rfl)
    · next left hlayout => exact .raise (by rw [hlayout]; rfl)

/-- The start of the region: both splits come to what Parse says (R221). -/
theorem fieldStep_splitRegion (h : InRegion n w) (hlens : w.lens = []) (hcur : c < w.cur) :
    FieldStep s n c (specRegion (memRead s.inBuf) w.toc w.fch w.cur (w.dataEnd n) (w.pad n)) (splitRegion n w s) := by
  unfold splitRegion specRegion
  split
  · next hvbr =>
    have hrest : vbrRest (memRead s.inBuf) n w =
        specVbr (memRead s.inBuf) (fchCount w.fch).toNat w.cur (w.dataEnd n) >>= fun r =>
          .ok (parsedOf n { w with cur := r.1 } r.2) := by
      simp [vbrRest, specVbr, hlens, bind_assoc]
    have hnext := fieldStep_vbrNext h hvbr hcur (s := s)
    rw [hrest] at hnext
    exact hnext
  · simp only [cbrSplit, specCbr]
    split
    · exact .raise rfl
    · exact .finish rfl

/-! ### One field of each format -/

/-- Code 0: one frame (R212). -/
theorem fieldStep_code0 (hat : AtField .toc s n Work.start) {b : Byte} (hcode : tocCode b = 0#2) :
    FieldStep s n c (specCode0 b n) (exec (decodeToc b) s) := by
  have hbyte := hcode ▸ tocByte_fields b
  simp only [decodeToc, hcode, exec, execToc0, inPlace_of hat, hbyte]
  exact .finish (by rw [parsedOf_eq, pad_of_noFlag (by simp [Work.passToc])]; rfl)

/-- Code 1: the length check, the parity check, two equal frames (R213-R215). -/
theorem fieldStep_code1 (hat : AtField .toc s n Work.start) {b : Byte} (hcode : tocCode b = 1#2) :
    FieldStep s n c (specCode1 b n) (exec (decodeToc b) s) := by
  have hbyte := hcode ▸ tocByte_fields b
  simp only [decodeToc, hcode, exec, execToc1, inPlace_of hat, hbyte, specCode1]
  split
  · exact .raise rfl
  · split
    · exact .raise rfl
    · exact .finish (by rw [parsedOf_eq, pad_of_noFlag (by simp [Work.passToc])]; rfl)

/-- Code 2: a length field follows (R216). -/
theorem fieldStep_code2 (hat : AtField .toc s n Work.start) (hn : 1 ≤ n) {b : Byte} (hcode : tocCode b = 2#2) :
    FieldStep s n 0 (specCode2 (memRead s.inBuf) b n) (exec (decodeToc b) s) := by
  have hbyte := hcode ▸ tocByte_fields b
  simp only [decodeToc, hcode, exec, execToc2, inPlace_of hat, hbyte]
  have hinv : WorkInv n { Work.start.passToc b 2#6 with field := .flen } := by
    refine ⟨hn, ?_⟩
    simp only [Work.passToc, hcode]
    exact ⟨trivial, rfl, rfl, rfl, rfl⟩
  exact .goesOn _ hinv Nat.one_pos (if_pos hcode)

/-- Code 3: a frame-count header follows, if there is one (R175, R218). -/
theorem fieldStep_code3 (hat : AtField .toc s n Work.start) (hn : 1 ≤ n) {b : Byte} (hcode : tocCode b = 3#2) :
    FieldStep s n 0 (specCode3 (memRead s.inBuf) b n) (exec (decodeToc b) s) := by
  have hbyte := hcode ▸ tocByte_fields b
  simp only [decodeToc, hcode, exec, execToc3, inPlace_of hat, hbyte]
  split
  · next hshort => exact .raise (by simp [specCode3, hshort])
  · next hlong =>
    have hinv : WorkInv n { Work.start.passToc b 0#6 with field := .fch } :=
      ⟨hn, Nat.le_of_not_lt hlong, rfl, hcode, rfl, rfl, rfl⟩
    exact .goesOn _ hinv Nat.one_pos rfl

/-- The TOC byte: missing in an empty packet, else of one of the four codes (R211). -/
theorem fieldStep_toc (hat : AtField w.field s n w) (hfield : w.field = .toc) (hinv : WorkInv n w) :
    FieldStep s n w.cur (parseRest (memRead s.inBuf) n w) (parseField s) := by
  obtain rfl : w = Work.start := by
    obtain ⟨-, hw⟩ := hinv
    simpa only [hfield] using hw
  simp only [parseRest, Work.start, specParse]
  split
  · next hn => exact .missing hat (by simp [Work.bound, Work.start, hn]) rfl
  · next hn =>
    have hpos : 1 ≤ n := Nat.pos_of_ne_zero hn
    refine .readByte hat (by decide) hpos fun b i hi => ?_
    obtain rfl : decodeToc b = i := Except.ok.inj hi
    split
    · next hcode => exact fieldStep_code0 hat hcode
    · next hcode => exact fieldStep_code1 hat hcode
    · next hcode => exact fieldStep_code2 hat hpos hcode
    · next hcode => exact fieldStep_code3 hat hpos hcode

/-- All five forms of an illegal count fail the parse (R174). -/
theorem exec_decodeFch_illegal (hat : AtField .fch s n w) {b : Byte}
    (hillegal : (fchCount b).toNat = 0 ∨ 48 < (fchCount b).toNat) : exec (decodeFch b) s = raise .invalidPacket s := by
  rcases decodeFch_illegal b hillegal with
    ⟨p, v, hb⟩ | ⟨p, v, hb⟩ | ⟨p, v, x, hb⟩ | ⟨p, v, x, hb⟩ | ⟨p, v, x, hb⟩
  all_goals rw [hb]; exact inPlace_of hat _

/-- Both forms of a legal count go on after the header (R176). -/
theorem exec_decodeFch_legal (hat : AtField .fch s n w) {b : Byte}
    (hlegal : 1 ≤ (fchCount b).toNat ∧ (fchCount b).toNat ≤ 48) :
    exec (decodeFch b) s = afterHeader n (w.passHeader b) s := by
  have hbyte := fchByte_fields b
  rw [decodeFch_legal b hlegal]
  split
  · next hvbr =>
    rw [hvbr] at hbyte
    simp only [exec, execFchVbr, legalHeader, inPlace_of hat, hbyte]
  · next hcbr =>
    rw [Bool.eq_false_iff.2 hcbr] at hbyte
    simp only [exec, execFchCbr, legalHeader, inPlace_of hat, hbyte]

/-- After a legal header: the padding chain under the padding flag, else the region (R219). -/
theorem fieldStep_afterHeader (hn : 2 ≤ n) (hcur : w.cur = 1) (hcode : tocCode w.toc = 3#2) (hpadBytes : w.padBytes = 0)
    (hpadSum : w.padSum = 0) (hlens : w.lens = []) {b : Byte} (hlegal : legalCount (fchCount b) = true) :
    FieldStep s n w.cur
      (if fchPadFlag b then specPadExtract (memRead s.inBuf) n >>= fun r =>
          specRegion (memRead s.inBuf) w.toc b (2 + r.1) (n - r.2) (some { off := n - r.2, len := r.2, ind := r.1 })
        else specRegion (memRead s.inBuf) w.toc b 2 n none)
      (afterHeader n (w.passHeader b) s) := by
  have hfch : (w.passHeader b).fch = b := rfl
  have hcur2 : w.cur < (w.passHeader b).cur := by simp only [Work.passHeader]; omega
  by_cases hpad : fchPadFlag b = true
  · have hinv : WorkInv n { w.passHeader b with field := .padind } :=
      ⟨hn, hcode, hlegal, hpad, by simp [Work.passHeader, hpadBytes],
        by simp [Work.passHeader, hpadBytes, hpadSum], hlens⟩
    simp only [afterHeader, hfch, hpad, if_true]
    refine .goesOn _ hinv hcur2 ?_
    simp only [parseRest, chainRest, specPadExtract, Work.passHeader, hpadBytes, hpadSum, bind_assoc, Nat.sub_zero]
    congr 1
    funext r
    split <;> rfl
  · have hregion : InRegion n (w.passHeader b) :=
      ⟨hcode, hlegal, by simpa [Work.passHeader, hpadSum] using hn,
        by simp [Work.passHeader, hpadBytes, hlens], by simp [Work.passHeader, Nat.add_assoc],
        fun _ => ⟨hpadBytes, hpadSum⟩⟩
    have hend : (w.passHeader b).dataEnd n = n := by simp [Work.dataEnd, Work.passHeader, hpadSum]
    have hnone : (w.passHeader b).pad n = none := pad_of_noFlag (Bool.eq_false_iff.2 hpad)
    have hsplit := fieldStep_splitRegion hregion hlens hcur2 (s := s)
    rw [hend, hnone] at hsplit
    rw [if_neg hpad, afterHeader, hfch, if_neg hpad]
    exact hsplit

/-- The frame-count header: an illegal count, a padding chain, or the frame-data region (R173-R176, R219). -/
theorem fieldStep_fch (hat : AtField w.field s n w) (hfield : w.field = .fch) (hinv : WorkInv n w) :
    FieldStep s n w.cur (parseRest (memRead s.inBuf) n w) (parseField s) := by
  obtain ⟨-, hw⟩ := hinv
  simp only [hfield] at hw
  obtain ⟨hn, hcur, hcode, hpadBytes, hpadSum, hlens⟩ := hw
  have hshort : ¬ n < 2 := by omega
  simp only [parseRest, hfield, specCode3, hshort, if_false]
  rw [← hcur]
  refine .readByte hat (by simp [hfield]) (by omega) fun b i hi => ?_
  obtain rfl : decodeFch b = i := by rw [hfield] at hi; exact Except.ok.inj hi
  rw [hfield] at hat
  split
  · next hillegal =>
    rw [exec_decodeFch_illegal hat hillegal]
    exact .raise rfl
  · next hcount =>
    have hlegal : 1 ≤ (fchCount b).toNat ∧ (fchCount b).toNat ≤ 48 := by omega
    rw [exec_decodeFch_legal hat hlegal]
    exact fieldStep_afterHeader hn hcur hcode hpadBytes hpadSum hlens ((legalCount_iff _).2 hlegal)

/-- Inside the chain, the next indicator byte is the next part of Parse (R190, R193). -/
theorem chainRest_step (mem : Nat → Option Byte) (hle : w.padBytes ≤ n - 2) :
    chainRest mem n w =
      if n - 2 ≤ w.padBytes then .error (.raised (.packetTooShort (n - 2)))
      else specRead mem (2 + w.padBytes) >>= fun x =>
        if x.toNat = 255 then chainRest mem n (w.addPadding 254)
        else if n - 2 < (w.addPadding x.toNat).padBytes + (w.addPadding x.toNat).padSum then
          .error (.raised (.packetTooShort (n - 2)))
        else specRegion mem w.toc w.fch (2 + (w.padBytes + 1)) (n - (w.addPadding x.toNat).padSum)
          (some { off := n - (w.padSum + x.toNat), len := w.padSum + x.toNat, ind := w.padBytes + 1 }) := by
  have hleft : n - 2 + 1 - w.padBytes = n - 2 + 1 - (w.padBytes + 1) + 1 := by omega
  simp only [chainRest, hleft, specPadLoop]
  split
  · rfl
  · rw [bind_assoc]
    congr 1
    funext x
    split <;> rfl

/-- A padding indicator: a chain cut off, one more byte of it, or its end (R191-R195). -/
theorem fieldStep_padind (hat : AtField w.field s n w) (hfield : w.field = .padind) (hinv : WorkInv n w) :
    FieldStep s n w.cur (parseRest (memRead s.inBuf) n w) (parseField s) := by
  obtain ⟨hle, hw⟩ := hinv
  simp only [hfield] at hw
  obtain ⟨hcode, hlegal, hpad, hcur, hpadSum, hlens⟩ := hw
  simp only [parseRest, hfield]
  rw [chainRest_step _ (by omega)]
  split
  · exact .missing hat (by rw [bound_of_ne_flen (by simp [hfield])]; omega) (by simp [Work.missing, hfield])
  rw [← hcur]
  refine .readByte hat (by simp [hfield]) (by omega) fun b i hi => ?_
  obtain rfl : decodePadind b = i := by rw [hfield] at hi; exact Except.ok.inj hi
  rw [hfield] at hat
  split
  · next hcont =>
    obtain rfl : b = 0xFF#8 := BitVec.eq_of_toNat_eq hcont
    simp only [decodePadind, if_true, exec, execPadCont, inPlace_of hat]
    have hinv : WorkInv n (w.addPadding 254) := by
      simp only [WorkInv, Work.addPadding, hfield]
      exact ⟨by omega, hcode, hlegal, hpad, by omega, by omega, hlens⟩
    refine .goesOn _ hinv (Nat.lt_succ_self _) ?_
    simp [parseRest, Work.addPadding, hfield]
  · next hterm =>
    have hne : b ≠ 0xFF#8 := fun h => hterm (h ▸ rfl)
    simp only [decodePadind, hne, if_false, exec, execPadTerm, inPlace_of hat]
    split
    · exact .raise rfl
    · next hfit =>
      simp only [Work.addPadding] at hfit
      have hregion : InRegion n (w.addPadding b.toNat) := by
        refine ⟨hcode, hlegal, ?_, ?_, ?_, fun h => absurd hpad (Bool.eq_false_iff.1 h)⟩
        all_goals simp only [Work.addPadding, hlens, List.length_nil]; omega
      have hend : 2 + (w.padBytes + 1) = (w.addPadding b.toNat).cur := by simp only [Work.addPadding]; omega
      have hsplit := fieldStep_splitRegion hregion hlens (Nat.lt_succ_self w.cur) (s := s)
      rw [pad_of_flag (w := w.addPadding b.toNat) hpad, ← hend] at hsplit
      exact hsplit

/-- A frame length: the one of a code-2 packet, or one of a VBR packet (R216, R224). -/
theorem fieldStep_flen (hat : AtField w.field s n w) (hfield : w.field = .flen) (hinv : WorkInv n w) :
    FieldStep s n w.cur (parseRest (memRead s.inBuf) n w) (parseField s) := by
  obtain ⟨hle, hw⟩ := hinv
  simp only [hfield] at hw
  simp only [parseRest, hfield]
  split at hw
  · next hcode =>
    obtain ⟨hcur, hfch, hpadBytes, hpadSum, hlens⟩ := hw
    have hend : w.dataEnd n = n := by simp [Work.dataEnd, hpadSum]
    rw [if_pos hcode, specCode2, ← hcur]
    nth_rw 2 [← hend]
    refine .readLength hat hfield fun l k hk1 hk2 hfits => ?_
    have hrem : n - w.cur - k = n - (w.cur + k) := by omega
    simp only [takeLength, inPlace_of (hfield ▸ hat), hcode, if_true, code2Split, hrem]
    split
    · exact .raise rfl
    · exact .finish (by rw [parsedOf_eq, pad_of_noFlag (by simp [hfch, fchPadFlag])]; simp [hfch])
  · next hcode =>
    obtain ⟨hcode3, hlegal, hvbr, hm, hfits, habove, hbelow, hnoPad⟩ := hw
    rw [if_neg hcode, vbrRest_more _ hm]
    refine .readLength hat hfield fun l k hk1 hk2 hend => ?_
    simp only [takeLength, inPlace_of (hfield ▸ hat), hcode, if_false]
    have hregion : InRegion n w := ⟨hcode3, hlegal, hfits, habove, hbelow, hnoPad⟩
    exact fieldStep_vbrNext (hregion.takeLength hk1 hk2 hend) hvbr (by simp only; omega)

/-- One field of the Parser step, whatever its format. -/
theorem fieldStep_parseField (hat : AtField w.field s n w) (hinv : WorkInv n w) :
    FieldStep s n w.cur (parseRest (memRead s.inBuf) n w) (parseField s) := by
  cases hfield : w.field with
  | toc => exact fieldStep_toc hat hfield hinv
  | fch => exact fieldStep_fch hat hfield hinv
  | flen => exact fieldStep_flen hat hfield hinv
  | padind => exact fieldStep_padind hat hfield hinv

/-! ### The Parser's loop -/

/-- The working values are gone when a parse has ended (R30). -/
theorem endWith_work (w : Option Work) : endWith { s with work := w } x = endWith s x := by
  cases x with
  | ok p => rfl
  | error e => cases e <;> rfl

theorem work_eq_none_of_endWith {t : State} (h : endWith s x = .next t) : t.work = none := by
  cases x with
  | ok p => cases h; rfl
  | error e =>
    cases e with
    | raised e => cases h; rfl
    | unwritten a => cases h

/-- A field that ends the parse ends the loop. -/
theorem parseFields_endWith {k : Nat} (h : parseField s = endWith s x) : parseFields (k + 1) s = endWith s x := by
  cases x with
  | ok p => exact parseFields_done h rfl
  | error e =>
    cases e with
    | raised e => exact parseFields_done h rfl
    | unwritten a => exact parseFields_fault h

/-- The loop of fields comes to what is left of Parse. Each field moves the cursor forward, so more turns than bytes left
are enough (R197, R239). -/
theorem parseFields_eq_endWith (fuel : Nat) : ∀ {w : Work}, s.status = .busy → s.inLen = some n → WorkInv n w →
    n < w.cur + fuel →
    parseFields fuel { s with work := some w } = endWith s (parseRest (memRead s.inBuf) n w) := by
  induction fuel with
  | zero => intro w _ _ ⟨hle, _⟩ hfuel; omega
  | succ fuel ih =>
    intro w hbusy hlen hinv hfuel
    have hat : AtField w.field { s with work := some w } n w := ⟨hbusy, hlen, rfl, rfl⟩
    generalize hfield : parseField { s with work := some w } = o
    have hstep := fieldStep_parseField hat hinv
    rw [hfield] at hstep
    cases hstep with
    | ends => rw [parseFields_endWith hfield, endWith_work]
    | goesOn w' hinv' hcur hrest =>
      rw [parseFields_goOn hfield rfl, ← hrest]
      exact ih hbusy hlen hinv' (by omega)

end

theorem workInv_start (n : Nat) : WorkInv n Work.start := ⟨Nat.zero_le n, rfl⟩

/-- The Parser step of a BUSY block with a length is Parse on the buffer as it stands (R210, R211). -/
theorem parserTurn_eq_endWith {s : State} {n : Nat} (hbusy : s.status = .busy) (hlen : s.inLen = some n) :
    parserTurn s = endWith s (specParse (memRead s.inBuf) n) := by
  rw [parserTurn_busy hbusy hlen]
  exact parseFields_eq_endWith (n + 1) hbusy hlen (workInv_start n) (by omega)

/-- Settles O8, from the equations of the Parser's loop. -/
theorem parserRunsDecodedField : Obligations.ParserRunsDecodedField :=
  ⟨fun _ _ _ _ _ => parseField_exec, fun _ _ _ _ => parseFields_goOn, fun _ _ _ => parseFields_done⟩

/-- Settles O23: one field that goes on does so as `FieldStep` says. -/
theorem cursorAdvances : Obligations.CursorAdvances := by
  refine ⟨workInv_start, fun s t n w w' hat hinv hnext hwork => ?_⟩
  have hstep := fieldStep_parseField hat hinv
  rw [hnext] at hstep
  generalize ho : Host.Outcome.next t = o at hstep
  cases hstep with
  | ends => rw [work_eq_none_of_endWith ho.symm] at hwork; cases hwork
  | goesOn w'' hinv' hcur _ =>
    obtain rfl : t = { s with work := some w'' } := goOn_next ho.symm
    obtain rfl : w'' = w' := Option.some.inj hwork
    exact ⟨rfl, hinv', hcur⟩

end Sys2Proof.Machine
end

section
/-! SUPPORT. The result invariant (10_state.md R54, 20_memory.md R88, R96) under each named operation, and the statements on it
and on reset and the register map: O45, O46, O48, O28, O5. -/

namespace Sys2Proof.Machine

/-! ### The result invariant of each operation -/

theorem noErrors_clearResults (s : State) : NoErrors (clearResults s) := ⟨rfl, rfl⟩

theorem noResults_clearResults (s : State) : NoResults (clearResults s) := ⟨rfl, rfl, rfl, rfl, rfl, rfl, rfl, rfl, rfl⟩

/-- In IDLE no result or error is held (R54). -/
theorem ResultInv.of_idle {s : State} (hs : ResultInv s) (hidle : s.status = .idle) : NoErrors s ∧ NoResults s := by
  simpa only [ResultInv, hidle] using hs

/-- In BUSY a length stands and no result or error is held (R54). -/
theorem ResultInv.of_busy {s : State} (hs : ResultInv s) (hbusy : s.status = .busy) :
    (∃ n, s.inLen = some n) ∧ NoErrors s ∧ NoResults s := by
  simpa only [ResultInv, hbusy] using hs

/-- A packet write outside BUSY leaves the block IDLE with nothing held (R88, R261, R263). -/
theorem resultInv_packetChanged {s : State} (hb : s.status ≠ .busy)
    (hidle : s.status = .idle → NoErrors s ∧ NoResults s) : ResultInv (packetChanged s) := by
  cases hst : s.status with
  | idle =>
    rw [packetChanged_of_idle s hst]
    simpa only [ResultInv, hst] using hidle hst
  | busy => contradiction
  | ok => rw [packetChanged_of_ok s hst]; exact ⟨noErrors_clearResults s, noResults_clearResults s⟩
  | err => rw [packetChanged_of_err s hst]; exact ⟨noErrors_clearResults s, noResults_clearResults s⟩

/-- An accepted Host instruction keeps the result invariant. -/
theorem resultInv_hostResult {s t : State} {i : Instr} (hs : ResultInv s) (h : HostResult s t i) : ResultInv t := by
  cases h with
  | readByte a v _ ht => subst ht; exact hs
  | readRegister x r v _ _ ht => subst ht; exact hs
  | nop ht => subst ht; exact hs
  | writeByte a v _ hb ht => subst ht; exact resultInv_packetChanged hb hs.of_idle
  | setLength n _ hb ht => subst ht; exact resultInv_packetChanged hb hs.of_idle
  | parse _ hn ht =>
    subst ht
    exact ⟨Option.ne_none_iff_exists'.1 hn, noErrors_clearResults s, noResults_clearResults s⟩
  | clear _ ht => subst ht; exact ⟨noErrors_clearResults s, noResults_clearResults s⟩

/-- The end of a parse holds what Parse gives (R230, R231). -/
theorem resultInv_endWith {s t : State} {n : Nat} (hlen : s.inLen = some n)
    (h : endWith s (specParse (memRead s.inBuf) n) = .next t) : ResultInv t := by
  cases hparse : specParse (memRead s.inBuf) n with
  | ok p =>
    rw [hparse] at h
    cases h
    obtain ⟨-, -, hholds, -⟩ := recordOk_endsOk p s
    exact ⟨n, p, hlen, hparse, hholds⟩
  | error e =>
    rw [hparse] at h
    cases e with
    | raised e =>
      cases h
      obtain ⟨-, -, hholds, -⟩ := recordError_endsErr e s
      exact ⟨n, e, hlen, hparse, hholds⟩
    | unwritten a => cases h

/-- The Parser's turn keeps the result invariant: in BUSY it is Parse on the buffer as it stands (R210, R211). -/
theorem resultInv_parserTurn {s t : State} (hs : ResultInv s) (h : parserTurn s = .next t) : ResultInv t := by
  by_cases hbusy : s.status = .busy
  · obtain ⟨⟨n, hlen⟩, -⟩ := hs.of_busy hbusy
    rw [parserTurn_eq_endWith hbusy hlen] at h
    exact resultInv_endWith hlen h
  · rw [parserTurn_of_not_busy hbusy] at h
    cases h
    exact hs

theorem resultInv_resetWith (c : Config) : ResultInv (State.resetWith c) :=
  ⟨⟨rfl, rfl⟩, ⟨rfl, rfl, rfl, rfl, rfl, rfl, rfl, rfl, rfl⟩⟩

/-- Settles O45, by the three things a step can be: what each does to the registers keeps the invariant. -/
theorem stepKeepsResultInv : Obligations.StepKeepsResultInv := by
  intro s t hs h
  rcases step_next h with ⟨a, rest, -, haccess⟩ | ⟨rest, -, hturn⟩ | ⟨rest, -, rfl⟩
  · obtain ⟨i, -, hresult⟩ := hostAccess_result haccess
    exact resultInv_hostResult (s := { s with pending := rest }) hs hresult
  · exact resultInv_parserTurn (s := { s with pending := rest }) hs hturn
  · exact resultInv_resetWith s.config

/-! ### Reset and the register map -/

theorem bufferInv_resetWith {c : Config} (hc : c.wf = true) : BufferInv (State.resetWith c) :=
  ⟨hc, rfl, rfl, nofun, rfl⟩

theorem safe_resetWith {c : Config} (hc : c.wf = true) : Safe (State.resetWith c) :=
  ⟨bufferInv_resetWith hc, resultInv_resetWith c⟩

/-- Settles O46, from the two invariants of the state after reset. -/
theorem resetIsSafe : Obligations.ResetIsSafe :=
  ⟨safe_resetWith (by decide), fun _ => safe_resetWith⟩

/-- Settles O48: the state after reset for either choice of parameters. -/
theorem resetValues : Obligations.ResetValues := by
  intro c s hs
  obtain ⟨c, rfl⟩ : ∃ c, s = State.resetWith c := by
    rcases hs with rfl | rfl
    · exact ⟨Config.chosen, rfl⟩
    · exact ⟨c, rfl⟩
  obtain ⟨herr, hres⟩ := resultInv_resetWith c
  exact ⟨rfl, rfl, rfl, rfl, fun _ => rfl, herr, hres, rfl⟩

/-- Settles O28: the codes of STATE and of the error kinds differ, and every other register reads as it is held. -/
theorem registerValues : Obligations.RegisterValues := by
  intro s
  have hstatus : ∀ k : BlockState, readReg s .status = some (statusByte k).toNat ↔ s.status = k := by
    intro k
    simp only [readReg]
    generalize s.status = st
    cases st <;> cases k <;> decide
  have hkind : ∀ k : ErrKind, readReg s .errKind = some (errKindByte k).toNat ↔ s.errKind = some k := by
    intro k
    simp only [readReg]
    cases s.errKind with
    | none => simp
    | some e => cases e <;> cases k <;> decide
  refine ⟨rfl, hstatus .idle, hstatus .busy, hstatus .ok, hstatus .err, by simp [readReg], hkind .none,
    hkind .packetTooShort, hkind .invalidPacket, hkind .invalidFrameLength, ?_⟩
  exact ⟨rfl, rfl, rfl, rfl, rfl, rfl, rfl, rfl, fun i => ⟨rfl, rfl, rfl⟩⟩

/-- Settles O5: the register of every index, name by name, and the reserved ones among the 256 indices. -/
theorem registerMap : Obligations.RegisterMap := by
  refine ⟨⟨rfl, rfl, rfl, rfl, rfl, rfl, rfl, rfl, rfl, rfl, rfl, fun i => ⟨rfl, rfl, rfl⟩⟩, fun r => ?_, by decide⟩
  cases r with
  | frameOff i | frameLen i | frameSil i => revert i; decide
  | ctrl | status | inLen | errKind | errAvail | toc | fch | hdrBytes | padOff | padLen | padInd => decide

end Sys2Proof.Machine
end

section
/-! SUPPORT. The registers in each STATE (10_state.md R42-R54): which result registers hold a value, what stands in TOC and
FCH, and the statements O47, O55, O56. -/

namespace Sys2Proof

/-- The result registers of R54. -/
def Reg.isResult : Reg → Bool
  | .ctrl | .status | .inLen | .errKind | .errAvail => false
  | .toc | .fch | .hdrBytes | .padOff | .padLen | .padInd | .frameOff _ | .frameLen _ | .frameSil _ => true

/-- What a result with this FCH value asks of a result register that holds a value (R45-R50, R54). -/
def Reg.FilledBy (f : Byte) : Reg → Prop
  | .padOff | .padLen | .padInd => fchPadFlag f = true
  | .frameOff i | .frameLen i | .frameSil i => i.val < (fchCount f).toNat
  | .ctrl | .status | .inLen | .errKind | .errAvail | .toc | .fch | .hdrBytes => True

end Sys2Proof

namespace Sys2Proof.Machine

/-! ### Which registers a result fills (R54) -/

theorem readReg_of_noResults {s : State} (h : NoResults s) {r : Reg} (hr : r.isResult = true) : readReg s r = none := by
  obtain ⟨htoc, hfch, hhdr, hpadOff, hpadLen, hpadInd, hoff, hlen, hsil⟩ := h
  cases r with
  | ctrl | status | inLen | errKind | errAvail => cases hr
  | toc | fch | hdrBytes | padOff | padLen | padInd | frameOff | frameLen | frameSil => simp [readReg, *]

/-- A frame slot holds a value exactly below the frame count (R230). -/
theorem slot_ne_none_iff {α : Type} {n : Nat} {p : Parsed} (hp : p.Sound n) (f : Frame → α) (i : Nat) :
    (p.frames[i]?).map f ≠ none ↔ i < (fchCount p.fch).toNat := by
  obtain ⟨hcount, -⟩ := hp
  simp [← hcount]

/-- A padding register holds a value exactly under the padding flag (R43, R45-R47). -/
theorem pad_ne_none_iff {α : Type} {n : Nat} {p : Parsed} (hp : p.Sound n) (f : Pad → α) :
    p.pad.map f ≠ none ↔ fchPadFlag p.fch = true := by
  obtain ⟨-, -, -, -, -, hpad, -⟩ := hp
  simp [← hpad, Option.ne_none_iff_isSome]

theorem readReg_ne_none_iff_of_holdsResult {s : State} {n : Nat} {p : Parsed} (h : HoldsResult p s) (hp : p.Sound n)
    {r : Reg} (hr : r.isResult = true) : readReg s r ≠ none ↔ r.FilledBy p.fch := by
  obtain ⟨htoc, hfch, hhdr, hoff, hlen, hsil, hpadOff, hpadLen, hpadInd, -⟩ := h
  cases r with
  | ctrl | status | inLen | errKind | errAvail => cases hr
  | toc | fch | hdrBytes => simp [readReg, Reg.FilledBy, *]
  | padOff => rw [readReg, hpadOff]; exact pad_ne_none_iff hp _
  | padLen => rw [readReg, hpadLen]; exact pad_ne_none_iff hp _
  | padInd => rw [readReg, hpadInd]; exact pad_ne_none_iff hp _
  | frameOff i => rw [readReg, hoff]; exact slot_ne_none_iff hp _ _
  | frameLen i => rw [readReg, hlen]; exact slot_ne_none_iff hp _ _
  | frameSil i => rw [readReg, hsil, Option.map_map]; exact slot_ne_none_iff hp _ _

/-- In OK the registers hold a sound result of Parse (R229-R237). -/
theorem ResultInv.of_ok {s : State} (hs : ResultInv s) (hok : s.status = .ok) :
    ∃ n p, s.inLen = some n ∧ specParse (memRead s.inBuf) n = .ok p ∧ HoldsResult p s ∧ p.Sound n := by
  simp only [ResultInv, hok] at hs
  obtain ⟨n, p, hlen, hparse, hholds⟩ := hs
  have hyields := specParse_yields (memRead s.inBuf) n
  rw [hparse] at hyields
  obtain ⟨hsound, -⟩ := hyields
  exact ⟨n, p, hlen, hparse, hholds, hsound⟩

/-- In ERR no result is held, and the error is the one Parse raises (R231). -/
theorem ResultInv.of_err {s : State} (hs : ResultInv s) (herr : s.status = .err) :
    ∃ n e, s.inLen = some n ∧ specParse (memRead s.inBuf) n = .error (.raised e) ∧ HoldsError e s := by
  simpa only [ResultInv, herr] using hs

/-- Outside OK no result register holds a value (R54). -/
theorem ResultInv.noResults {s : State} (hs : ResultInv s) (hok : s.status ≠ .ok) : NoResults s := by
  cases hst : s.status with
  | idle => obtain ⟨-, hres⟩ := hs.of_idle hst; exact hres
  | busy => obtain ⟨-, -, hres⟩ := hs.of_busy hst; exact hres
  | ok => contradiction
  | err => obtain ⟨_, _, -, -, hres, -⟩ := hs.of_err hst; exact hres

/-- A result register holds a value in OK only, and then where the FCH value says so (R54). -/
theorem ResultInv.readReg_ne_none_iff {s : State} (hs : ResultInv s) {r : Reg} (hr : r.isResult = true) :
    readReg s r ≠ none ↔ s.status = .ok ∧ ∃ f, s.fch = some f ∧ r.FilledBy f := by
  by_cases hok : s.status = .ok
  · obtain ⟨n, p, -, -, hholds, hsound⟩ := hs.of_ok hok
    rw [readReg_ne_none_iff_of_holdsResult hholds hsound hr]
    obtain ⟨-, hfch, -⟩ := hholds
    simp [hok, hfch]
  · simp [readReg_of_noResults (hs.noResults hok) hr, hok]

/-! ### The error registers by STATE (R54) -/

/-- ERR_KIND and ERR_AVAIL in each STATE. -/
theorem ResultInv.errRegisters {s : State} (hs : ResultInv s) :
    ((s.status = .idle ∨ s.status = .busy) → readReg s .errKind = none) ∧
    (s.status = .ok → readReg s .errKind = some 0) ∧
    (s.status = .err → readReg s .errKind = some 1 ∨ readReg s .errKind = some 2 ∨ readReg s .errKind = some 3) ∧
    (readReg s .errAvail ≠ none ↔ s.status = .err ∧ readReg s .errKind = some 1) := by
  cases hst : s.status with
  | idle =>
    obtain ⟨⟨hkind, havail⟩, -⟩ := hs.of_idle hst
    simp [readReg, hkind, havail]
  | busy =>
    obtain ⟨-, ⟨hkind, havail⟩, -⟩ := hs.of_busy hst
    simp [readReg, hkind, havail]
  | ok =>
    obtain ⟨n, p, -, -, ⟨-, -, -, -, -, -, -, -, -, hkind, havail⟩, -⟩ := hs.of_ok hst
    simp [readReg, hkind, havail, errKindByte]
  | err =>
    obtain ⟨n, e, -, -, -, herr⟩ := hs.of_err hst
    cases e with
    | packetTooShort avail | invalidPacket | invalidFrameLength =>
      obtain ⟨hkind, havail⟩ := herr
      simp [readReg, hkind, havail, errKindByte]

theorem ResultInv.inLen_ne_none {s : State} (hs : ResultInv s) (hidle : s.status ≠ .idle) : s.inLen ≠ none := by
  have hlen : ∃ n, s.inLen = some n := by
    cases hst : s.status with
    | idle => contradiction
    | busy => obtain ⟨hlen, -⟩ := hs.of_busy hst; exact hlen
    | ok => obtain ⟨n, -, hlen, -⟩ := hs.of_ok hst; exact ⟨n, hlen⟩
    | err => obtain ⟨n, -, hlen, -⟩ := hs.of_err hst; exact ⟨n, hlen⟩
  obtain ⟨n, hlen⟩ := hlen
  simp [hlen]

/-- In OK the FCH register holds a value. -/
theorem ResultInv.fch_of_ok {s : State} (hs : ResultInv s) (hok : s.status = .ok) : ∃ f, s.fch = some f := by
  obtain ⟨_, p, -, -, ⟨-, hfch, -⟩, -⟩ := hs.of_ok hok
  exact ⟨p.fch, hfch⟩

/-- Settles O47: the table of R54, a result register by what fills it and an error register by STATE. -/
theorem registerValidity : Obligations.RegisterValidity := by
  intro s hs
  obtain ⟨hclear, hokKind, herrKind, havail⟩ := hs.errRegisters
  have hresult : ∀ {r : Reg}, r.isResult = true →
      (readReg s r ≠ none ↔ s.status = .ok ∧ ∃ f, s.fch = some f ∧ r.FilledBy f) := hs.readReg_ne_none_iff
  have halways : (s.status = .ok ∧ ∃ f, s.fch = some f ∧ True) ↔ s.status = .ok :=
    ⟨And.left, fun hok => ⟨hok, (hs.fch_of_ok hok).imp fun _ hfch => ⟨hfch, trivial⟩⟩⟩
  have hpadding : (s.status = .ok ∧ ∃ f, s.fch = some f ∧ fchPadFlag f = true) ↔
      s.status = .ok ∧ s.fch.map fchPadFlag = some true := by
    rw [Option.map_eq_some_iff]
  exact ⟨by simp [readReg], rfl, hs.inLen_ne_none, hclear, hokKind, herrKind, havail,
    (hresult rfl).trans halways, (hresult rfl).trans halways, (hresult rfl).trans halways,
    (hresult rfl).trans hpadding, (hresult rfl).trans hpadding, (hresult rfl).trans hpadding,
    fun i => ⟨hresult rfl, hresult rfl, hresult rfl⟩⟩

/-- Settles O55: the silence flag of a frame is made from its length, and there are as many frames as FCH counts. -/
theorem silenceFlagIffEmpty : Obligations.SilenceFlagIffEmpty := by
  intro s i hs
  refine ⟨fun hok => ?_, fun hok => ?_⟩
  · obtain ⟨n, p, -, -, ⟨-, hfch, -, -, hlen, hsil, -⟩, hsound⟩ := hs.of_ok hok
    obtain ⟨hcount, -⟩ := hsound
    refine ⟨p.fch, hfch, fun hi => ?_, fun hi => ?_⟩
    · have hframe : p.frames[i.val]? = some p.frames[i.val] := List.getElem?_eq_getElem (by omega)
      exact ⟨p.frames[i.val].len, by rw [hlen, hframe]; rfl, by rw [hsil, hframe]; rfl⟩
    · have hframe : p.frames[i.val]? = none := List.getElem?_eq_none (by omega)
      rw [hsil, hframe]
      rfl
  · obtain ⟨-, -, -, -, -, -, -, -, hsil⟩ := hs.noResults hok
    simp [hsil]

/-! ### The header bytes of a result (R42, R43) -/

/-- A property of what a part of Parse gives, when it gives a value. -/
def Gives {α : Type} (P : α → Prop) (x : Except ParseStop α) : Prop := ∀ a, x = .ok a → P a

theorem gives_ok {α : Type} {P : α → Prop} {a : α} (h : P a) : Gives P (.ok a) := by
  rintro _ ⟨⟩
  exact h

theorem gives_error {α : Type} {P : α → Prop} (e : ParseStop) : Gives P (.error e) := nofun

theorem Gives.bind {α β : Type} {P : α → Prop} {Q : β → Prop} {x : Except ParseStop α} {f : α → Except ParseStop β}
    (hx : Gives P x) (hf : ∀ a, P a → Gives Q (f a)) : Gives Q (x >>= f) := by
  cases x with
  | ok a => exact hf a (hx a rfl)
  | error e => exact gives_error e

/-- Where nothing of the first part matters. -/
theorem gives_bind {α β : Type} {Q : β → Prop} {x : Except ParseStop α} {f : α → Except ParseStop β}
    (hf : ∀ a, Gives Q (f a)) : Gives Q (x >>= f) :=
  Gives.bind (P := fun _ => True) (fun _ _ => trivial) fun a _ => hf a

theorem specRead_gives (mem : Nat → Option Byte) (a : Nat) : Gives (fun b => mem a = some b) (specRead mem a) := by
  unfold specRead
  split
  · next h => exact gives_ok h
  · exact gives_error _

/-- What stands in TOC and FCH after a successful parse: byte 0, and byte 1 for code 3, else the frame count (R42, R43). -/
def Parsed.HasHeader (mem : Nat → Option Byte) (p : Parsed) : Prop :=
  mem 0 = some p.toc ∧ (tocCode p.toc = 0#2 → p.fch = 1#8) ∧ (tocCode p.toc = 1#2 → p.fch = 2#8) ∧
    (tocCode p.toc = 2#2 → p.fch = 2#8) ∧ (tocCode p.toc = 3#2 → mem 1 = some p.fch)

theorem specCode1_header (toc : Byte) (n : Nat) : Gives (fun p => p.toc = toc ∧ p.fch = 2#8) (specCode1 toc n) := by
  simp only [specCode1]
  split
  · exact gives_error _
  · split
    · exact gives_error _
    · exact gives_ok ⟨rfl, rfl⟩

theorem specCode2_header (mem : Nat → Option Byte) (toc : Byte) (n : Nat) :
    Gives (fun p => p.toc = toc ∧ p.fch = 2#8) (specCode2 mem toc n) := by
  refine gives_bind fun r => ?_
  dsimp only
  split
  · exact gives_error _
  · exact gives_ok ⟨rfl, rfl⟩

theorem specRegion_header (mem : Nat → Option Byte) (toc fch : Byte) (pos stop : Nat) (pad : Option Pad) :
    Gives (fun p => p.toc = toc ∧ p.fch = fch) (specRegion mem toc fch pos stop pad) := by
  simp only [specRegion]
  split
  · exact gives_bind fun _ => gives_ok ⟨rfl, rfl⟩
  · exact gives_bind fun _ => gives_ok ⟨rfl, rfl⟩

theorem specCode3_header (mem : Nat → Option Byte) (toc : Byte) (n : Nat) :
    Gives (fun p => p.toc = toc ∧ mem 1 = some p.fch) (specCode3 mem toc n) := by
  unfold specCode3
  split
  · exact gives_error _
  · refine (specRead_gives mem 1).bind fun fch hfch => ?_
    have hregion : ∀ pos stop pad,
        Gives (fun p => p.toc = toc ∧ mem 1 = some p.fch) (specRegion mem toc fch pos stop pad) := by
      intro pos stop pad p hp
      obtain ⟨htoc, rfl⟩ := specRegion_header mem toc fch pos stop pad p hp
      exact ⟨htoc, hfch⟩
    dsimp only
    split
    · exact gives_error _
    · split
      · exact gives_bind fun _ => hregion _ _ _
      · exact hregion _ _ _

theorem specParse_header (mem : Nat → Option Byte) (n : Nat) : Gives (Parsed.HasHeader mem) (specParse mem n) := by
  unfold specParse
  split
  · exact gives_error _
  · refine (specRead_gives mem 0).bind fun toc htoc => ?_
    split
    · next hcode => exact gives_ok ⟨htoc, by simp [hcode]⟩
    · next hcode =>
      intro p hp
      obtain ⟨rfl, hfch⟩ := specCode1_header toc n p hp
      exact ⟨htoc, by simp [hcode, hfch]⟩
    · next hcode =>
      intro p hp
      obtain ⟨rfl, hfch⟩ := specCode2_header mem toc n p hp
      exact ⟨htoc, by simp [hcode, hfch]⟩
    · next hcode =>
      intro p hp
      obtain ⟨rfl, hfch⟩ := specCode3_header mem toc n p hp
      exact ⟨htoc, by simp [hcode, hfch]⟩

/-- Settles O56: TOC and FCH hold the header that Parse read. -/
theorem tocAndFchRegisters : Obligations.TocAndFchRegisters := by
  intro s hs
  refine ⟨fun hok => ?_, fun hok => ?_⟩
  · obtain ⟨n, p, -, hparse, ⟨htoc, hfch, -⟩, -⟩ := hs.of_ok hok
    exact ⟨p.toc, p.fch, htoc, hfch, specParse_header _ n p hparse⟩
  · obtain ⟨htoc, hfch, -⟩ := hs.noResults hok
    exact ⟨htoc, hfch⟩

end Sys2Proof.Machine
end

section
/-! SUPPORT. Frames of the fields and of the Host accesses (20_memory.md R81, R88), and what a step leaves of IN_BUF and of a
BUSY block (R91, R320, R323): O34, O35, O37, O38. -/

namespace Sys2Proof.Machine

/-- Settles O34, by the three results of a packet field: the parse goes on, or it ends in OK or in ERR. -/
theorem packetFieldFrame : Obligations.PacketFieldFrame := by
  intro i s t hfield h
  rcases exec_packetField_next hfield h with ⟨w, rfl⟩ | ⟨p, rfl⟩ | ⟨e, rfl⟩
  all_goals refine ⟨⟨rfl, rfl, rfl⟩, rfl, fun _ => rfl, ?_⟩
  · exact .inl ⟨Option.some_ne_none w, rfl, rfl, rfl, rfl, rfl, rfl, rfl, rfl, rfl, rfl, rfl, rfl⟩
  · exact .inr ⟨rfl, .inl rfl⟩
  · exact .inr ⟨rfl, .inr rfl⟩

/-! ### Accepted Host instructions -/

/-- Among the Host instructions only WB touches IN_BUF, and it stores its byte (R81, R261). -/
theorem HostResult.inBuf {s t : State} {i : Instr} (h : HostResult s t i) :
    (∃ a v, i = .wb a v ∧ t.inBuf = memWrite s.inBuf a v) ∨ t.inBuf = s.inBuf := by
  cases h with
  | readByte a v _ ht => subst ht; exact .inr rfl
  | readRegister x r v _ _ ht => subst ht; exact .inr rfl
  | nop ht => subst ht; exact .inr rfl
  | writeByte a v _ _ ht => subst ht; exact .inl ⟨a, v, rfl, packetChanged_inBuf _⟩
  | setLength n _ _ ht => subst ht; exact .inr (packetChanged_inBuf _)
  | parse _ _ ht => subst ht; exact .inr rfl
  | clear _ ht => subst ht; exact .inr rfl

/-- What a BUSY block accepts changes what the Host has read, and nothing else (R91, R323). -/
theorem HostResult.of_busy {s t : State} {i : Instr} (h : HostResult s t i) (hbusy : s.status = .busy) :
    t = { s with hostData := t.hostData } := by
  cases h with
  | readByte a v _ ht => subst ht; rfl
  | readRegister x r v _ _ ht => subst ht; rfl
  | nop ht => subst ht; rfl
  | writeByte _ _ _ hb _ | setLength _ _ hb _ | parse hb _ _ | clear hb _ => exact absurd hbusy hb

/-- RB, RR and NOP change at most what the Host has read, and NOP not even that (R88, R266). -/
theorem HostResult.of_read {s t : State} {i : Instr} (h : HostResult s t i)
    (hi : (∃ a, i = .rb a) ∨ (∃ x, i = .rr x) ∨ i = .cmdNop) :
    t = { s with hostData := t.hostData } ∧ (i = .cmdNop → t.hostData = s.hostData) := by
  cases h with
  | readByte a v _ ht => subst ht; exact ⟨rfl, nofun⟩
  | readRegister x r v _ _ ht => subst ht; exact ⟨rfl, nofun⟩
  | nop ht => subst ht; exact ⟨rfl, fun _ => rfl⟩
  | writeByte | setLength | parse | clear => simp at hi

/-- Settles O35: of a read nothing but the Host's value changes. -/
theorem hostReadFrame : Obligations.HostReadFrame := by
  intro i s t hi h
  have hhost : i.isPacketField = false := by
    rcases hi with ⟨a, rfl⟩ | ⟨x, rfl⟩ | rfl <;> rfl
  obtain ⟨ht, hnop⟩ := (exec_host_next hhost h).of_read hi
  rw [ht]
  exact ⟨fun _ => rfl, ⟨rfl, rfl, rfl, rfl, rfl, rfl, rfl, rfl, rfl, rfl, rfl⟩, rfl, rfl, rfl, rfl, rfl, hnop⟩

/-- Settles O38: the access is taken off the schedule, and a BUSY block accepts reads and NOP only. -/
theorem busyBlockKeepsItsState : Obligations.BusyBlockKeepsItsState := by
  intro s t a rest hbusy hpending h
  rw [step_access hpending] at h
  obtain ⟨i, -, hresult⟩ := hostAccess_result h
  exact hresult.of_busy hbusy

/-! ### A step that changes a byte of IN_BUF -/

theorem decodeCtrl_ne_wb (c : Byte) {b : Nat} {u : Byte} : decodeCtrl c ≠ .wb b u := by
  unfold decodeCtrl
  split
  · nofun
  · split
    · nofun
    · split <;> nofun

/-- A register write is no WB (R126). -/
theorem decodeRegWrite_ne_wb {x v b : Nat} {u : Byte} : decodeRegWrite x v ≠ .ok (.wb b u) := by
  intro h
  unfold decodeRegWrite at h
  split at h
  · cases h
  · split at h
    · exact decodeCtrl_ne_wb _ (Except.ok.inj h)
    · cases h
  · cases h
  · cases h

/-- The only access that decodes to `WB b, u` is its own tuple (R126). -/
theorem eq_byteWrite_of_decode {a : Access} {b : Nat} {u : Byte} (h : decode (.access a) = .ok (.wb b u)) :
    a = byteWrite b u := by
  obtain ⟨space, dir, index, data⟩ := a
  change decodeAccess _ = _ at h
  unfold decodeAccess at h
  split at h
  · next hspace =>
    unfold decodeBufAccess at h
    split at h
    · next v hdir hdata =>
      split at h
      · next hv =>
        cases h
        simp only at hspace hdir hdata
        subst hspace hdir hdata
        simp [byteWrite, Nat.mod_eq_of_lt hv]
      · cases h
    · cases h
    · cases h
    · cases h
  · unfold decodeRegAccess at h
    split at h
    · cases h
    · split at h
      · exact absurd h decodeRegWrite_ne_wb
      · cases h
      · cases h
      · cases h

/-- The Parser's turn writes no byte of IN_BUF (R81). -/
theorem parserTurn_inBuf {s t : State} (h : parserTurn s = .next t) : t.inBuf = s.inBuf := by
  rcases parserTurn_next h with ⟨-, rfl⟩ | ⟨-, -, ⟨p, rfl⟩ | ⟨e, rfl⟩⟩ <;> rfl

/-- Settles O37, by the three things a step can be: a Parser turn keeps IN_BUF, and an access that does not is a WB. -/
theorem onlyByteWritesChangeBuffer : Obligations.OnlyByteWritesChangeBuffer := by
  intro s t b h hchanged
  rcases step_next h with ⟨a, rest, hpending, haccess⟩ | ⟨rest, -, hturn⟩ | ⟨rest, hpending, -⟩
  · obtain ⟨i, hdecode, hresult⟩ := hostAccess_result haccess
    rcases hresult.inBuf with ⟨x, v, rfl, hbuf⟩ | hbuf
    · have hb : b = x := by
        by_contra hne
        exact hchanged (by rw [hbuf, memRead_memWrite_other _ v hne])
      subst hb
      exact .inl ⟨v, rest, by rw [hpending, eq_byteWrite_of_decode hdecode]⟩
    · exact absurd (by rw [hbuf]) hchanged
  · exact absurd (by rw [parserTurn_inBuf hturn]) hchanged
  · exact .inr ⟨rest, hpending⟩

end Sys2Proof.Machine
end

section
/-! SUPPORT. Parse on two buffers that agree below the header end (20_memory.md R83): each part of Parse comes to the same on
both, and a value it gives puts the cursor at the header end. From it, O41, and with the header end inside the packet, O40. -/

namespace Sys2Proof.Machine

/-! ### The header end lies inside the packet (R82, R83) -/

theorem lengthFieldsEnd_le (mem : Nat → Option Byte) (stop count : Nat) :
    ∀ pos, pos ≤ stop → lengthFieldsEnd mem stop count pos ≤ stop := by
  induction count with
  | zero => intro pos h; exact h
  | succ count ih =>
    intro pos h
    rw [lengthFieldsEnd]
    split
    · exact h
    · split
      · omega
      · split
        · exact ih _ (by omega)
        · split
          · omega
          · split
            · omega
            · exact ih _ (by omega)

theorem regionHeaderEnd_le (mem : Nat → Option Byte) (fch : Byte) {pos stop : Nat} (h : pos ≤ stop) :
    regionHeaderEnd mem fch pos stop ≤ stop := by
  unfold regionHeaderEnd
  split
  · exact lengthFieldsEnd_le _ _ _ _ h
  · exact h

theorem chainHeaderEnd_le (mem : Nat → Option Byte) (n : Nat) (fch : Byte) (left : Nat) :
    ∀ pos p, pos ≤ n → chainHeaderEnd mem n fch left pos p ≤ n := by
  induction left with
  | zero => intro pos p h; exact h
  | succ left ih =>
    intro pos p h
    rw [chainHeaderEnd]
    split
    · exact h
    · split
      · omega
      · next x _ =>
        split
        · exact ih _ _ (by omega)
        · split
          · omega
          · exact (regionHeaderEnd_le mem fch (by omega)).trans (Nat.sub_le _ _)

theorem headerEnd_le (mem : Nat → Option Byte) (n : Nat) : headerEnd mem n ≤ n := by
  unfold headerEnd
  split
  · exact Nat.zero_le n
  · split
    · omega
    · split
      · omega
      · omega
      · exact lengthFieldsEnd_le _ _ _ _ (by omega)
      · split
        · omega
        · split
          · omega
          · split
            · omega
            · split
              · exact chainHeaderEnd_le _ _ _ _ _ _ (by omega)
              · exact regionHeaderEnd_le _ _ (by omega)

/-! ### The field at the cursor lies below the header end -/

theorem lt_lengthFieldsEnd_succ (mem : Nat → Option Byte) {stop pos : Nat} (count : Nat) (h : pos < stop) :
    pos < lengthFieldsEnd mem stop (count + 1) pos := by
  have h1 := le_lengthFieldsEnd mem stop count (pos + 1)
  have h2 := le_lengthFieldsEnd mem stop count (pos + 2)
  rw [lengthFieldsEnd]
  split
  · omega
  · split
    · omega
    · split
      · omega
      · split
        · omega
        · split <;> omega

theorem lt_chainHeaderEnd_succ (mem : Nat → Option Byte) {n pos : Nat} (fch : Byte) (left p : Nat) (h : pos < n) :
    pos < chainHeaderEnd mem n fch (left + 1) pos p := by
  rw [chainHeaderEnd]
  split
  · omega
  · split
    · omega
    · next x _ =>
      split
      · exact le_chainHeaderEnd mem n fch left (pos + 1) _
      · split
        · omega
        · exact le_regionHeaderEnd mem fch (pos + 1) _

/-- The TOC byte is a header byte. -/
theorem headerEnd_pos (mem : Nat → Option Byte) {n : Nat} (hn : n ≠ 0) : 0 < headerEnd mem n := by
  unfold headerEnd
  split
  · contradiction
  · split
    · omega
    · split
      · omega
      · omega
      · exact le_lengthFieldsEnd mem n 1 1
      · split
        · omega
        · split
          · omega
          · next fch _ =>
            have h1 := le_chainHeaderEnd mem n fch n 2 0
            have h2 := le_regionHeaderEnd mem fch 2 n
            split
            · omega
            · split <;> omega

/-! ### A part of Parse on two buffers -/

/-- A part of Parse comes to the same on two buffers, `x'` on the one and `x` on the other, and a value it gives has the
cursor at `e`. -/
def SameEnding {α : Type} (cursor : α → Nat) (e : Nat) (x' x : Except ParseStop α) : Prop :=
  x' = x ∧ Gives (fun a => cursor a = e) x

section
variable {α β : Type} {cursor : α → Nat} {e : Nat}

theorem sameEnding_ok {a : α} (h : cursor a = e) : SameEnding cursor e (.ok a) (.ok a) := ⟨rfl, gives_ok h⟩

theorem sameEnding_error (stop : ParseStop) : SameEnding cursor e (.error stop) (.error stop) := ⟨rfl, gives_error stop⟩

/-- Where the first part comes to the same on both buffers, what follows its value decides. -/
theorem sameEnding_bind {x' x : Except ParseStop β} {f' f : β → Except ParseStop α} (hx : x' = x)
    (hf : ∀ a, x = .ok a → SameEnding cursor e (f' a) (f a)) : SameEnding cursor e (x' >>= f') (x >>= f) := by
  subst hx
  cases x' with
  | ok a => exact hf a rfl
  | error stop => exact sameEnding_error stop

/-- The cursor of what follows may be read off the value of the first part. -/
theorem SameEnding.bind {cursor' : β → Nat} {x' x : Except ParseStop β} {f' f : β → Except ParseStop α}
    (hx : SameEnding cursor' e x' x) (hf : ∀ a, cursor' a = e → SameEnding cursor e (f' a) (f a)) :
    SameEnding cursor e (x' >>= f') (x >>= f) :=
  sameEnding_bind hx.1 fun a ha => hf a (hx.2 a ha)

/-- A read below the header end comes to the same, and what follows it may use the byte. -/
theorem sameEnding_read {mem' mem : Nat → Option Byte} {pos : Nat} {f' f : Byte → Except ParseStop α}
    (hsame : ∀ a, a < e → mem' a = mem a) (hpos : pos < e)
    (hf : ∀ b, mem pos = some b → SameEnding cursor e (f' b) (f b)) :
    SameEnding cursor e (specRead mem' pos >>= f') (specRead mem pos >>= f) :=
  sameEnding_bind (by simp only [specRead, hsame pos hpos]) fun b hb => hf b (specRead_gives mem pos b hb)

end

/-! ### What reads no further than the header so far -/

/-- Code 1 reads nothing but the TOC byte (R213). -/
theorem sameEnding_code1 (toc : Byte) (n : Nat) : SameEnding Parsed.hdr 1 (specCode1 toc n) (specCode1 toc n) := by
  simp only [specCode1]
  split
  · exact sameEnding_error _
  · split
    · exact sameEnding_error _
    · exact sameEnding_ok rfl

/-- After the header of a padded packet Parse runs the chain from its first indicator byte on (R190, R219). -/
theorem specPadExtract_region (mem : Nat → Option Byte) (toc fch : Byte) (n : Nat) :
    (specPadExtract mem n >>= fun r =>
      specRegion mem toc fch (2 + r.1) (n - r.2) (some { off := n - r.2, len := r.2, ind := r.1 })) =
      chainRest mem n { Work.start with toc := toc, fch := fch } := by
  simp only [specPadExtract, chainRest, Work.start, bind_assoc, Nat.sub_zero]
  congr 1
  funext r
  split <;> rfl

section
variable {mem' mem : Nat → Option Byte} {e n : Nat} (hsame : ∀ a, a < e → mem' a = mem a)
include hsame

/-! ### Frame lengths (R114, R150) -/

/-- One frame-length field, followed by what reads no further than the fields that follow it. -/
theorem sameEnding_frameLen {α : Type} {cursor : α → Nat} {stop count pos : Nat}
    {f' f : Nat × Nat → Except ParseStop α} (he : lengthFieldsEnd mem stop (count + 1) pos = e)
    (hf : ∀ l k, lengthFieldsEnd mem stop count (pos + k) = e → SameEnding cursor e (f' (l, k)) (f (l, k))) :
    SameEnding cursor e (specFrameLen mem' pos stop >>= f') (specFrameLen mem pos stop >>= f) := by
  unfold specFrameLen
  split
  · exact sameEnding_error _
  next hin =>
  have hpos : pos < e := he ▸ lt_lengthFieldsEnd_succ mem count (by omega)
  rw [lengthFieldsEnd, if_neg hin] at he
  rw [bind_assoc, bind_assoc]
  refine sameEnding_read hsame hpos fun b0 hb0 => ?_
  simp only [hb0] at he
  split
  · next hshort =>
    have hlong : flenIsLong b0 = false := by rw [Bool.eq_false_iff, Ne, flenIsLong_iff]; omega
    rw [if_pos hlong] at he
    exact hf _ 1 he
  next hnotShort =>
  have hlong : flenIsLong b0 = true := (flenIsLong_iff b0).2 (by omega)
  simp only [hlong, Bool.true_eq_false, if_false] at he
  split
  · exact sameEnding_error _
  next hin2 =>
  rw [if_neg hin2] at he
  rw [bind_assoc, bind_assoc]
  have hpos2 : pos + 1 < e := by
    have h2 := le_lengthFieldsEnd mem stop count (pos + 2)
    split at he <;> omega
  refine sameEnding_read hsame hpos2 fun b1 hb1 => ?_
  simp only [hb1] at he
  exact hf _ 2 he

theorem sameEnding_lengths {stop count : Nat} : ∀ {pos : Nat}, lengthFieldsEnd mem stop count pos = e →
    SameEnding Prod.snd e (specLengths mem' stop count pos) (specLengths mem stop count pos) := by
  induction count with
  | zero => intro pos he; exact sameEnding_ok he
  | succ count ih =>
    intro pos he
    rw [specLengths, specLengths]
    exact sameEnding_frameLen hsame he fun l k hnext => (ih hnext).bind fun r hr => sameEnding_ok hr

/-! ### The frame-data region (R221-R224) -/

theorem sameEnding_vbr {m pos stop : Nat} (he : lengthFieldsEnd mem stop (m - 1) pos = e) :
    SameEnding Prod.fst e (specVbr mem' m pos stop) (specVbr mem m pos stop) := by
  unfold specVbr
  exact (sameEnding_lengths hsame he).bind fun r hr => sameEnding_bind rfl fun frames _ => sameEnding_ok hr

theorem sameEnding_region {toc fch : Byte} {pos stop : Nat} {pad : Option Pad}
    (he : regionHeaderEnd mem fch pos stop = e) :
    SameEnding Parsed.hdr e (specRegion mem' toc fch pos stop pad) (specRegion mem toc fch pos stop pad) := by
  unfold regionHeaderEnd at he
  simp only [specRegion]
  split
  · next hvbr =>
    rw [if_pos hvbr] at he
    exact (sameEnding_vbr hsame he).bind fun r hr => sameEnding_ok hr
  · next hcbr =>
    rw [if_neg hcbr] at he
    exact sameEnding_bind rfl fun frames _ => sameEnding_ok he

/-! ### The padding chain (R190-R195) -/

/-- The chain from an indicator byte inside or at the end of the packet on, and the region after it. More turns than
indicator bytes left are enough (R197). -/
theorem sameEnding_chain (hn : 2 ≤ n) (left : Nat) : ∀ {w : Work}, w.padBytes ≤ n - 2 → n - 2 < w.padBytes + left →
    chainHeaderEnd mem n w.fch left (2 + w.padBytes) w.padSum = e →
    SameEnding Parsed.hdr e (chainRest mem' n w) (chainRest mem n w) := by
  induction left with
  | zero => intro w _ _ _; omega
  | succ left ih =>
    intro w hle hleft he
    rw [chainRest_step _ hle, chainRest_step _ hle]
    split
    · exact sameEnding_error _
    next hin =>
    have hpos : 2 + w.padBytes < e := he ▸ lt_chainHeaderEnd_succ mem w.fch left w.padSum (by omega)
    rw [chainHeaderEnd, if_neg (by omega)] at he
    refine sameEnding_read hsame hpos fun x hx => ?_
    simp only [hx] at he
    split
    · next hcont =>
      rw [if_pos (BitVec.eq_of_toNat_eq hcont)] at he
      exact ih (by simp only [Work.addPadding]; omega) (by simp only [Work.addPadding]; omega) he
    · next hterm =>
      rw [if_neg fun h : x = 0xFF#8 => hterm (h ▸ rfl)] at he
      split
      · exact sameEnding_error _
      · next hfits =>
        simp only [Work.addPadding] at hfits
        rw [if_neg (by omega)] at he
        exact sameEnding_region hsame he

/-! ### The four codes (R211-R219) -/

theorem sameEnding_code2 {toc : Byte} (he : lengthFieldsEnd mem n 1 1 = e) :
    SameEnding Parsed.hdr e (specCode2 mem' toc n) (specCode2 mem toc n) := by
  unfold specCode2
  refine sameEnding_frameLen hsame he fun l k hk => ?_
  dsimp only
  split
  · exact sameEnding_error _
  · exact sameEnding_ok hk

theorem sameEnding_code3 {toc : Byte} (htoc : mem 0 = some toc) (hcode : tocCode toc = 3#2) (hn : n ≠ 0)
    (he : headerEnd mem n = e) : SameEnding Parsed.hdr e (specCode3 mem' toc n) (specCode3 mem toc n) := by
  simp only [headerEnd, hn, htoc, hcode, if_false] at he
  simp only [specCode3, specPadExtract_region]
  split
  · exact sameEnding_error _
  next hshort =>
  rw [if_neg hshort] at he
  have hpos : 1 < e := by
    split at he
    · omega
    · next fch _ =>
      have h1 := le_chainHeaderEnd mem n fch n 2 0
      have h2 := le_regionHeaderEnd mem fch 2 n
      split at he
      · omega
      · split at he <;> omega
  refine sameEnding_read hsame hpos fun fch hfch => ?_
  simp only [hfch] at he
  split
  · exact sameEnding_error _
  next hcount =>
  have hlegal : legalCount (fchCount fch) = true := (legalCount_iff _).2 (by omega)
  simp only [hlegal, Bool.true_eq_false, if_false] at he
  split
  · next hpad =>
    rw [if_pos hpad] at he
    exact sameEnding_chain hsame (by omega) n (Nat.zero_le _) (by simp only [Work.start]; omega) he
  · next hnoPad =>
    rw [if_neg hnoPad] at he
    exact sameEnding_region hsame he

/-- Parse comes to the same on every buffer that agrees below the header end, and where it gives a result the header end is
HDR_BYTES (R83). -/
theorem sameEnding_parse (he : headerEnd mem n = e) :
    SameEnding Parsed.hdr e (specParse mem' n) (specParse mem n) := by
  unfold specParse
  split
  · exact sameEnding_error _
  next hn =>
  have hpos : 0 < e := he ▸ headerEnd_pos mem hn
  refine sameEnding_read hsame hpos fun toc htoc => ?_
  split
  · next hcode => exact sameEnding_ok (by simpa [headerEnd, hn, htoc, hcode] using he)
  · next hcode =>
    obtain rfl : 1 = e := by simpa [headerEnd, hn, htoc, hcode] using he
    exact sameEnding_code1 toc n
  · next hcode => exact sameEnding_code2 hsame (by simpa [headerEnd, hn, htoc, hcode] using he)
  · next hcode => exact sameEnding_code3 hsame htoc hcode hn he

end

/-! ### The statements -/

/-- What ends a parse does not look at IN_BUF. -/
theorem endWith_inBuf (s : State) (m : Memory) (x : Except ParseStop Parsed) :
    endWith { s with inBuf := m } x = withBuf m (endWith s x) := by
  cases x with
  | ok p => rfl
  | error e => cases e <;> rfl

/-- A parse that leaves a value in HDR_BYTES gave a result with that value (R44, R231). -/
theorem exists_result_of_hdrBytes {s t : State} {x : Except ParseStop Parsed} {h : Nat} (ht : endWith s x = .next t)
    (hhdr : t.hdrBytes = some h) : ∃ p, x = .ok p ∧ p.hdr = h := by
  cases x with
  | ok p => cases ht; exact ⟨p, rfl, Option.some.inj hhdr⟩
  | error e =>
    cases e with
    | raised e => cases ht; cases hhdr
    | unwritten a => cases ht

/-- A buffer that agrees below the header end gives the same outcome of the Parser's turn (R83). -/
theorem parserTurn_withBuf {s : State} {n : Nat} {m : Memory} (hbusy : s.status = .busy) (hlen : s.inLen = some n)
    (hsame : ∀ a, a < headerEnd (memRead s.inBuf) n → memRead m a = memRead s.inBuf a) :
    parserTurn { s with inBuf := m } = withBuf m (parserTurn s) := by
  obtain ⟨hparse, -⟩ := sameEnding_parse hsame rfl
  rw [parserTurn_eq_endWith hbusy hlen, parserTurn_eq_endWith (s := { s with inBuf := m }) hbusy hlen, hparse,
    endWith_inBuf]

/-- Settles O41: the Parser's turn is Parse, which comes to the same below the header end and ends a success there. -/
theorem onlyHeaderBytesMatter : Obligations.OnlyHeaderBytesMatter := by
  refine ⟨fun s n m => parserTurn_withBuf, fun s t n h hbusy hlen hturn hhdr => ?_⟩
  rw [parserTurn_eq_endWith hbusy hlen] at hturn
  obtain ⟨p, hparse, rfl⟩ := exists_result_of_hdrBytes hturn hhdr
  obtain ⟨-, hgives⟩ := sameEnding_parse (mem := memRead s.inBuf) (n := n) (fun _ _ => rfl) rfl
  exact (hgives p hparse).symm

/-- Settles O40: the header end lies inside the packet. -/
theorem bytesBeyondPacketIgnored : Obligations.BytesBeyondPacketIgnored := by
  intro s n m hbusy hlen hsame
  exact parserTurn_withBuf hbusy hlen fun a ha => hsame a (ha.trans_le (headerEnd_le _ _))

end Sys2Proof.Machine
end

section
/-! SUPPORT. Decoding and encoding are inverse to each other (30_encoding.md R112-R118, R121, R126, R127), the decoders
follow the opcode table (R130), every frame length has one field (R124), and LOADPKT (R129): O1, O2, O4, O6, O60. -/

namespace Sys2Proof

/-! ### Decoding what was encoded -/

/-- A legal count decodes to the form its VBR flag selects (R113, R121). -/
theorem decodeFch_fchByte_legal (p v : Bool) {m : BitVec 6} (hm : legalCount m = true) :
    decodeFch (fchByte p v m) = if v then .fchVbr p m else .fchCbr p m := by
  have hcount := (Machine.legalCount_iff m).1 hm
  rw [decodeFch_legal _ (by rwa [fchCount_fchByte]), fchVbrFlag_fchByte, fchPadFlag_fchByte, fchCount_fchByte]

/-- Each illegal-count row is read back with both flags and the count bits it leaves free (R121). -/
theorem decodeFch_fchByte_illegal (p v : Bool) :
    decodeFch (fchByte p v 0#6) = .fchIllegal0 p v ∧
    decodeFch (fchByte p v 49#6) = .fchIllegal49 p v ∧
    (∀ x : BitVec 1, decodeFch (fchByte p v (25#5 ++ x)) = .fchIllegal50 p v x) ∧
    (∀ x : BitVec 2, decodeFch (fchByte p v (13#4 ++ x)) = .fchIllegal52 p v x) ∧
    ∀ x : BitVec 3, decodeFch (fchByte p v (7#3 ++ x)) = .fchIllegal56 p v x := by
  revert p v; decide

/-- The first byte of a FLEN2 pair is long and carries A in its low bits (R114). -/
theorem flen2First_fields (a : BitVec 2) : 252 ≤ (flen2First a).toNat ∧ (flen2First a).extractLsb' 0 2 = a := by
  revert a; decide

/-- A value written to CTRL is read as its command (R127). -/
theorem decode_ctrlWrite (v : Byte) : decode (.access (regWrite .ctrl v.toNat)) = .ok (decodeCtrl v) := by
  simp [decode, decodeAccess, decodeRegAccess, decodeRegWrite, regWrite, Reg.index, Reg.ofIndex, v.isLt]

theorem decode_byteWrite (a : Nat) (v : Byte) : decode (.access (byteWrite a v)) = .ok (.wb a v) := by
  simp [decode, decodeAccess, decodeBufAccess, byteWrite, v.isLt]

theorem decode_regRead (r : BitVec 8) : decode (.access (regRead r.toNat)) = .ok (.rr r) := by
  simp [decode, decodeAccess, decodeRegAccess, regRead, Nat.not_le.2 r.isLt]

/-- A value of 3 or more is no command (R127, R269). -/
theorem decodeCtrl_reserved {v : Byte} (hv : 3 ≤ v.toNat) : decodeCtrl v = .cmdReserved v := by
  have hne : ∀ k : Byte, k.toNat < 3 → v ≠ k := fun k hk h => by subst h; omega
  simp [decodeCtrl, hne 0#8 (by decide), hne 1#8 (by decide), hne 2#8 (by decide)]

/-- Settles O1, by the formats: each field's bits are read back from the byte they were put in, and each access from its
tuple. -/
theorem decodeOfEncode : Obligations.DecodeOfEncode := by
  intro i hi
  cases i <;> simp only [Instr.wf, decide_eq_true_eq] at hi <;> simp only [encode]
  case toc0 | toc1 | toc2 | toc3 => simp [decodeToc]
  case fchIllegal0 p v => obtain ⟨h, -⟩ := decodeFch_fchByte_illegal p v; rw [decode_fch, h]
  case fchIllegal49 p v => obtain ⟨-, h, -⟩ := decodeFch_fchByte_illegal p v; rw [decode_fch, h]
  case fchIllegal50 p v x => obtain ⟨-, -, h, -⟩ := decodeFch_fchByte_illegal p v; rw [decode_fch, h]
  case fchIllegal52 p v x => obtain ⟨-, -, -, h, -⟩ := decodeFch_fchByte_illegal p v; rw [decode_fch, h]
  case fchIllegal56 p v x => obtain ⟨-, -, -, -, h⟩ := decodeFch_fchByte_illegal p v; rw [decode_fch, h]
  case fchCbr p m => rw [decode_fch, decodeFch_fchByte_legal p false hi]; rfl
  case fchVbr p m => rw [decode_fch, decodeFch_fchByte_legal p true hi]; rfl
  case flen2 a b =>
    obtain ⟨hlong, hbits⟩ := flen2First_fields a
    rw [decode_flen_long _ b hlong, hbits]
  case flen1 l => exact decode_flen_short l hi
  case padCont => rfl
  case padTerm t =>
    have ht : t ≠ 0xFF#8 := by rintro rfl; exact absurd hi (by decide)
    rw [decode_padind, decodePadind, if_neg ht]
  case wb a v => exact decode_byteWrite a v
  case rb => rfl
  case wrInLen => rfl
  case rr r => exact decode_regRead r
  case cmdNop => exact decode_ctrlWrite 0x00#8
  case cmdParse => exact decode_ctrlWrite 0x01#8
  case cmdClear => exact decode_ctrlWrite 0x02#8
  case cmdReserved v => rw [decode_ctrlWrite, decodeCtrl_reserved hi]

/-! ### Encoding what was decoded -/

/-- An instruction some encoding stands for, with the form it is encoded as. -/
abbrev Instr.Reads (i : Instr) (e : Encoded) : Prop := i.wf = true ∧ encode i = e

/-- Every TOC byte is the encoding of what it decodes to (R112, R119). -/
theorem decodeToc_reads (b : Byte) : (decodeToc b).Reads (.packet .toc [b]) := by
  have hb := tocByte_fields b
  unfold decodeToc
  split
  all_goals
    next hcode =>
    rw [hcode] at hb
    exact ⟨rfl, by rw [encode, hb]⟩

/-- Every frame-count header is the encoding of what it decodes to: the rows of R121 leave out no count. -/
theorem decodeFch_reads (b : Byte) : (decodeFch b).Reads (.packet .fch [b]) := by
  revert b; decide

theorem decodePadind_reads (b : Byte) : (decodePadind b).Reads (.packet .padind [b]) := by
  unfold decodePadind
  split
  · next h => subst h; exact ⟨rfl, rfl⟩
  · next h =>
    have hne : b.toNat ≠ 255 := fun h' => h (BitVec.eq_of_toNat_eq h')
    have hlt := b.isLt
    exact ⟨decide_eq_true (by omega), rfl⟩

theorem flen1_reads {b : Byte} (h : flenIsLong b = false) : (Instr.flen1 b).Reads (.packet .flen [b]) := by
  have hlt : ¬ 252 ≤ b.toNat := by rw [← flenIsLong_iff, h]; decide
  exact ⟨decide_eq_true (by omega), rfl⟩

theorem flen2_reads {b0 : Byte} (b1 : Byte) (h : flenIsLong b0 = true) :
    (Instr.flen2 (b0.extractLsb' 0 2) b1).Reads (.packet .flen [b0, b1]) := by
  have hfirst : flen2First (b0.extractLsb' 0 2) = b0 := by revert b0; decide
  exact ⟨rfl, by rw [encode, hfirst]⟩

/-- A packet field takes the bytes its encoding has and leaves the rest (R118). -/
theorem decodeField_reads {f : Field} {bytes rest : List Byte} {i : Instr} (h : decodeField f bytes = .ok (i, rest)) :
    ∃ used, bytes = used ++ rest ∧ i.Reads (.packet f used) := by
  unfold decodeField at h
  split at h
  · next b rest => cases h; exact ⟨[b], rfl, decodeToc_reads b⟩
  · next b rest => cases h; exact ⟨[b], rfl, decodeFch_reads b⟩
  · next b rest => cases h; exact ⟨[b], rfl, decodePadind_reads b⟩
  · next b0 rest =>
    split at h
    · next hlong =>
      split at h
      · next b1 rest => cases h; exact ⟨[b0, b1], rfl, flen2_reads b1 hlong⟩
      · cases h
    · next hshort => cases h; exact ⟨[b0], rfl, flen1_reads (Bool.eq_false_iff.2 hshort)⟩
  · cases h

theorem decode_packet_reads {f : Field} {bytes : List Byte} {i : Instr} (h : decode (.packet f bytes) = .ok i) :
    i.Reads (.packet f bytes) := by
  simp only [decode] at h
  split at h
  · next hfield =>
    cases h
    obtain ⟨used, rfl, hreads⟩ := decodeField_reads hfield
    rwa [List.append_nil]
  · cases h
  · cases h

/-- Every CTRL value is the data of what it decodes to (R127). -/
theorem decodeCtrl_reads (v : Byte) : (decodeCtrl v).Reads (.access (regWrite .ctrl v.toNat)) := by
  by_cases hv : 3 ≤ v.toNat
  · rw [decodeCtrl_reserved hv]
    exact ⟨decide_eq_true hv, rfl⟩
  · obtain rfl | rfl | rfl : v = 0#8 ∨ v = 1#8 ∨ v = 2#8 := by bv_omega
    all_goals exact ⟨rfl, rfl⟩

/-- A register index names a register by its own index (R36). -/
theorem index_of_ofIndex {x : Nat} {r : Reg} (hx : x < 256) (h : Reg.ofIndex (BitVec.ofNat 8 x) = some r) :
    r.index = x := by
  have hindex : ∀ y : BitVec 8, ∀ r ∈ Reg.ofIndex y, r.index = y.toNat := by decide
  rw [hindex _ r h, BitVec.toNat_ofNat, Nat.mod_eq_of_lt hx]

theorem decodeRegWrite_reads {x v : Nat} {i : Instr} (hx : x < 256) (h : decodeRegWrite x v = .ok i) :
    i.Reads (.access ⟨0#1, 1#1, x, some v⟩) := by
  unfold decodeRegWrite at h
  split at h
  · cases h
  · next hreg =>
    obtain rfl := index_of_ofIndex hx hreg
    split at h
    · next hv =>
      cases h
      have hreads := decodeCtrl_reads (BitVec.ofNat 8 v)
      rwa [BitVec.toNat_ofNat, Nat.mod_eq_of_lt hv] at hreads
    · cases h
  · next hreg =>
    obtain rfl := index_of_ofIndex hx hreg
    cases h
    exact ⟨rfl, rfl⟩
  · cases h

theorem decodeRegAccess_reads {a : Access} {i : Instr} (hspace : a.space = 0#1) (h : decodeRegAccess a = .ok i) :
    i.Reads (.access a) := by
  obtain ⟨space, dir, x, data⟩ := a
  obtain rfl : space = 0#1 := hspace
  unfold decodeRegAccess at h
  split at h
  · cases h
  · next hx =>
    have hlt : x < 256 := Nat.not_le.1 hx
    split at h
    · next v hdir hdata =>
      obtain rfl : dir = 1#1 := hdir
      obtain rfl : data = some v := hdata
      exact decodeRegWrite_reads hlt h
    · cases h
    · next hdir hdata =>
      obtain rfl : dir = 0#1 := hdir
      obtain rfl : data = none := hdata
      cases h
      exact ⟨rfl, by rw [encode, BitVec.toNat_ofNat, Nat.mod_eq_of_lt hlt, regRead]⟩
    · cases h

theorem decodeBufAccess_reads {a : Access} {i : Instr} (hspace : a.space = 1#1) (h : decodeBufAccess a = .ok i) :
    i.Reads (.access a) := by
  obtain ⟨space, dir, x, data⟩ := a
  obtain rfl : space = 1#1 := hspace
  unfold decodeBufAccess at h
  split at h
  · next v hdir hdata =>
    obtain rfl : dir = 1#1 := hdir
    obtain rfl : data = some v := hdata
    split at h
    · next hv =>
      cases h
      exact ⟨rfl, by rw [encode, byteWrite, BitVec.toNat_ofNat, Nat.mod_eq_of_lt hv]⟩
    · cases h
  · cases h
  · next hdir hdata =>
    obtain rfl : dir = 0#1 := hdir
    obtain rfl : data = none := hdata
    cases h
    exact ⟨rfl, rfl⟩
  · cases h

theorem decode_access_reads {a : Access} {i : Instr} (h : decode (.access a) = .ok i) : i.Reads (.access a) := by
  change decodeAccess a = .ok i at h
  unfold decodeAccess at h
  split at h
  · next hspace => exact decodeBufAccess_reads hspace h
  · next hspace => exact decodeRegAccess_reads hspace h

/-- Settles O2: a packet field is the bytes of what it decodes to, and a Host access its tuple. -/
theorem decodeIsExact : Obligations.DecodeIsExact := by
  intro e i h
  cases e with
  | packet f bytes => exact decode_packet_reads h
  | access a => exact decode_access_reads h

/-! ### The opcode table -/

/-- Settles O4, format by format over the 256 bytes. -/
theorem decodersFollowTable : Obligations.DecodersFollowTable := by
  intro b
  refine ⟨?toc, ?fch, ?padind, ?ctrl, ?flen⟩
  case toc => revert b; decide
  case fch => revert b; decide
  case padind => revert b; decide
  case ctrl => revert b; decide
  case flen => revert b; decide

/-! ### Frame-length fields (R114, R124) -/

/-- The field of a frame length: FLEN1 up to 251, else the FLEN2 pair with 252 + A + 4 * B (R115, R124). -/
def lengthField (n : Nat) : Instr :=
  if n ≤ 251 then .flen1 (BitVec.ofNat 8 n)
  else .flen2 (BitVec.ofNat 2 ((n - 252) % 4)) (BitVec.ofNat 8 ((n - 252) / 4))

/-- The field of a length up to 1275 has that length. -/
theorem lengthField_spec {n : Nat} (hn : n ≤ 1275) : (lengthField n).wf = true ∧ (lengthField n).frameLength = some n := by
  unfold lengthField
  split
  · next hshort =>
    have hval : (BitVec.ofNat 8 n).toNat = n := by rw [BitVec.toNat_ofNat]; omega
    exact ⟨decide_eq_true (by omega), congrArg some hval⟩
  · next hlong =>
    refine ⟨rfl, congrArg some ?_⟩
    simp only [BitVec.toNat_ofNat]
    omega

/-- A frame-length field is the field of its length, within the range of R124, and as long as R157 says. -/
theorem eq_lengthField_of_frameLength {i : Instr} {n : Nat} (hi : i.wf = true) (h : i.frameLength = some n) :
    i = lengthField n ∧ n ≤ 1275 ∧ i.lengthBytes = if n ≤ 251 then 1 else 2 := by
  cases i <;> simp only [Instr.frameLength, Option.some.injEq, reduceCtorEq] at h
  case flen1 l =>
    have hl : l.toNat ≤ 251 := of_decide_eq_true hi
    subst h
    simp only [lengthField, Instr.lengthBytes, if_pos hl, BitVec.ofNat_toNat, BitVec.setWidth_eq, true_and, and_true]
    omega
  case flen2 a b =>
    have ha := a.isLt
    have hb := b.isLt
    have hlong : ¬ n ≤ 251 := by omega
    have hlow : (n - 252) % 4 = a.toNat := by omega
    have hhigh : (n - 252) / 4 = b.toNat := by omega
    simp only [lengthField, Instr.lengthBytes, if_neg hlong, hlow, hhigh, BitVec.ofNat_toNat, BitVec.setWidth_eq, true_and,
      and_true]
    omega

/-- Settles O6: `lengthField` gives a field of each length, and any other field of that length is the same. -/
theorem frameLengthFieldUnique : Obligations.FrameLengthFieldUnique := by
  refine ⟨fun n hn => ⟨lengthField n, lengthField_spec hn, fun j ⟨hj, hlen⟩ => ?_⟩, fun i n hi hlen => ?_⟩
  · obtain ⟨hfield, -⟩ := eq_lengthField_of_frameLength hj hlen
    exact hfield
  · obtain ⟨-, hle, hbytes⟩ := eq_lengthField_of_frameLength hi hlen
    rw [hbytes]
    refine ⟨hle, ?_⟩
    split <;> omega

end Sys2Proof

namespace Sys2Proof.Machine

/-! ### LOADPKT (R129) -/

/-- A run whose first step answers goes on from there. -/
theorem run_succ (M : Host.Core) {s u : M.State} (h : M.step s = .next u) (k : Nat) : M.run (k + 1) s = M.run k u := by
  simp only [Host.Core.run, h]

/-- The step of a WB event in a block that is not BUSY stores the byte and leaves the block IDLE (R261). -/
theorem step_byteWrite {s : State} {a : Nat} {v : Byte} {rest : List Event}
    (hpending : s.pending = .access (byteWrite a v) :: rest) (hbusy : s.status ≠ .busy) (ha : a < s.config.pktCap) :
    ∃ u, step s = .next u ∧ u.inBuf = memWrite s.inBuf a v ∧ u.status = .idle ∧ u.pending = rest ∧
      u.config = s.config ∧ u.hostData = s.hostData := by
  refine ⟨packetChanged { s with inBuf := memWrite s.inBuf a v, pending := rest }, ?_, by simp,
    packetChanged_status _ hbusy, by simp, by simp, by simp⟩
  rw [step_access hpending, hostAccess_of_decode (decode_byteWrite a v)]
  simp [exec, execWb, hbusy, Nat.not_le.2 ha]

/-- The step of a WR IN_LEN event in a block that is not BUSY sets the length and leaves the block IDLE (R263). -/
theorem step_lenWrite {s : State} {n : Nat} {rest : List Event} (hpending : s.pending = .access (pseudoLen n) :: rest)
    (hbusy : s.status ≠ .busy) (hn : n ≤ s.config.pktCap) :
    ∃ u, step s = .next u ∧ u.inBuf = s.inBuf ∧ u.inLen = some n ∧ u.status = .idle ∧ u.pending = rest ∧
      u.config = s.config ∧ u.hostData = s.hostData := by
  refine ⟨packetChanged { s with inLen := some n, pending := rest }, ?_, by simp, by simp,
    packetChanged_status _ hbusy, by simp, by simp, by simp⟩
  have hdecode : decode (.access (pseudoLen n)) = .ok (.wrInLen n) := decodeOfEncode (.wrInLen n) rfl
  rw [step_access hpending, hostAccess_of_decode hdecode]
  simp [exec, execWrInLen, hbusy, Nat.not_lt.2 hn]

/-- BYTES a, then LEN n: the bytes from `a` on and the length are written, the block is IDLE, and the parameters, the
events still to come and the Host's value are untouched. -/
theorem run_bytesThenLen {n : Nat} {rest : List Event} (bytes : List Byte) : ∀ {s : State} {a : Nat}, s.status ≠ .busy →
    a + bytes.length ≤ s.config.pktCap → n ≤ s.config.pktCap →
    s.pending = (pseudoBytes a bytes ++ [pseudoLen n]).map Event.access ++ rest →
    ∃ t, core.run (bytes.length + 1) s = .next t ∧ t.inBuf = memWriteAll s.inBuf a bytes ∧ t.inLen = some n ∧
      t.status = .idle ∧ t.pending = rest ∧ t.config = s.config ∧ t.hostData = s.hostData := by
  induction bytes with
  | nil =>
    intro s a hbusy _ hn hpending
    obtain ⟨u, hstep, hu⟩ := step_lenWrite hpending hbusy hn
    exact ⟨u, run_succ core hstep 0, hu⟩
  | cons v bytes ih =>
    intro s a hbusy hfit hn hpending
    rw [List.length_cons] at hfit
    obtain ⟨u, hstep, hbuf, hidle, hrest, hconfig, hdata⟩ := step_byteWrite hpending hbusy (by omega)
    have hu : u.status ≠ .busy := by rw [hidle]; nofun
    rw [List.length_cons, run_succ core hstep, memWriteAll, ← hbuf, ← hconfig, ← hdata]
    rw [← hconfig] at hfit hn
    exact ih hu (by omega) hn hrest

/-- Settles O60: the accesses write the bytes from address 0 and then the length, and a read gives the byte written. -/
theorem loadPktLoads : Obligations.LoadPktLoads := by
  intro s bytes rest hbusy hfit hpending
  obtain ⟨t, hrun, hbuf, hlen, hstatus, hrest, hconfig, hdata⟩ :=
    run_bytesThenLen bytes hbusy (by omega) hfit hpending
  have hread : ∀ a, memRead t.inBuf a = (bytes[a]?).or (memRead s.inBuf a) := fun a => by
    rw [hbuf, memRead_memWriteAll, if_neg (Nat.not_lt_zero a), Nat.sub_zero]
  refine ⟨t, hrun, hlen, hstatus, fun a ha => ?_, fun a ha => ?_, hrest, hconfig, hdata⟩
  · rw [hread, List.getElem?_eq_getElem ha, Option.some_or]
  · rw [hread, List.getElem?_eq_none ha, Option.none_or]

end Sys2Proof.Machine
end

section
/-! SUPPORT. The frame-length fields at the cursor (40_frame_length.md R150-R152): both forms are one operation, which splits a
code-2 packet and collects the lengths of a VBR packet; and where a layout of lengths fails (43_assembler.md R225). From it,
the statements O18, O19, O20. -/

namespace Sys2Proof.Machine

/-- The cursor passes a frame-length field of `k` bytes, and its length joins those decoded so far (R33, R34, R150). -/
def Work.passLength (w : Work) (l k : Nat) : Work := { w with cur := w.cur + k, lens := w.lens ++ [l] }

/-! ### Taking one length -/

section
variable {s : State} {n : Nat} {w : Work} {i : Instr} {l : Nat}

/-- FLEN1 and FLEN2 are the instructions that give a frame length, and both take it the same way (R151, R152). -/
theorem exec_of_frameLength (hl : i.frameLength = some l) : exec i s = takeLength l i.lengthBytes s := by
  cases i with
  | flen1 b | flen2 a b => cases hl; rfl
  | _ => cases hl

theorem exec_length_code2 (hat : AtField .flen s n w) (hcode : tocCode w.toc = 2#2) (hl : i.frameLength = some l) :
    exec i s = code2Split n (w.passLength l i.lengthBytes) l s := by
  rw [exec_of_frameLength hl, takeLength, inPlace_of hat]
  exact if_pos hcode

theorem exec_length_code3 (hat : AtField .flen s n w) (hcode : tocCode w.toc = 3#2) (hl : i.frameLength = some l) :
    exec i s = vbrNext n (w.passLength l i.lengthBytes) s := by
  have hother : tocCode w.toc ≠ 2#2 := by simp [hcode]
  rw [exec_of_frameLength hl, takeLength, inPlace_of hat]
  exact if_neg hother

/-- The last length field of a VBR packet lays out the frames (R224). -/
theorem exec_lastLength (hat : AtField .flen s n w) (hcode : tocCode w.toc = 3#2) (hl : i.frameLength = some l)
    (hlast : w.lens.length + 2 = (fchCount w.fch).toNat) :
    exec i s = vbrSplit n (w.passLength l i.lengthBytes) s := by
  have hdone : ¬ (w.passLength l i.lengthBytes).lens.length + 1 < (fchCount w.fch).toNat := by
    simp only [Work.passLength, List.length_append, List.length_singleton]
    omega
  rw [exec_length_code3 hat hcode hl]
  exact if_neg hdone

/-! ### The layout of the lengths (R224-R226) -/

theorem vbrSplit_of_ok {fs : List Frame} (h : vbrLayout w.cur (w.dataEnd n - w.cur) w.lens = .ok fs) :
    vbrSplit n w s = finish n w fs s := by
  simp only [vbrSplit, h]

theorem vbrSplit_of_error {left : Nat} (h : vbrLayout w.cur (w.dataEnd n - w.cur) w.lens = .error left) :
    vbrSplit n w s = raise (.packetTooShort left) s := by
  simp only [vbrSplit, h]

end

/-- Lengths that do not fit together fail at the first one above what the lengths before it leave, and the failure
carries what they leave (R225). -/
theorem vbrLayout_firstMisfit (ls : List Nat) : ∀ off rem, rem < ls.sum → ∃ j x, ls[j]? = some x ∧
    (ls.take j).sum ≤ rem ∧ rem - (ls.take j).sum < x ∧
    vbrLayout off rem ls = .error (rem - (ls.take j).sum) := by
  induction ls with
  | nil => intro off rem h; simp at h
  | cons l rest ih =>
    intro off rem h
    by_cases hmisfit : rem < l
    · exact ⟨0, l, rfl, Nat.zero_le rem, hmisfit, by simp [vbrLayout, hmisfit]⟩
    · rw [List.sum_cons] at h
      obtain ⟨j, x, hx, hbefore, hleft, hlayout⟩ := ih (off + l) (rem - l) (by omega)
      have hsum : ((l :: rest).take (j + 1)).sum = l + (rest.take j).sum := by simp
      refine ⟨j + 1, x, hx, by omega, by omega, ?_⟩
      simp only [vbrLayout, hmisfit, if_false, hlayout, hsum, Nat.sub_sub]

/-! ### The statements -/

/-- Settles O18: both sides of the one comparison of `code2Split`, after the field is passed. -/
theorem frameLengthCodeTwo : Obligations.FrameLengthCodeTwo := by
  intro s n w i l hat hcode hflag hl
  rw [exec_length_code2 hat hcode hl]
  refine ⟨fun hshort => ⟨_, if_pos hshort, recordError_endsErr _ s⟩, fun hfits => ⟨_, if_neg hfits.not_gt, ?_⟩⟩
  rw [parsedOf_eq, pad_of_noFlag (w := w.passLength l i.lengthBytes) hflag]
  exact recordOk_endsOk _ s

/-- Settles O19: with this length the count of lengths is still below M - 1, so the parse goes on at a field of the
same format. -/
theorem frameLengthCollected : Obligations.FrameLengthCollected := by
  intro s n w i l hat hcode hl hmore
  have hnext : (w.passLength l i.lengthBytes).lens.length + 1 < (fchCount w.fch).toNat := by
    simpa [Work.passLength] using hmore
  rw [exec_length_code3 hat hcode hl]
  obtain ⟨-, -, -, hfield⟩ := hat
  calc vbrNext n (w.passLength l i.lengthBytes) s
      = goOn { w.passLength l i.lengthBytes with field := .flen } s := if_pos hnext
    _ = goOn (w.passLength l i.lengthBytes) s := by rw [← hfield]; rfl

/-- Settles O20, by the two ends of the layout: `vbrLayout_ok` when the lengths fit together, else
`vbrLayout_firstMisfit`. -/
theorem lastFrameLengthSplits : Obligations.LastFrameLengthSplits := by
  rintro s n w i l hdr region ls hat hcode hl hlast rfl rfl rfl
  rw [exec_lastLength hat hcode hl hlast]
  constructor
  · intro hfits
    obtain ⟨fs, hlayout, hlens, hchain⟩ := vbrLayout_ok _ (w.cur + i.lengthBytes) _ hfits
    exact ⟨_, fs, vbrSplit_of_ok hlayout, hlens, hchain, recordOk_endsOk _ s⟩
  · intro hshort
    obtain ⟨j, x, hx, hbefore, hleft, hlayout⟩ := vbrLayout_firstMisfit _ (w.cur + i.lengthBytes) _ hshort
    exact ⟨_, j, x, vbrSplit_of_error hlayout, hx, hbefore, hleft, recordError_endsErr _ s⟩

end Sys2Proof.Machine
end

section
/-! SUPPORT. The TOC byte and the frame-count header (41_toc_header.md R170-R176): words the spec writes out, TOC3 and the
illegal counts at the cursor, and TOC[7:2] over the whole Parser step: every part of Parse after byte 0 reads from offset 1
on and hands the TOC byte through. From it, the statements O3, O14, O15, O59, O42. -/

namespace Sys2Proof

/-- Settles O3: each word, evaluated by the decoder. -/
theorem specWordsDecode : Obligations.SpecWordsDecode :=
  ⟨decode_toc 0x4B, decode_fch 0xC3, decode_fch 0x3F, decode_flen_long 0xFC 0x00 (by decide),
    decode_flen_short 0xFB (by decide), decode_padind 0xFF, decode_padind 10, decode_byteWrite 0 8, rfl,
    decode_ctrlWrite 1, decode_regRead 0x40⟩

end Sys2Proof

namespace Sys2Proof.Machine

/-! ### TOC3 and FCH_ILLEGAL at the cursor -/

/-- TOC3 checks that the packet has a header byte before the cursor goes there (R175, R218). -/
theorem exec_toc3 {s : State} {n : Nat} {w : Work} (hat : AtField .toc s n w) (c : BitVec 5) (st : Bool) :
    exec (.toc3 c st) s =
      if n < 2 then raise (.packetTooShort 0) s
      else goOn { w.passToc (tocByte c st 3#2) 0#6 with field := .fch } s :=
  inPlace_of hat _

/-- Settles O14: the two sides of TOC3's one check. -/
theorem toc3AwaitsHeader : Obligations.Toc3AwaitsHeader := by
  intro s n w c st hat
  rw [exec_toc3 hat]
  exact ⟨fun hshort => ⟨_, if_pos hshort, recordError_endsErr _ s⟩, fun hlong => ⟨_, if_neg hlong.not_gt⟩⟩

/-- What all five forms of FCH_ILLEGAL do at the header: error entry (R174). -/
theorem illegalCount_endsErr {s : State} {n : Nat} {w : Work} (hat : AtField .fch s n w) :
    ∃ t, illegalCount s = .next t ∧ EndsErr .invalidPacket s t :=
  ⟨_, inPlace_of hat _, recordError_endsErr _ s⟩

/-- Settles O15: every form is `illegalCount`, whatever its flags and its free count bits. -/
theorem illegalCountsFail : Obligations.IllegalCountsFail := by
  intro s n w p v hat
  have hfails := illegalCount_endsErr hat
  exact ⟨hfails, hfails, fun _ => hfails, fun _ => hfails, fun _ => hfails⟩

/-! ### An illegal count over the whole parse -/

/-- Code 3 reads the count before anything that follows the header (R174, R218). -/
theorem specCode3_illegal {mem : Nat → Option Byte} {n : Nat} {f : Byte} (toc : Byte) (hn : 2 ≤ n)
    (hfch : mem 1 = some f) (hcount : (fchCount f).toNat = 0 ∨ 48 < (fchCount f).toNat) :
    specCode3 mem toc n = .error (.raised .invalidPacket) := by
  rw [specCode3, if_neg hn.not_gt, specRead_of_some hfch]
  exact if_pos hcount

theorem specParse_of_code3 {mem : Nat → Option Byte} {n : Nat} {b : Byte} (hn : n ≠ 0) (htoc : mem 0 = some b)
    (hcode : tocCode b = 3#2) : specParse mem n = specCode3 mem b n := by
  simp only [specParse, hn, if_false, specRead_of_some htoc, ok_bind, hcode]

/-- Settles O59: the Parser's turn is Parse, which fails at the header. -/
theorem illegalCountAlwaysFails : Obligations.IllegalCountAlwaysFails := by
  intro s n b f hbusy hlen hn htoc hcode hfch hcount
  have hparse : specParse (memRead s.inBuf) n = .error (.raised .invalidPacket) := by
    rw [specParse_of_code3 (by omega) htoc hcode]
    exact specCode3_illegal b hn hfch (by omega)
  rw [parserTurn_eq_endWith hbusy hlen, hparse]
  exact ⟨_, rfl, recordError_endsErr _ s⟩

/-! ### Parse on two packets with different TOC bytes of one code (R171) -/

/-- The same Parsed Packet under another TOC byte. -/
def Parsed.withToc (toc : Byte) (p : Parsed) : Parsed := { p with toc := toc }

/-! Two buffers that differ at most at offset 0: what follows the TOC byte reads the same. -/

section
variable {mem' mem : Nat → Option Byte} (hsame : ∀ a, 1 ≤ a → mem' a = mem a)
include hsame

theorem specRead_sameFrom1 {a : Nat} (ha : 1 ≤ a) : specRead mem' a = specRead mem a := by
  simp only [specRead, hsame a ha]

theorem specFrameLen_sameFrom1 {pos stop : Nat} (hpos : 1 ≤ pos) :
    specFrameLen mem' pos stop = specFrameLen mem pos stop := by
  simp only [specFrameLen, specRead_sameFrom1 hsame hpos, specRead_sameFrom1 hsame (Nat.le_add_left 1 pos)]

theorem specLengths_sameFrom1 {stop count : Nat} : ∀ {pos : Nat}, 1 ≤ pos →
    specLengths mem' stop count pos = specLengths mem stop count pos := by
  induction count with
  | zero => intro pos _; rfl
  | succ count ih =>
    intro pos hpos
    simp only [specLengths, specFrameLen_sameFrom1 hsame hpos, ih (hpos.trans (Nat.le_add_right pos _))]

theorem specPadLoop_sameFrom1 {avail left : Nat} : ∀ {k p : Nat},
    specPadLoop mem' avail left k p = specPadLoop mem avail left k p := by
  induction left with
  | zero => intro k p; rfl
  | succ left ih =>
    intro k p
    have hpos : 1 ≤ 2 + k := by omega
    simp only [specPadLoop, specRead_sameFrom1 hsame hpos, ih]

theorem specPadExtract_sameFrom1 (n : Nat) : specPadExtract mem' n = specPadExtract mem n := by
  simp only [specPadExtract, specPadLoop_sameFrom1 hsame]

/-! Each part of Parse hands the TOC byte through and reads no bit of it. -/

theorem specRegion_withToc (toc' toc fch : Byte) {pos : Nat} (hpos : 1 ≤ pos) (stop : Nat) (pad : Option Pad) :
    specRegion mem' toc' fch pos stop pad = Parsed.withToc toc' <$> specRegion mem toc fch pos stop pad := by
  simp only [specRegion, specVbr, specLengths_sameFrom1 hsame hpos]
  split
  · rw [map_bind]; rfl
  · rw [map_bind]; rfl

theorem specCode2_withToc (toc' toc : Byte) (n : Nat) :
    specCode2 mem' toc' n = Parsed.withToc toc' <$> specCode2 mem toc n := by
  simp only [specCode2, specFrameLen_sameFrom1 hsame le_rfl, map_bind]
  congr 1
  funext r
  split <;> rfl

theorem specCode3_withToc (toc' toc : Byte) (n : Nat) :
    specCode3 mem' toc' n = Parsed.withToc toc' <$> specCode3 mem toc n := by
  have hregion (fch : Byte) (k stop : Nat) (pad : Option Pad) :=
    specRegion_withToc hsame toc' toc fch (Nat.le_add_right_of_le (k := k) one_le_two) stop pad
  unfold specCode3
  split
  · rfl
  rw [map_bind, specRead_sameFrom1 hsame le_rfl, specPadExtract_sameFrom1 hsame]
  congr 1
  funext fch
  dsimp only
  split
  · rfl
  split
  · rw [map_bind]
    congr 1
    funext r
    exact hregion fch r.1 _ _
  · exact hregion fch 0 n none

end

theorem specCode1_withToc (toc' toc : Byte) (n : Nat) :
    specCode1 toc' n = Parsed.withToc toc' <$> specCode1 toc n := by
  simp only [specCode1]
  split
  · rfl
  · split <;> rfl

/-- Parse on a packet with another TOC byte of the same code differs in the TOC byte alone (R171). -/
theorem specParse_withToc {mem' mem : Nat → Option Byte} (hsame : ∀ a, 1 ≤ a → mem' a = mem a) {b' b : Byte}
    (htoc' : mem' 0 = some b') (htoc : mem 0 = some b) (hcode : tocCode b' = tocCode b) (n : Nat) :
    specParse mem' n = Parsed.withToc b' <$> specParse mem n := by
  unfold specParse
  split
  · rfl
  rw [specRead_of_some htoc', specRead_of_some htoc, ok_bind, ok_bind, hcode]
  split
  · rfl
  · exact specCode1_withToc b' b n
  · exact specCode2_withToc hsame b' b n
  · exact specCode3_withToc hsame b' b n

/-- The end of a parse with another TOC byte, from the end with the old one: OK or ERR, only TOC differs. -/
theorem endWith_withToc {s t : State} {x : Except ParseStop Parsed} (h : endWith s x = .next t) (m : Memory) (b' : Byte) :
    endWith { s with inBuf := m } (Parsed.withToc b' <$> x) =
      .next { t with inBuf := m, toc := t.toc.map fun _ => b' } := by
  cases x with
  | ok p => cases h; rfl
  | error e =>
    cases e with
    | raised e => cases h; rfl
    | unwritten a => cases h

/-- Settles O42: the Parser's turn is Parse, which hands the TOC byte through. -/
theorem configurationPassedThrough : Obligations.ConfigurationPassedThrough := by
  intro s t b b' hbusy htoc hcode hturn
  obtain ⟨n, hlen⟩ : ∃ n, s.inLen = some n := by
    rcases parserTurn_next hturn with ⟨hidle, -⟩ | ⟨-, hlen, -⟩
    · exact absurd hbusy hidle
    · exact Option.ne_none_iff_exists'.1 hlen
  have hsame : ∀ a, 1 ≤ a → memRead (memWrite s.inBuf 0 b') a = memRead s.inBuf a := fun a ha =>
    memRead_memWrite_other s.inBuf b' (by omega)
  rw [parserTurn_eq_endWith hbusy hlen] at hturn
  rw [parserTurn_eq_endWith (s := { s with inBuf := memWrite s.inBuf 0 b' }) hbusy hlen,
    specParse_withToc hsame (memRead_memWrite_same _ _ _) htoc hcode]
  exact endWith_withToc hturn _ b'

end Sys2Proof.Machine
end

section
/-! SUPPORT. The Padding Extractor (42_padding.md R190-R195): the two indicator forms at the cursor, the ways the split of the
frame-data region can begin (43_assembler.md R221-R227), and a chain of indicator bytes over the whole Parser step. From it,
the statements O21, O22, O58. -/

namespace Sys2Proof.Machine

section
variable {s : State} {n : Nat} {w : Work}

/-! ### The split of the region, branch by branch -/

/-- The CBR rule fails when the count does not divide the region (R222, R223). -/
theorem splitRegion_indivisible (hcbr : fchVbrFlag w.fch = false)
    (hmod : (w.dataEnd n - w.cur) % (fchCount w.fch).toNat ≠ 0) : splitRegion n w s = raise .invalidPacket s := by
  rw [splitRegion, hcbr]
  exact if_pos hmod

theorem splitRegion_equalFrames (hcbr : fchVbrFlag w.fch = false)
    (hmod : (w.dataEnd n - w.cur) % (fchCount w.fch).toNat = 0) :
    splitRegion n w s = finish n w
      (cbrFrames (fchCount w.fch).toNat w.cur ((w.dataEnd n - w.cur) / (fchCount w.fch).toNat)) s := by
  rw [splitRegion, hcbr]
  exact if_neg (not_not.2 hmod)

/-- One VBR frame has no length field and takes the whole region (R227). -/
theorem splitRegion_oneFrame (hvbr : fchVbrFlag w.fch = true) (hlens : w.lens = []) (hcount : (fchCount w.fch).toNat = 1) :
    splitRegion n w s = finish n w [{ off := w.cur, len := w.dataEnd n - w.cur }] s := by
  have hdone : ¬ w.lens.length + 1 < (fchCount w.fch).toNat := by simp [hlens, hcount]
  rw [splitRegion, if_pos hvbr, vbrNext, if_neg hdone]
  exact vbrSplit_of_ok (by rw [hlens, vbrLayout])

theorem splitRegion_awaitsLength (hvbr : fchVbrFlag w.fch = true) (hlens : w.lens = [])
    (hcount : 1 < (fchCount w.fch).toNat) : splitRegion n w s = goOn { w with field := .flen } s := by
  have hmore : w.lens.length + 1 < (fchCount w.fch).toNat := by simpa [hlens] using hcount
  rw [splitRegion, if_pos hvbr, vbrNext, if_pos hmore]

/-! ### PAD_CONT and PAD_TERM at the cursor -/

theorem exec_padCont (hat : AtField .padind s n w) : exec .padCont s = goOn (w.addPadding 254) s := inPlace_of hat _

/-- PAD_TERM fails when the chain and its padding do not fit after the two header bytes (R192, R194). -/
theorem exec_padTerm_tooLong (hat : AtField .padind s n w) {x : Byte}
    (hlong : n - 2 < w.padBytes + 1 + (w.padSum + x.toNat)) :
    exec (.padTerm x) s = raise (.packetTooShort (n - 2)) s :=
  (inPlace_of hat _).trans (if_pos hlong)

/-- PAD_TERM splits the region when they do (R195). -/
theorem exec_padTerm_fits (hat : AtField .padind s n w) {x : Byte}
    (hfits : w.padBytes + 1 + (w.padSum + x.toNat) ≤ n - 2) :
    exec (.padTerm x) s = splitRegion n (w.addPadding x.toNat) s :=
  (inPlace_of hat _).trans (if_neg hfits.not_gt)

/-- A parse that ends under the padding flag fills the padding registers (R195). -/
theorem finish_endsOk_padded (hpad : fchPadFlag w.fch = true) (frames : List Frame) :
    ∃ t, finish n w frames s = .next t ∧
      EndsOk { toc := w.toc, fch := w.fch, hdr := w.cur, frames := frames
               pad := some { off := n - w.padSum, len := w.padSum, ind := w.padBytes } } s t := by
  refine ⟨_, rfl, ?_⟩
  rw [parsedOf_eq, pad_of_flag hpad]
  exact recordOk_endsOk _ s

end

/-- Settles O21: the chain's next byte is a field of the same format. -/
theorem padContAddsTwoHundredFiftyFour : Obligations.PadContAddsTwoHundredFiftyFour :=
  fun _ _ _ hat => exec_padCont hat

/-- Settles O22: the check of the chain fails, or the region is split in one of its four ways. -/
theorem padTermEndsChain : Obligations.PadTermEndsChain := by
  rintro s n w x k p pos m d hat hlens hpad rfl rfl rfl rfl hm rfl
  refine ⟨fun hlong => ⟨_, exec_padTerm_tooLong hat hlong, recordError_endsErr _ s⟩, fun hfits hcbr hmod => ?_,
    fun hfits hcbr hmod => ?_, fun hfits hvbr hone => ?_, fun hfits hvbr hmany => ?_⟩
  all_goals rw [exec_padTerm_fits hat hfits]
  · exact ⟨_, splitRegion_indivisible hcbr hmod, recordError_endsErr _ s⟩
  · rw [splitRegion_equalFrames (w := w.addPadding x.toNat) hcbr hmod]
    exact finish_endsOk_padded (w := w.addPadding x.toNat) hpad _
  · rw [splitRegion_oneFrame (w := w.addPadding x.toNat) hvbr hlens hone]
    exact finish_endsOk_padded (w := w.addPadding x.toNat) hpad _
  · exact splitRegion_awaitsLength hvbr hlens (lt_of_le_of_ne hm hmany.symm)

/-! ### A chain of indicator bytes in PadExtract (R190) -/

section
variable {mem : Nat → Option Byte} {n j : Nat}

/-- The loop passes `j` bytes 255 and sums 254 for each (R191). -/
theorem specPadLoop_continuations {avail : Nat} (hfit : j ≤ avail)
    (hcont : ∀ a, 2 ≤ a → a < 2 + j → mem a = some 0xFF#8) :
    ∀ left, specPadLoop mem avail (left + j) 0 0 = specPadLoop mem avail left j (254 * j) := by
  induction j with
  | zero => exact fun _ => rfl
  | succ j ih =>
    intro left
    have hbyte : mem (2 + j) = some 0xFF#8 := hcont _ (Nat.le_add_right 2 j) (Nat.lt_succ_self _)
    have hin : ¬ avail ≤ j := by omega
    calc specPadLoop mem avail (left + (j + 1)) 0 0
        = specPadLoop mem avail (left + 1 + j) 0 0 := by rw [Nat.add_right_comm, Nat.add_assoc]
      _ = specPadLoop mem avail (left + 1) j (254 * j) :=
        ih (by omega) (fun a h2 ha => hcont a h2 (by omega)) (left + 1)
      _ = specPadLoop mem avail left (j + 1) (254 * (j + 1)) := by
        rw [specPadLoop, if_neg hin, specRead_of_some hbyte]
        rfl

/-- A chain that runs to the packet's end has no terminal byte (R193). -/
theorem specPadExtract_unterminated (hn : 2 ≤ n) (hcont : ∀ a, 2 ≤ a → a < n → mem a = some 0xFF#8) :
    specPadExtract mem n = .error (.raised (.packetTooShort (n - 2))) := by
  have hloop : specPadLoop mem (n - 2) (n - 2 + 1) 0 0 = .error (.raised (.packetTooShort (n - 2))) := by
    rw [Nat.add_comm, specPadLoop_continuations le_rfl (fun a h2 ha => hcont a h2 (by omega)), specPadLoop]
    exact if_pos le_rfl
  simp only [specPadExtract, hloop, error_bind]

/-- A chain of `j` bytes 255 and a terminal byte: only whether it fits with its padding is left to check (R192, R194). -/
theorem specPadExtract_terminated {x : Byte} (hj : 2 + j < n) (hcont : ∀ a, 2 ≤ a → a < 2 + j → mem a = some 0xFF#8)
    (hx : mem (2 + j) = some x) (hne : x ≠ 0xFF#8) :
    specPadExtract mem n =
      if n - 2 < j + 1 + (254 * j + x.toNat) then .error (.raised (.packetTooShort (n - 2)))
      else .ok (j + 1, 254 * j + x.toNat) := by
  have hin : ¬ n - 2 ≤ j := by omega
  have hterm : ¬ x.toNat = 255 := fun h => hne (BitVec.eq_of_toNat_eq h)
  have hturns : n - 2 + 1 = n - 2 - j + 1 + j := by omega
  have hloop : specPadLoop mem (n - 2) (n - 2 + 1) 0 0 = .ok (j + 1, 254 * j + x.toNat) := by
    rw [hturns, specPadLoop_continuations (by omega) hcont, specPadLoop, if_neg hin, specRead_of_some hx]
    exact if_neg hterm
  simp only [specPadExtract, hloop, ok_bind]

/-! ### A padded packet over the whole parse -/

/-- Parse on a code-3 packet with a legal count and the padding flag: PadExtract, then the region (R218, R219). -/
theorem specParse_padded {b f : Byte} (hn : 2 ≤ n) (htoc : mem 0 = some b) (hcode : tocCode b = 3#2)
    (hfch : mem 1 = some f) (hlegal : legalCount (fchCount f) = true) (hpad : fchPadFlag f = true) :
    specParse mem n = specPadExtract mem n >>= fun r =>
      specRegion mem b f (2 + r.1) (n - r.2) (some { off := n - r.2, len := r.2, ind := r.1 }) := by
  have hcount : ¬ ((fchCount f).toNat = 0 ∨ 48 < (fchCount f).toNat) := by
    have := (legalCount_iff _).1 hlegal
    omega
  rw [specParse_of_code3 (by omega) htoc hcode, specCode3, if_neg hn.not_gt, specRead_of_some hfch, ok_bind]
  simp only [hcount, if_false, hpad, if_true]

theorem specRegion_pad (toc fch : Byte) (pos stop : Nat) (pad : Option Pad) :
    Gives (fun p => p.pad = pad) (specRegion mem toc fch pos stop pad) := by
  simp only [specRegion]
  split
  · exact gives_bind fun _ => gives_ok rfl
  · exact gives_bind fun _ => gives_ok rfl

end

/-- A parse that ends in OK gave a result, and the registers hold it (R230, R231). -/
theorem exists_result_of_ok {s t : State} {x : Except ParseStop Parsed} (ht : endWith s x = .next t)
    (hok : t.status = .ok) : ∃ p, x = .ok p ∧ HoldsResult p t := by
  cases x with
  | ok p =>
    cases ht
    obtain ⟨-, -, hholds, -⟩ := recordOk_endsOk p s
    exact ⟨p, rfl, hholds⟩
  | error e =>
    cases e with
    | raised e => cases ht; cases hok
    | unwritten a => cases ht

/-- Settles O58: the Parser's turn is Parse, where PadExtract fails, or gives the padding range that the region hands to the
result. -/
theorem paddingChains : Obligations.PaddingChains := by
  intro s n b f hbusy hlen hn htoc hcode hfch hlegal hpad
  rw [parserTurn_eq_endWith hbusy hlen, specParse_padded hn htoc hcode hfch hlegal hpad]
  refine ⟨fun hcont => ?_, fun j x hj hcont hx hne => ?_⟩
  · rw [specPadExtract_unterminated hn hcont]
    exact ⟨_, rfl, recordError_endsErr _ s⟩
  rw [specPadExtract_terminated hj hcont hx hne]
  refine ⟨fun hlong => ?_, fun hfits t hturn hok => ?_⟩
  · rw [if_pos hlong]
    exact ⟨_, rfl, recordError_endsErr _ s⟩
  · rw [if_neg hfits.not_gt] at hturn
    obtain ⟨p, hregion, -, -, -, -, -, -, hpadOff, hpadLen, hpadInd, -⟩ := exists_result_of_ok hturn hok
    have hrange := specRegion_pad b f _ _ _ p hregion
    rw [hrange] at hpadOff hpadLen hpadInd
    exact ⟨hpadInd, hpadLen, hpadOff⟩

end Sys2Proof.Machine
end

section
/-! SUPPORT. The end of a Parser step (43_assembler.md R210, R230, R231, R239): Parse meets an unwritten byte inside the packet
only, and a second PARSE ends as the first one did (R238, R267). From it, the statements O10, O39, O43. -/

namespace Sys2Proof.Machine

/-! ### The unwritten byte Parse stops at (R84, R197) -/

/-- Where a part of Parse on an `n`-byte packet stops at an unwritten byte, that byte lies in the packet and holds NOVALUE. -/
def UnwrittenInside (mem : Nat → Option Byte) (n : Nat) {α : Type} (x : Except ParseStop α) : Prop :=
  ∀ a, x = .error (.unwritten a) → a < n ∧ mem a = none

section
variable {mem : Nat → Option Byte} {n : Nat} {α β : Type}

theorem unwrittenInside_ok (a : α) : UnwrittenInside mem n (.ok a) := nofun

theorem unwrittenInside_raised (e : ParseError) : UnwrittenInside mem n (α := α) (.error (.raised e)) := nofun

theorem UnwrittenInside.bind {x : Except ParseStop α} {f : α → Except ParseStop β} (hx : UnwrittenInside mem n x)
    (hf : ∀ a, UnwrittenInside mem n (f a)) : UnwrittenInside mem n (x >>= f) := by
  cases x with
  | ok a => exact hf a
  | error e =>
    rintro a ⟨⟩
    exact hx a rfl

theorem specRead_unwrittenInside {a : Nat} (ha : a < n) : UnwrittenInside mem n (specRead mem a) := by
  unfold specRead
  split
  · exact unwrittenInside_ok _
  · next hnone =>
    rintro _ ⟨⟩
    exact ⟨ha, hnone⟩

theorem specFrameLen_unwrittenInside {pos stop : Nat} (hstop : stop ≤ n) :
    UnwrittenInside mem n (specFrameLen mem pos stop) := by
  unfold specFrameLen
  split
  · exact unwrittenInside_raised _
  · refine (specRead_unwrittenInside (by omega)).bind fun b0 => ?_
    split
    · exact unwrittenInside_ok _
    · split
      · exact unwrittenInside_raised _
      · exact (specRead_unwrittenInside (by omega)).bind fun _ => unwrittenInside_ok _

theorem specLengths_unwrittenInside {stop : Nat} (hstop : stop ≤ n) (count : Nat) : ∀ pos : Nat,
    UnwrittenInside mem n (specLengths mem stop count pos) := by
  induction count with
  | zero => exact fun _ => unwrittenInside_ok _
  | succ count ih =>
    exact fun pos => (specFrameLen_unwrittenInside hstop).bind fun _ => (ih _).bind fun _ => unwrittenInside_ok _

/-- Laying out the lengths reads no byte. -/
theorem specPlace_unwrittenInside (ls : List Nat) : ∀ off rem : Nat,
    UnwrittenInside mem n (specPlace off rem ls) := by
  induction ls with
  | nil => exact fun _ _ => unwrittenInside_ok _
  | cons l ls ih =>
    intro off rem
    unfold specPlace
    split
    · exact unwrittenInside_raised _
    · exact (ih _ _).bind fun _ => unwrittenInside_ok _

theorem specRegion_unwrittenInside {toc fch : Byte} {pos stop : Nat} {pad : Option Pad} (hstop : stop ≤ n) :
    UnwrittenInside mem n (specRegion mem toc fch pos stop pad) := by
  simp only [specRegion, specVbr, specCbr]
  split
  · exact ((specLengths_unwrittenInside hstop _ _).bind fun _ =>
      (specPlace_unwrittenInside _ _ _).bind fun _ => unwrittenInside_ok _).bind fun _ => unwrittenInside_ok _
  · split
    · exact unwrittenInside_raised _
    · exact unwrittenInside_ok _

theorem specPadLoop_unwrittenInside (left : Nat) : ∀ k p : Nat,
    UnwrittenInside mem n (specPadLoop mem (n - 2) left k p) := by
  induction left with
  | zero => exact fun _ _ => unwrittenInside_raised _
  | succ left ih =>
    intro k p
    unfold specPadLoop
    split
    · exact unwrittenInside_raised _
    · refine (specRead_unwrittenInside (by omega)).bind fun x => ?_
      split
      · exact ih _ _
      · exact unwrittenInside_ok _

theorem specPadExtract_unwrittenInside : UnwrittenInside mem n (specPadExtract mem n) := by
  refine (specPadLoop_unwrittenInside _ _ _).bind fun r => ?_
  dsimp only
  split
  · exact unwrittenInside_raised _
  · exact unwrittenInside_ok _

theorem specCode1_unwrittenInside (toc : Byte) : UnwrittenInside mem n (specCode1 toc n) := by
  simp only [specCode1]
  split
  · exact unwrittenInside_raised _
  · split
    · exact unwrittenInside_raised _
    · exact unwrittenInside_ok _

theorem specCode2_unwrittenInside (toc : Byte) : UnwrittenInside mem n (specCode2 mem toc n) := by
  refine (specFrameLen_unwrittenInside le_rfl).bind fun r => ?_
  dsimp only
  split
  · exact unwrittenInside_raised _
  · exact unwrittenInside_ok _

theorem specCode3_unwrittenInside (toc : Byte) : UnwrittenInside mem n (specCode3 mem toc n) := by
  unfold specCode3
  split
  · exact unwrittenInside_raised _
  · refine (specRead_unwrittenInside (by omega)).bind fun fch => ?_
    dsimp only
    split
    · exact unwrittenInside_raised _
    · split
      · exact specPadExtract_unwrittenInside.bind fun _ => specRegion_unwrittenInside (Nat.sub_le _ _)
      · exact specRegion_unwrittenInside le_rfl

theorem specParse_unwrittenInside : UnwrittenInside mem n (specParse mem n) := by
  unfold specParse
  split
  · exact unwrittenInside_raised _
  · refine (specRead_unwrittenInside (by omega)).bind fun toc => ?_
    split
    · exact unwrittenInside_ok _
    · exact specCode1_unwrittenInside toc
    · exact specCode2_unwrittenInside toc
    · exact specCode3_unwrittenInside toc

end

/-! ### A second PARSE (R238, R267) -/

/-- PARSE is accepted outside BUSY once a length was written (R267). -/
theorem exec_cmdParse {s : State} (hidle : s.status ≠ .busy) (hlen : s.inLen ≠ none) :
    exec .cmdParse s = .next { clearResults s with status := .busy } := by
  obtain ⟨n, hn⟩ := Option.ne_none_iff_exists'.1 hlen
  simp only [exec, execCmdParse, hidle, if_false, hn]

/-- A BUSY block whose Parser step ends holds a length (R267). -/
theorem exists_inLen_of_parserTurn {s t : State} (hbusy : s.status = .busy) (hturn : parserTurn s = .next t) :
    ∃ n, s.inLen = some n := by
  rcases parserTurn_next hturn with ⟨hidle, -⟩ | ⟨-, hlen, -⟩
  · exact absurd hbusy hidle
  · exact Option.ne_none_iff_exists'.1 hlen

/-- The end of a parse is not BUSY, and keeps IN_LEN and IN_BUF. -/
theorem endWith_frame {s t : State} {x : Except ParseStop Parsed} (h : endWith s x = .next t) :
    (t.status = .ok ∨ t.status = .err) ∧ t.inLen = s.inLen ∧ t.inBuf = s.inBuf := by
  cases x with
  | ok p => cases h; exact ⟨.inl rfl, rfl, rfl⟩
  | error e =>
    cases e with
    | raised e => cases h; exact ⟨.inr rfl, rfl, rfl⟩
    | unwritten a => cases h

/-- The result writes cover every register that a PARSE clears, so the same end is reached again (R230, R231, R238). -/
theorem endWith_again {s t : State} {x : Except ParseStop Parsed} (h : endWith s x = .next t) :
    endWith { clearResults t with status := .busy } x = .next t := by
  cases x with
  | ok p => cases h; rfl
  | error e =>
    cases e with
    | raised e => cases h; rfl
    | unwritten a => cases h

/-! ### The statements -/

/-- Settles O10: the Parser's turn ends as `endWith` says of Parse. -/
theorem parserStepIsParse : Obligations.ParserStepIsParse := by
  refine ⟨fun _ => parserTurn_of_not_busy, fun s n hbusy hlen => ?_⟩
  rw [parserTurn_eq_endWith hbusy hlen]
  cases specParse (memRead s.inBuf) n with
  | ok p => exact ⟨_, rfl, recordOk_endsOk p s⟩
  | error e =>
    cases e with
    | raised e => exact ⟨_, rfl, recordError_endsErr e s⟩
    | unwritten a => rfl

/-- Settles O39: Parse gives a result, raises an error, or stops at an unwritten byte inside the packet. -/
theorem parserStepEnds : Obligations.ParserStepEnds := by
  intro s n hbusy hlen
  have hends : (∃ t, parserTurn s = .next t ∧ t.work = none ∧ (t.status = .ok ∨ t.status = .err)) ∨
      ∃ a, a < n ∧ memRead s.inBuf a = none ∧ parserTurn s = .fault (.unwrittenByte a) := by
    rw [parserTurn_eq_endWith hbusy hlen]
    cases hparse : specParse (memRead s.inBuf) n with
    | ok p => exact .inl ⟨_, rfl, rfl, .inl rfl⟩
    | error e =>
      cases e with
      | raised e => exact .inl ⟨_, rfl, rfl, .inr rfl⟩
      | unwritten a =>
        obtain ⟨ha, hnone⟩ := specParse_unwrittenInside a hparse
        exact .inr ⟨a, ha, hnone, rfl⟩
  refine ⟨hends, fun hwritten => ?_⟩
  rcases hends with ⟨t, hturn, -, hstatus⟩ | ⟨a, ha, hnone, -⟩
  · exact ⟨t, hturn, hstatus⟩
  · exact absurd hnone (hwritten a ha)

/-- Settles O43: the second parse runs on the same buffer and length, and its end overwrites what the first one wrote. -/
theorem parseIsIdempotent : Obligations.ParseIsIdempotent := by
  intro s t hbusy hturn
  obtain ⟨n, hlen⟩ := exists_inLen_of_parserTurn hbusy hturn
  rw [parserTurn_eq_endWith hbusy hlen] at hturn
  obtain ⟨hstatus, hlen', hbuf⟩ := endWith_frame hturn
  rw [hlen] at hlen'
  have hdone : t.status ≠ .busy := by rcases hstatus with h | h <;> simp [h]
  refine ⟨_, exec_cmdParse hdone (by simp [hlen']), ?_⟩
  rw [parserTurn_eq_endWith (s := { clearResults t with status := .busy }) rfl hlen']
  rw [← hbuf] at hturn
  exact endWith_again hturn

end Sys2Proof.Machine
end

section
/-! SUPPORT. The TOC byte and a legal frame-count header at the cursor (43_assembler.md R212-R216, R219-R227): TOC0, TOC1 and
TOC2 pass the TOC byte, FCH_CBR and FCH_VBR pass the header and turn to the padding chain or to the region. From it, the
statements O11, O12, O13, O16, O17. -/

namespace Sys2Proof.Machine

section
variable {s : State} {n : Nat} {w : Work}

/-- A parse that ends without the padding flag leaves the padding registers empty (R198). -/
theorem finish_endsOk_unpadded (hpad : fchPadFlag w.fch = false) (frames : List Frame) :
    ∃ t, finish n w frames s = .next t ∧
      EndsOk { toc := w.toc, fch := w.fch, hdr := w.cur, frames := frames, pad := none } s t := by
  refine ⟨_, rfl, ?_⟩
  rw [parsedOf_eq, pad_of_noFlag hpad]
  exact recordOk_endsOk _ s

/-! ### The TOC byte at the cursor -/

/-- The FCH value of codes 0 to 2 has no padding flag (R43). -/
theorem fchPadFlag_passToc (toc : Byte) (count : BitVec 6) : fchPadFlag (w.passToc toc count).fch = false :=
  fchPadFlag_fchByte false false count

theorem exec_toc0 (hat : AtField .toc s n w) (c : BitVec 5) (st : Bool) :
    exec (.toc0 c st) s = finish n (w.passToc (tocByte c st 0#2) 1#6) [{ off := 1, len := n - 1 }] s :=
  inPlace_of hat _

/-- TOC1 checks the length before the parity (R213-R215). -/
theorem exec_toc1 (hat : AtField .toc s n w) (c : BitVec 5) (st : Bool) :
    exec (.toc1 c st) s =
      if n - 1 < 2 then raise (.packetTooShort (n - 1)) s
      else if (n - 1) % 2 = 1 then raise .invalidPacket s
      else finish n (w.passToc (tocByte c st 1#2) 2#6)
        [{ off := 1, len := (n - 1) / 2 }, { off := 1 + (n - 1) / 2, len := (n - 1) / 2 }] s :=
  inPlace_of hat _

theorem exec_toc2 (hat : AtField .toc s n w) (c : BitVec 5) (st : Bool) :
    exec (.toc2 c st) s = goOn { w.passToc (tocByte c st 2#2) 2#6 with field := .flen } s :=
  inPlace_of hat _

/-! ### A legal frame-count header at the cursor -/

theorem exec_fchCbr (hat : AtField .fch s n w) (padf : Bool) (m : BitVec 6) :
    exec (.fchCbr padf m) s = afterHeader n (w.passHeader (fchByte padf false m)) s :=
  inPlace_of hat _

theorem exec_fchVbr (hat : AtField .fch s n w) (padf : Bool) (m : BitVec 6) :
    exec (.fchVbr padf m) s = afterHeader n (w.passHeader (fchByte padf true m)) s :=
  inPlace_of hat _

/-- Under the padding flag the padding chain comes first (R219). -/
theorem afterHeader_padded (hpad : fchPadFlag w.fch = true) :
    afterHeader n w s = goOn { w with field := .padind } s :=
  if_pos hpad

theorem afterHeader_unpadded (hpad : fchPadFlag w.fch = false) : afterHeader n w s = splitRegion n w s :=
  if_neg (Bool.eq_false_iff.1 hpad)

/-- Without padding the region runs from the header to the packet's end (R218, R220). -/
theorem regionSize_passHeader (hsum : w.padSum = 0) (fch : Byte) :
    (w.passHeader fch).dataEnd n - (w.passHeader fch).cur = n - 2 := by
  simp [Work.dataEnd, Work.passHeader, hsum]

end

/-! ### The statements -/

/-- Settles O11: TOC0 always ends the parse. -/
theorem toc0OneFrame : Obligations.Toc0OneFrame := by
  intro s n w c st hat _
  rw [exec_toc0 hat]
  exact finish_endsOk_unpadded (fchPadFlag_passToc _ _) _

/-- Settles O12: the three ends of TOC1's two checks. -/
theorem toc1TwoEqualFrames : Obligations.Toc1TwoEqualFrames := by
  intro s n w c st hat _
  rw [exec_toc1 hat]
  refine ⟨fun hshort => ?_, fun hlong hodd => ?_, fun hlong heven => ?_⟩
  · rw [if_pos hshort]
    exact ⟨_, rfl, recordError_endsErr _ s⟩
  · rw [if_neg hlong.not_gt, if_pos hodd]
    exact ⟨_, rfl, recordError_endsErr _ s⟩
  · rw [if_neg hlong.not_gt, if_neg (by omega)]
    exact finish_endsOk_unpadded (fchPadFlag_passToc _ _) _

/-- Settles O13: TOC2 goes on at a frame-length field. -/
theorem toc2AwaitsLength : Obligations.Toc2AwaitsLength :=
  fun _ _ _ c st hat => exec_toc2 hat c st

/-- Settles O16: the padding chain, or the CBR rule on the `n - 2` bytes after the header. -/
theorem fchCbrEqualFrames : Obligations.FchCbrEqualFrames := by
  intro s n w m hat hsum _
  have hsize := regionSize_passHeader (n := n) hsum (fchByte false false m)
  have hpad : fchPadFlag (w.passHeader (fchByte false false m)).fch = false := fchPadFlag_fchByte _ _ _
  have hcbr : fchVbrFlag (w.passHeader (fchByte false false m)).fch = false := fchVbrFlag_fchByte _ _ _
  have hcount : fchCount (w.passHeader (fchByte false false m)).fch = m := fchCount_fchByte _ _ _
  refine ⟨?_, fun hmod => ?_, fun hmod => ?_⟩
  · rw [exec_fchCbr hat]
    exact afterHeader_padded (fchPadFlag_fchByte _ _ _)
  · rw [exec_fchCbr hat, afterHeader_unpadded hpad, splitRegion_indivisible hcbr (by rwa [hsize, hcount])]
    exact ⟨_, rfl, recordError_endsErr _ s⟩
  · rw [exec_fchCbr hat, afterHeader_unpadded hpad, splitRegion_equalFrames hcbr (by rwa [hsize, hcount]), hsize, hcount]
    exact finish_endsOk_unpadded hpad _

/-- Settles O17: the padding chain, the one frame of the whole region, or a length field. -/
theorem fchVbrNextField : Obligations.FchVbrNextField := by
  intro s n w m hat hsum hlens hlegal
  have hsize := regionSize_passHeader (n := n) hsum (fchByte false true m)
  have hpad : fchPadFlag (w.passHeader (fchByte false true m)).fch = false := fchPadFlag_fchByte _ _ _
  have hvbr : fchVbrFlag (w.passHeader (fchByte false true m)).fch = true := fchVbrFlag_fchByte _ _ _
  have hcount : fchCount (w.passHeader (fchByte false true m)).fch = m := fchCount_fchByte _ _ _
  refine ⟨?_, fun hone => ?_, fun hmany => ?_⟩
  · rw [exec_fchVbr hat]
    exact afterHeader_padded (fchPadFlag_fchByte _ _ _)
  · rw [exec_fchVbr hat, afterHeader_unpadded hpad, splitRegion_oneFrame hvbr hlens (by rw [hcount, hone]; rfl), hsize]
    exact finish_endsOk_unpadded hpad _
  · have hmore : 1 < m.toNat := by
      obtain ⟨hpos, -⟩ := (legalCount_iff m).1 hlegal
      have hne : m.toNat ≠ 1 := fun h => hmany (BitVec.eq_of_toNat_eq h)
      omega
    rw [exec_fchVbr hat, afterHeader_unpadded hpad]
    exact splitRegion_awaitsLength hvbr hlens (by rwa [hcount])

end Sys2Proof.Machine
end

section
/-! SUPPORT. The laws of a successful parse (43_assembler.md R229-R236): the sum and the members of a chain of frames, what the
frame-count code adds to a result of Parse (10_state.md R44), and both read off the registers. From it, the statements O50,
O51, O52, O53, O54. -/

namespace Sys2Proof.Machine

/-! ### Back-to-back frames (R229) -/

/-- A chain ends as far on as its frames are long. -/
theorem chained_sum {fs : List Frame} {a b : Nat} (h : chained a fs b) : a + (fs.map Frame.len).sum = b := by
  induction fs generalizing a with
  | nil => exact h
  | cons f rest ih =>
    obtain ⟨-, hrest⟩ := h
    have := ih hrest
    rw [List.map_cons, List.sum_cons]
    omega

/-- Past one of its frames a chain goes on where that frame ends. -/
theorem chained_drop {fs : List Frame} {a b : Nat} (h : chained a fs b) {i : Nat} {f : Frame} (hf : fs[i]? = some f) :
    chained (f.off + f.len) (fs.drop (i + 1)) b := by
  induction fs generalizing a i with
  | nil => cases hf
  | cons g rest ih =>
    obtain ⟨hoff, hrest⟩ := h
    cases i with
    | zero =>
      obtain rfl : g = f := Option.some.inj hf
      exact hoff ▸ hrest
    | succ i => exact ih hrest hf

/-- The first frame of a chain stands at its start. -/
theorem chained_head_off {fs : List Frame} {a b : Nat} (h : chained a fs b) {f : Frame} (hf : fs[0]? = some f) :
    f.off = a := by
  cases fs with
  | nil => cases hf
  | cons g rest =>
    obtain rfl : g = f := Option.some.inj hf
    obtain ⟨hoff, -⟩ := h
    exact hoff

/-- Each frame of a chain starts where the one before it ends. -/
theorem chained_next_off {fs : List Frame} {a b : Nat} (h : chained a fs b) {i j : Nat} (hij : j = i + 1) {f g : Frame}
    (hf : fs[i]? = some f) (hg : fs[j]? = some g) : g.off = f.off + f.len := by
  subst hij
  exact chained_head_off (chained_drop h hf) (by simpa using hg)

/-- The last frame of a chain ends where the chain does. -/
theorem chained_last_end {fs : List Frame} {a b : Nat} (h : chained a fs b) {i : Nat} {f : Frame}
    (hf : fs[i]? = some f) (hlast : i + 1 = fs.length) : f.off + f.len = b := by
  have hrest := chained_drop h hf
  rwa [hlast, List.drop_length] at hrest

/-- Frames of one length divide their chain evenly. -/
theorem chained_equal_mod {fs : List Frame} {a b l : Nat} (h : chained a fs b) (hl : ∀ f ∈ fs, f.len = l) :
    (b - a) % fs.length = 0 := by
  have hlens : fs.map Frame.len = List.replicate fs.length l := List.eq_replicate_iff.2 ⟨by simp, by simpa using hl⟩
  have hsum := chained_sum h
  rw [hlens, List.sum_replicate, smul_eq_mul] at hsum
  rw [← hsum, Nat.add_sub_cancel_left, Nat.mul_mod_right]

/-! ### What the frame-count code adds (R44, R234, R235) -/

/-- The law of the frame-data region of a code-3 packet that begins at `pos`: 1 or 2 header bytes for every frame of a VBR
packet but the last (R224), none and equal frames in a CBR packet (R223). -/
def Parsed.RegionLaw (pos : Nat) (p : Parsed) : Prop :=
  if fchVbrFlag p.fch then pos + (p.frames.length - 1) ≤ p.hdr ∧ p.hdr ≤ pos + 2 * (p.frames.length - 1)
  else p.hdr = pos ∧ ∃ l, ∀ f ∈ p.frames, f.len = l

theorem codeLaw_code3_iff {p : Parsed} (hcode : tocCode p.toc = 3#2) :
    p.CodeLaw ↔ p.RegionLaw (2 + p.padIndicators) := by
  simp only [Parsed.CodeLaw, hcode, Parsed.RegionLaw]

theorem Yields.gives {α : Type} {n : Nat} {P : α → Prop} {x : Except ParseStop α} (h : Yields n P x) : Gives P x := by
  rintro a rfl
  exact h

section
variable (mem : Nat → Option Byte) {n : Nat}

/-- A frame-length field has one or two bytes (R150). -/
theorem specFrameLen_consumes (pos stop : Nat) : Gives (fun r => 1 ≤ r.2 ∧ r.2 ≤ 2) (specFrameLen mem pos stop) := by
  unfold specFrameLen
  split
  · exact gives_error _
  · refine gives_bind fun b0 => ?_
    split
    · exact gives_ok (by simp)
    · split
      · exact gives_error _
      · exact gives_bind fun _ => gives_ok (by simp)

/-- So many length fields have as many bytes up to twice as many (R224). -/
theorem specLengths_consumes (stop count : Nat) : ∀ pos : Nat,
    Gives (fun r => r.1.length = count ∧ pos + count ≤ r.2 ∧ r.2 ≤ pos + 2 * count) (specLengths mem stop count pos) := by
  induction count with
  | zero => exact fun pos => gives_ok ⟨rfl, le_rfl, le_rfl⟩
  | succ count ih =>
    intro pos
    refine (specFrameLen_consumes mem pos stop).bind fun ⟨l, c⟩ ⟨hc1, hc2⟩ => ?_
    refine (ih (pos + c)).bind fun ⟨ls, pos'⟩ ⟨hlen, hge, hle⟩ => ?_
    simp only at hc1 hc2 hlen hge hle
    refine gives_ok ⟨by simp [hlen], ?_, ?_⟩
    all_goals dsimp only; omega

theorem specVbr_law (m pos stop : Nat) :
    Gives (fun r => pos + (r.2.length - 1) ≤ r.1 ∧ r.1 ≤ pos + 2 * (r.2.length - 1)) (specVbr mem m pos stop) := by
  refine (specLengths_consumes mem stop (m - 1) pos).bind fun ⟨ls, hdr⟩ ⟨hlen, hge, hle⟩ => ?_
  refine (specPlace_yields ls (off := hdr) (le_refl (stop - hdr))).gives.bind fun fs ⟨hfs, _⟩ => ?_
  simp only at hlen hge hle
  have hcount : fs.length - 1 = m - 1 := by omega
  exact gives_ok (by rw [hcount]; exact ⟨hge, hle⟩)

theorem specCbr_law (m pos stop : Nat) : Gives (fun fs => ∃ l, ∀ f ∈ fs, f.len = l) (specCbr m pos stop) := by
  simp only [specCbr]
  split
  · exact gives_error _
  · exact gives_ok ⟨(stop - pos) / m, by simp⟩

theorem specRegion_law (toc fch : Byte) (pos stop : Nat) (pad : Option Pad) :
    Gives (Parsed.RegionLaw pos) (specRegion mem toc fch pos stop pad) := by
  simp only [specRegion]
  split
  · next hvbr =>
    refine (specVbr_law mem _ _ _).bind fun r hr => gives_ok ?_
    rw [Parsed.RegionLaw, if_pos hvbr]
    exact hr
  · next hcbr =>
    refine (specCbr_law _ _ _).bind fun fs hfs => gives_ok ?_
    rw [Parsed.RegionLaw, if_neg hcbr]
    exact ⟨rfl, hfs⟩

/-- The region of a code-3 packet begins after the two header bytes and the padding indicators (R219). -/
theorem specRegion_codeLaw {toc : Byte} (hcode : tocCode toc = 3#2) (fch : Byte) {pos : Nat} (stop : Nat) {pad : Option Pad}
    (hpos : pos = 2 + (pad.map Pad.ind).getD 0) : Gives Parsed.CodeLaw (specRegion mem toc fch pos stop pad) := by
  intro p hp
  obtain ⟨rfl, -⟩ := specRegion_header mem toc fch pos stop pad p hp
  obtain rfl : p.pad = pad := specRegion_pad _ fch pos stop pad p hp
  have hlaw := specRegion_law mem _ fch pos stop _ p hp
  rw [hpos] at hlaw
  exact (codeLaw_code3_iff hcode).2 hlaw

theorem specCode1_codeLaw {toc : Byte} (hcode : tocCode toc = 1#2) : Gives Parsed.CodeLaw (specCode1 toc n) := by
  simp only [specCode1]
  split
  · exact gives_error _
  · next hlong =>
    split
    · exact gives_error _
    · have hhalf : 1 ≤ (n - 1) / 2 := by omega
      refine gives_ok ?_
      simp only [Parsed.CodeLaw, hcode]
      exact ⟨trivial, trivial, (n - 1) / 2, hhalf, by simp⟩

theorem specCode2_codeLaw {toc : Byte} (hcode : tocCode toc = 2#2) : Gives Parsed.CodeLaw (specCode2 mem toc n) := by
  refine (specFrameLen_consumes mem 1 n).bind fun ⟨l, k⟩ ⟨hk1, hk2⟩ => ?_
  simp only at hk1 hk2 ⊢
  split
  · exact gives_error _
  · have hhdr : 1 + k = 2 ∨ 1 + k = 3 := by omega
    refine gives_ok ?_
    simp only [Parsed.CodeLaw, hcode]
    exact ⟨trivial, hhdr⟩

theorem specCode3_codeLaw {toc : Byte} (hcode : tocCode toc = 3#2) : Gives Parsed.CodeLaw (specCode3 mem toc n) := by
  unfold specCode3
  split
  · exact gives_error _
  · refine gives_bind fun fch => ?_
    dsimp only
    split
    · exact gives_error _
    · split
      · exact gives_bind fun _ => specRegion_codeLaw mem hcode fch _ rfl
      · exact specRegion_codeLaw mem hcode fch _ rfl

/-- Every result of Parse meets the law of its code. -/
theorem specParse_codeLaw : Gives Parsed.CodeLaw (specParse mem n) := by
  unfold specParse
  split
  · exact gives_error _
  · refine gives_bind fun toc => ?_
    split
    · next hcode => exact gives_ok (by simp only [Parsed.CodeLaw, hcode]; exact ⟨trivial, trivial⟩)
    · next hcode => exact specCode1_codeLaw hcode
    · next hcode => exact specCode2_codeLaw mem hcode
    · next hcode => exact specCode3_codeLaw mem hcode

end

/-! ### A result in the registers -/

/-- In OK the result that the registers hold meets the law of its code. -/
theorem ResultInv.lawful_of_ok {s : State} (hs : ResultInv s) (hok : s.status = .ok) :
    ∃ n p, s.inLen = some n ∧ HoldsResult p s ∧ p.Sound n ∧ p.CodeLaw := by
  obtain ⟨n, p, hlen, hparse, hholds, hsound⟩ := hs.of_ok hok
  exact ⟨n, p, hlen, hholds, hsound, specParse_codeLaw _ p hparse⟩

section
variable {s : State} {p : Parsed} (h : HoldsResult p s)
include h

theorem HoldsResult.padLen_getD : s.padLen.getD 0 = p.padTotal := by
  obtain ⟨-, -, -, -, -, -, -, hpadLen, -⟩ := h
  rw [hpadLen, Parsed.padTotal]

theorem HoldsResult.padInd_getD : s.padInd.getD 0 = p.padIndicators := by
  obtain ⟨-, -, -, -, -, -, -, -, hpadInd, -⟩ := h
  rw [hpadInd, Parsed.padIndicators]

theorem HoldsResult.toc_eq {b : Byte} (htoc : s.toc = some b) : p.toc = b := by
  obtain ⟨htoc', -⟩ := h
  exact Option.some.inj (htoc'.symm.trans htoc)

theorem HoldsResult.fch_eq {f : Byte} (hfch : s.fch = some f) : p.fch = f := by
  obtain ⟨-, hfch', -⟩ := h
  exact Option.some.inj (hfch'.symm.trans hfch)

theorem HoldsResult.hdrBytes_eq : s.hdrBytes = some p.hdr := by
  obtain ⟨-, -, hhdr, -⟩ := h
  exact hhdr

/-- Below the frame count a slot holds a frame of the result. -/
theorem HoldsResult.exists_frame {i : Fin 48} (hi : i.val < p.frames.length) :
    ∃ f, p.frames[i.val]? = some f ∧ s.frameOff[i] = some f.off ∧ s.frameLen[i] = some f.len := by
  obtain ⟨-, -, -, hoff, hlen, -⟩ := h
  have hf : p.frames[i.val]? = some p.frames[i.val] := List.getElem?_eq_getElem hi
  exact ⟨_, hf, by rw [hoff, hf]; rfl, by rw [hlen, hf]; rfl⟩

theorem HoldsResult.frame_of_slots {i : Fin 48} {o l : Nat} (ho : s.frameOff[i] = some o) (hl : s.frameLen[i] = some l) :
    ∃ f ∈ p.frames, f.off = o ∧ f.len = l := by
  obtain ⟨-, -, -, hoff, hlen, -⟩ := h
  rw [hoff, Option.map_eq_some_iff] at ho
  obtain ⟨f, hf, rfl⟩ := ho
  rw [hlen, hf] at hl
  exact ⟨f, List.mem_of_getElem? hf, rfl, Option.some.inj hl⟩

end

/-- Slots that hold a list, 0 where none is held, sum up to the list's sum. -/
theorem sum_ofFn_getElem?_getD {k : Nat} : ∀ {xs : List Nat}, xs.length ≤ k →
    (List.ofFn fun i : Fin k => (xs[i.val]?).getD 0).sum = xs.sum := by
  induction k with
  | zero =>
    intro xs hlen
    obtain rfl : xs = [] := List.eq_nil_of_length_eq_zero (Nat.le_zero.1 hlen)
    rfl
  | succ k ih =>
    intro xs hlen
    cases xs with
    | nil => simp
    | cons x xs =>
      rw [List.ofFn_succ, List.sum_cons, List.sum_cons]
      exact congrArg (x + ·) (ih (Nat.le_of_succ_le_succ hlen))

/-! ### The statements -/

/-- Settles O50: the slots sum up to the frames, which fill the packet from HDR_BYTES to `n` less the padding. -/
theorem packetLengthAddsUp : Obligations.PacketLengthAddsUp := by
  intro s hs hok
  obtain ⟨n, p, hlen, -, hholds, hsound⟩ := hs.of_ok hok
  have hpad := hholds.padLen_getD
  obtain ⟨-, -, hhdr, -, hframeLen, -⟩ := hholds
  obtain ⟨-, -, hmax, hfits, hch, -⟩ := hsound
  have hslots : (List.ofFn fun i : Fin 48 => s.frameLen[i].getD 0).sum = (p.frames.map Frame.len).sum := by
    rw [← sum_ofFn_getElem?_getD (k := 48) (xs := p.frames.map Frame.len) (by simpa using hmax)]
    simp only [hframeLen, List.getElem?_map]
  have hsum := chained_sum hch
  exact ⟨n, p.hdr, hlen, hhdr, by rw [hslots, hpad]; omega⟩

/-- Settles O51: the two ends of the chain, and the two frames at each join. -/
theorem framesBackToBack : Obligations.FramesBackToBack := by
  intro s n f hs hok hlen hfch
  obtain ⟨n', p, hlen', -, hholds, hcount, hpos, -, hfits, hch, -⟩ := hs.of_ok hok
  obtain rfl : n' = n := Option.some.inj (hlen'.symm.trans hlen)
  obtain rfl := hholds.fch_eq hfch
  refine ⟨?_, fun i j hij hj => ?_, fun i hi => ?_⟩
  · obtain ⟨g, hg, hoff, -⟩ := hholds.exists_frame (i := 0) hpos
    rw [hholds.hdrBytes_eq, ← chained_head_off hch hg]
    exact hoff
  · obtain ⟨g, hg, hoff, hslotLen⟩ := hholds.exists_frame (i := i) (by omega)
    obtain ⟨g', hg', hoff', -⟩ := hholds.exists_frame (i := j) (by omega)
    exact ⟨g.off, g.len, hoff, hslotLen, by rw [hoff', chained_next_off hch hij hg hg']⟩
  · obtain ⟨g, hg, hoff, hslotLen⟩ := hholds.exists_frame (i := i) (by omega)
    have hend := chained_last_end hch hg (hi.trans hcount.symm)
    exact ⟨g.off, g.len, hoff, hslotLen, by rw [hend, hholds.padLen_getD]; omega⟩

/-- Settles O52: the law of each code, with as many frames as FCH counts. -/
theorem frameCountAndHeaderByCode : Obligations.FrameCountAndHeaderByCode := by
  rintro s b f h m hs hok htoc hfch hhdr rfl
  obtain ⟨n, p, -, hholds, ⟨hcount, hpos, hmax, -⟩, hlaw⟩ := hs.lawful_of_ok hok
  obtain rfl := hholds.toc_eq htoc
  obtain rfl := hholds.fch_eq hfch
  obtain rfl : p.hdr = h := Option.some.inj (hholds.hdrBytes_eq.symm.trans hhdr)
  rw [hholds.padInd_getD]
  refine ⟨fun hcode => ?_, fun hcode => ?_, fun hcode => ?_, fun hcode => ?_⟩
  · simp only [Parsed.CodeLaw, hcode] at hlaw
    obtain ⟨hfch, hhdr⟩ := hlaw
    exact ⟨by rw [hfch]; rfl, hhdr⟩
  · simp only [Parsed.CodeLaw, hcode] at hlaw
    obtain ⟨hfch, hhdr, -⟩ := hlaw
    exact ⟨by rw [hfch]; rfl, hhdr⟩
  · simp only [Parsed.CodeLaw, hcode] at hlaw
    obtain ⟨hfch, hhdr⟩ := hlaw
    exact ⟨by rw [hfch]; rfl, hhdr⟩
  · rw [codeLaw_code3_iff hcode, Parsed.RegionLaw, hcount] at hlaw
    refine ⟨by omega, by omega, fun hcbr => ?_, fun hvbr => ?_⟩
    · rw [if_neg (Bool.eq_false_iff.1 hcbr)] at hlaw
      obtain ⟨hhdr, -⟩ := hlaw
      exact hhdr
    · rwa [if_pos hvbr] at hlaw

/-- Settles O53: the equal lengths are the law of the code, and equal frames divide their chain evenly. -/
theorem equalFrames : Obligations.EqualFrames := by
  intro s n h b f hs hok hlen hhdr htoc hfch
  obtain ⟨n', p, hlen', hholds, ⟨hcount, -, -, -, hch, -⟩, hlaw⟩ := hs.lawful_of_ok hok
  obtain rfl : n' = n := Option.some.inj (hlen'.symm.trans hlen)
  obtain rfl := hholds.toc_eq htoc
  obtain rfl := hholds.fch_eq hfch
  obtain rfl : p.hdr = h := Option.some.inj (hholds.hdrBytes_eq.symm.trans hhdr)
  have hslot {l : Nat} (hl : ∀ g ∈ p.frames, g.len = l) (i : Fin 48) (hi : i.val < (fchCount p.fch).toNat) :
      s.frameLen[i] = some l := by
    obtain ⟨g, hg, -, hslotLen⟩ := hholds.exists_frame (i := i) (by omega)
    rw [hslotLen, hl g (List.mem_of_getElem? hg)]
  refine ⟨fun hcode => ?_, fun hcode hcbr => ?_⟩
  · simp only [Parsed.CodeLaw, hcode] at hlaw
    obtain ⟨htwo, -, l, hpos, hl⟩ := hlaw
    exact ⟨l, hpos, hslot hl 0 (by rw [htwo]; decide), hslot hl 1 (by rw [htwo]; decide)⟩
  · rw [codeLaw_code3_iff hcode, Parsed.RegionLaw, if_neg (Bool.eq_false_iff.1 hcbr)] at hlaw
    obtain ⟨-, l, hl⟩ := hlaw
    have hdiv := chained_equal_mod hch hl
    rw [hcount, Nat.sub_right_comm] at hdiv
    rw [hholds.padLen_getD]
    exact ⟨hdiv, l, hslot hl⟩

/-- Settles O54: the padding range ends the packet, and the chain of frames ends where it begins. -/
theorem paddingIsTail : Obligations.PaddingIsTail := by
  intro s n o len hs hok hlen hpadOff hpadLen
  obtain ⟨n', p, hlen', -, hholds, -, -, -, hfits, hch, -, htail⟩ := hs.of_ok hok
  obtain rfl : n' = n := Option.some.inj (hlen'.symm.trans hlen)
  have htotal : p.padTotal = len := by rw [← hholds.padLen_getD, hpadLen]; rfl
  obtain ⟨q, hq, hqoff⟩ : ∃ q, p.pad = some q ∧ q.off = o := by
    obtain ⟨-, -, -, -, -, -, hpadOff', -⟩ := hholds
    exact Option.map_eq_some_iff.1 (hpadOff'.symm.trans hpadOff)
  obtain ⟨hend, -⟩ := htail q hq
  have hqlen : q.len = len := by simpa [Parsed.padTotal, hq] using htotal
  have hoff : o = n' - len := by omega
  refine ⟨hoff, by omega, by omega, fun i fo fl hfo hfl => ?_⟩
  obtain ⟨f, hmem, rfl, rfl⟩ := hholds.frame_of_slots hfo hfl
  rw [hoff, ← htotal]
  exact end_le_of_mem_chained hch hmem

end Sys2Proof.Machine
end

section
/-! SUPPORT. The Host's writes, reads and commands (44_host_commands.md R261-R269): the guards each passes, what a packet write
leaves in the registers (20_memory.md R88), and which register writes are no instruction (10_state.md R51, R52). From it, O36,
O24, O25, O26, O27, O29, O30, O31, O32, O33. -/

namespace Sys2Proof.Machine

/-! ### A packet write: WB and WR IN_LEN (R88, R261, R263) -/

/-- From OK or ERR a packet write drops the result or error held. -/
theorem cleared_packetChanged {s : State} (hb : s.status ≠ .busy) (hidle : s.status ≠ .idle) :
    NoErrors (packetChanged s) ∧ NoResults (packetChanged s) := by
  cases hst : s.status with
  | idle | busy => contradiction
  | ok => rw [packetChanged_of_ok s hst]; exact ⟨noErrors_clearResults s, noResults_clearResults s⟩
  | err => rw [packetChanged_of_err s hst]; exact ⟨noErrors_clearResults s, noResults_clearResults s⟩

/-- The state after an accepted packet write that leaves IN_BUF and IN_LEN at these contents. -/
def writePacket (m : Memory) (l : Option Nat) (s : State) : State := packetChanged { s with inBuf := m, inLen := l }

section
variable {s : State} (m : Memory) (l : Option Nat)

@[simp] theorem writePacket_inBuf : (writePacket m l s).inBuf = m := packetChanged_inBuf _

@[simp] theorem writePacket_inLen : (writePacket m l s).inLen = l := packetChanged_inLen _

@[simp] theorem writePacket_work : (writePacket m l s).work = s.work := packetChanged_work _

theorem writePacket_status (hb : s.status ≠ .busy) : (writePacket m l s).status = .idle := packetChanged_status _ hb

theorem sameOutside_writePacket : SameOutside s (writePacket m l s) :=
  ⟨packetChanged_config _, packetChanged_pending _, packetChanged_hostData _⟩

/-- In IDLE a packet write touches no result or error register. -/
theorem sameResults_writePacket (hidle : s.status = .idle) : SameResults s (writePacket m l s) := by
  have hsame : writePacket m l s = { s with inBuf := m, inLen := l } := packetChanged_of_idle _ hidle
  rw [hsame]
  exact ⟨rfl, rfl, rfl, rfl, rfl, rfl, rfl, rfl, rfl, rfl, rfl⟩

theorem cleared_writePacket (hb : s.status ≠ .busy) (hidle : s.status ≠ .idle) :
    NoErrors (writePacket m l s) ∧ NoResults (writePacket m l s) :=
  cleared_packetChanged (s := { s with inBuf := m, inLen := l }) hb hidle

theorem sameResults_or_cleared_writePacket (hb : s.status ≠ .busy) :
    SameResults s (writePacket m l s) ∨ (NoErrors (writePacket m l s) ∧ NoResults (writePacket m l s)) := by
  by_cases hidle : s.status = .idle
  · exact .inl (sameResults_writePacket m l hidle)
  · exact .inr (cleared_writePacket m l hb hidle)

end

/-! ### The guards of WB, WR IN_LEN, PARSE and CLEAR (R261, R263, R267, R268) -/

section
variable {s : State}

theorem exec_wb_refused {a : Nat} (v : Byte) (h : s.config.pktCap ≤ a ∨ s.status = .busy) :
    ∃ r, exec (.wb a v) s = .refused r := by
  by_cases ha : s.config.pktCap ≤ a
  · exact ⟨.addressOutOfRange a, if_pos ha⟩
  · exact ⟨.blockBusy, (if_neg ha).trans (if_pos (h.resolve_left ha))⟩

theorem exec_wb {a : Nat} (v : Byte) (ha : a < s.config.pktCap) (hb : s.status ≠ .busy) :
    exec (.wb a v) s = .next (writePacket (memWrite s.inBuf a v) s.inLen s) :=
  (if_neg (Nat.not_le.2 ha)).trans (if_neg hb)

theorem exec_wrInLen_refused {n : Nat} (h : s.config.pktCap < n ∨ s.status = .busy) :
    ∃ r, exec (.wrInLen n) s = .refused r := by
  by_cases hn : s.config.pktCap < n
  · exact ⟨.lengthOutOfRange n, if_pos hn⟩
  · exact ⟨.blockBusy, (if_neg hn).trans (if_pos (h.resolve_left hn))⟩

theorem exec_wrInLen {n : Nat} (hn : n ≤ s.config.pktCap) (hb : s.status ≠ .busy) :
    exec (.wrInLen n) s = .next (writePacket s.inBuf (some n) s) :=
  (if_neg (Nat.not_lt.2 hn)).trans (if_neg hb)

theorem exec_cmdParse_refused (h : s.status = .busy ∨ s.inLen = none) : ∃ r, exec .cmdParse s = .refused r := by
  by_cases hb : s.status = .busy
  · exact ⟨.blockBusy, if_pos hb⟩
  · refine ⟨.lengthNeverWritten, ?_⟩
    simp only [exec, execCmdParse, hb, if_false, h.resolve_left hb]

theorem exec_cmdClear (hb : s.status ≠ .busy) : exec .cmdClear s = .next { clearResults s with status := .idle } :=
  if_neg hb

end

/-! ### Register writes that are no instruction (R51, R52, R265) -/

theorem decode_regWrite {x : Nat} (hx : x < 256) (v : Nat) :
    decode (.access { space := 0#1, dir := 1#1, index := x, data := some v }) = decodeRegWrite x v :=
  if_neg (Nat.not_le.2 hx)

/-- Every index but that of CTRL and of IN_LEN is reserved or names a read-only register. -/
theorem decodeRegWrite_rejects {x : Nat} (hx : x < 256) (hctrl : x ≠ 0x00) (hlen : x ≠ 0x02) (v : Nat) :
    ∃ e, decodeRegWrite x v = .error e := by
  unfold decodeRegWrite
  split
  · exact ⟨_, rfl⟩
  · next hreg => exact absurd (index_of_ofIndex hx hreg).symm hctrl
  · next hreg => exact absurd (index_of_ofIndex hx hreg).symm hlen
  · exact ⟨_, rfl⟩

theorem hostAccess_of_decode_error {a : Access} {e : DecodeError} (h : decode (.access a) = .error e) (s : State) :
    hostAccess a s = .refused (.undecodable e) := by
  simp only [hostAccess, h]

/-! ### The statements -/

/-- Settles O36, by the four accepted writes: a packet write keeps or clears the registers, PARSE and CLEAR clear them. -/
theorem hostWriteFrame : Obligations.HostWriteFrame := by
  intro i s t hi h
  have hhost : i.isPacketField = false := by
    rcases hi with ⟨a, v, rfl⟩ | ⟨n, rfl⟩ | rfl | rfl <;> rfl
  cases exec_host_next hhost h with
  | readByte | readRegister | nop => simp at hi
  | writeByte a v _ hb ht =>
    obtain rfl : t = writePacket (memWrite s.inBuf a v) s.inLen s := ht
    refine ⟨sameOutside_writePacket _ _, writePacket_work _ _, fun _ => writePacket_inLen _ _, fun b hne => ?_,
      sameResults_or_cleared_writePacket _ _ hb⟩
    have hba : b ≠ a := fun hba => hne v (by rw [hba])
    rw [writePacket_inBuf, memRead_memWrite_other _ v hba]
  | setLength n _ hb ht =>
    obtain rfl : t = writePacket s.inBuf (some n) s := ht
    exact ⟨sameOutside_writePacket _ _, writePacket_work _ _, fun hne => absurd rfl (hne n),
      fun _ _ => by rw [writePacket_inBuf], sameResults_or_cleared_writePacket _ _ hb⟩
  | parse _ _ ht | clear _ ht =>
    subst ht
    exact ⟨⟨rfl, rfl, rfl⟩, rfl, fun _ => rfl, fun _ _ => rfl, .inr ⟨noErrors_clearResults s, noResults_clearResults s⟩⟩

/-- Settles O24, from the guards of WB, a read after its write, and the registers after a packet write. -/
theorem byteWriteStores : Obligations.ByteWriteStores := by
  intro s a v
  refine ⟨exec_wb_refused v, fun ha hb => ⟨_, exec_wb v ha hb, ?_, fun b hne => ?_, writePacket_status _ _ hb,
    sameResults_writePacket _ _, cleared_writePacket _ _ hb, writePacket_inLen _ _, writePacket_work _ _,
    sameOutside_writePacket _ _⟩⟩
  · rw [writePacket_inBuf, memRead_memWrite_same]
  · rw [writePacket_inBuf, memRead_memWrite_other _ v hne]

/-- Settles O25, by the range check and then by what the byte holds. -/
theorem byteReadReturns : Obligations.ByteReadReturns := by
  intro s a
  refine ⟨fun ha => ⟨.addressOutOfRange a, if_pos ha⟩, fun ha hbyte => ?_, fun v ha hbyte => ?_⟩
  · simp only [exec, execRb, if_neg (Nat.not_le.2 ha), hbyte]
  · simp only [exec, execRb, if_neg (Nat.not_le.2 ha), hbyte, returnToHost]

/-- Settles O26, from the guards of WR IN_LEN and the registers after a packet write. -/
theorem lengthWriteSets : Obligations.LengthWriteSets := by
  intro s n
  exact ⟨exec_wrInLen_refused, fun hn hb => ⟨_, exec_wrInLen hn hb, writePacket_inLen _ _, writePacket_status _ _ hb,
    sameResults_writePacket _ _, cleared_writePacket _ _ hb, fun _ => by rw [writePacket_inBuf], writePacket_work _ _,
    sameOutside_writePacket _ _⟩⟩

/-- Settles O27, by the register the index names and then by what it holds. -/
theorem registerReadReturns : Obligations.RegisterReadReturns := by
  intro s x
  refine ⟨fun hreserved => ?_, fun r hr hnone => ?_, fun r v hr hv => ?_, rfl⟩
  · simp only [exec, execRr, hreserved]
  · simp only [exec, execRr, hr, hnone]
  · simp only [exec, execRr, hr, hv, returnToHost]

/-- Settles O29: NOP answers the state it was given. -/
theorem nopHasNoEffect : Obligations.NopHasNoEffect := fun _ => rfl

/-- Settles O30, from the guards of PARSE and what clearing the results leaves. -/
theorem parseStarts : Obligations.ParseStarts := fun s =>
  ⟨exec_cmdParse_refused, fun hb hlen => ⟨_, exec_cmdParse hb hlen, rfl, noErrors_clearResults s, noResults_clearResults s,
    rfl, fun _ => rfl, rfl, rfl, rfl, rfl⟩⟩

/-- Settles O31, from the guard of CLEAR and what clearing the results leaves. -/
theorem clearDropsResult : Obligations.ClearDropsResult := fun s =>
  ⟨fun hb => ⟨.blockBusy, if_pos hb⟩, fun hb => ⟨_, exec_cmdClear hb, rfl, noErrors_clearResults s,
    noResults_clearResults s, rfl, fun _ => rfl, rfl, rfl, rfl, rfl⟩⟩

/-- Settles O32: such a value is 3 or more, which is no command. -/
theorem reservedCommandRefused : Obligations.ReservedCommandRefused := by
  intro s v h
  have hv : 3 ≤ v.toNat := by
    rcases h with rfl | hhigh
    · decide
    · omega
  exact ⟨(decode_ctrlWrite v).trans (congrArg Except.ok (decodeCtrl_reserved hv)), rfl⟩

/-- Settles O33: any other index is rejected by the decoder, and a CTRL value is read as its command. -/
theorem registerWrites : Obligations.RegisterWrites := by
  refine ⟨fun s x v hle hctrl hlen => ?_, fun v => ⟨decodeCtrl v, decode_ctrlWrite v, ?_, ?_, ?_, decodeCtrl_reserved⟩⟩
  · have hx : x < 256 := by omega
    obtain ⟨e, he⟩ := decodeRegWrite_rejects hx hctrl hlen v
    exact ⟨_, hostAccess_of_decode_error ((decode_regWrite hx v).trans he) s⟩
  all_goals rintro rfl; rfl

end Sys2Proof.Machine
end

section
/-! SUPPORT. Reset as a step (70_reset_and_hazards.md R320): the error and result registers it leaves (10_state.md R55). From
it, O49. -/

namespace Sys2Proof.Machine

theorem noErrors_applyReset (s : State) : NoErrors (applyReset s) := ⟨applyReset_errKind s, applyReset_errAvail s⟩

theorem noResults_applyReset (s : State) : NoResults (applyReset s) :=
  ⟨applyReset_toc s, applyReset_fch s, applyReset_hdrBytes s, applyReset_padOff s, applyReset_padLen s,
    applyReset_padInd s, applyReset_frameOff s, applyReset_frameLen s, applyReset_frameSil s⟩

/-- Settles O49: the step takes the reset off the schedule and applies it, whatever the STATE. -/
theorem resetAtAnyTime : Obligations.ResetAtAnyTime := by
  intro s rest hpending
  have hempty (a : Nat) : memRead (applyReset { s with pending := rest }).inBuf a = none := by
    rw [applyReset_inBuf, memRead_nil]
  exact ⟨_, step_reset hpending, applyReset_status _, applyReset_inLen _, hempty, noErrors_applyReset _,
    noResults_applyReset _, applyReset_work _, applyReset_config _, applyReset_pending _⟩

end Sys2Proof.Machine
end
